-- ==== Sys2Proof/Word.lean ====
section
/-! DEFINITION. The words of the machine: bytes, addresses, vector and opmask registers. -/

namespace Sys2Proof

/-- Eight bits: one byte of memory or of an instruction. -/
abbrev Byte := BitVec 8

/-- A linear address or a general register (00_scope.md R10: 64 bits in M64; in M32 the low 32 bits are used). -/
abbrev Addr := BitVec 64

/-- The container of one vector register: `MAXVL` bits stand in its low bits (00_scope.md R7, 10_state.md R20, R21; log 10). -/
abbrev Vec := BitVec 512

/-- One opmask register, `KW = 64` bits (10_state.md R23, 00_scope.md R10; log 11). -/
abbrev Mask := BitVec 64

end Sys2Proof
end

