-- ==== Sys2Proof/Config.lean ====
section
/-! DEFINITION. What an implementation and its launch fix for a run: the parameters that the spec leaves OPEN (00_scope.md R7 to R10,
92_eei_decisions.md), as plain data. They are a field of State, so that a statement about every state quantifies over them (log 2). -/

namespace Sys2Proof

/-- The execution mode `MODE` (00_scope.md R9): 64-bit mode, or 32-bit protected or compatibility mode with a 32-bit code segment. -/
inductive Mode
  | m64
  | m32
deriving DecidableEq, Repr

/-- The three widths a vector register may have (00_scope.md R7). -/
inductive MaxVl
  | v128
  | v256
  | v512
deriving DecidableEq, Repr

/-- `MAXVL` in bits (00_scope.md R7). -/
def MaxVl.bits : MaxVl → Nat
  | .v128 => 128
  | .v256 => 256
  | .v512 => 512

/-- `FEAT`: the CPUID feature flags the processor reports (00_scope.md R3, R8; 10_state.md R34). -/
structure Feat where
  sse41 : Bool
  avx : Bool
  avx2 : Bool
  avx512f : Bool
  avx512vl : Bool
deriving DecidableEq, Repr

/-- The six segments a memory operand may be addressed through (10_state.md R36). -/
inductive Seg
  | es
  | cs
  | ss
  | ds
  | fs
  | gs
deriving DecidableEq, Repr

/-- `SegBase(seg)`: the base address of each segment (00_scope.md R10). -/
structure SegBases where
  es : Addr
  cs : Addr
  ss : Addr
  ds : Addr
  fs : Addr
  gs : Addr
deriving DecidableEq, Repr

/-- `ENV`: the operating system's enable state (10_state.md R35). -/
structure Env where
  /-- CR0.EM -/
  em : Bool
  /-- CR0.TS -/
  ts : Bool
  /-- CR4.OSFXSR -/
  osfxsr : Bool
  /-- CR4.OSXSAVE -/
  osxsave : Bool
  /-- XCR0: bit 1 SSE, bit 2 AVX, bit 5 opmask, bit 6 ZMM_Hi256, bit 7 Hi16_ZMM state -/
  xcr0 : BitVec 64
  /-- the current privilege level -/
  cpl : BitVec 2
deriving DecidableEq, Repr

/-- Why an access to a byte does not simply read it (20_memory.md R50, R52). -/
inductive RegionKind
  /-- outside what segmentation allows: `#GP(0)`, or `#SS(0)` through the stack segment (60_exceptions.md R146) -/
  | segmentation
  /-- a page fault whose code has these bits P, RSVD and PK (60_exceptions.md R143) -/
  | page (present rsvd pk : Bool)
  /-- a device, uncacheable or write-combining window: refused as an operand (20_memory.md R50) -/
  | device
deriving DecidableEq, Repr

/-- A range of linear addresses `[base, base + size)` that is not ordinary readable memory. -/
structure Region where
  base : Nat
  size : Nat
  kind : RegionKind
deriving DecidableEq, Repr

/-- What `Access(addr, n)` answers for one operand (20_memory.md R52): a rejection is `#GP(0)` or `#SS(0)` as the operand's segment has it
(60_exceptions.md R146), a page fault names the operand's byte `byte` (modulo `n`) and has a code with these bits P, RSVD and PK (R143). -/
inductive AccessResult
  /-- what the regions say of its bytes; of several page-faulting ones the fault names this one, counted from the lowest, modulo how many -/
  | bytes (pick : Nat)
  | ok
  | segmentation
  | page (present rsvd pk : Bool) (byte : Nat)
deriving DecidableEq, Repr

/-- One value of the function `Access` (R52). -/
structure AccessEntry where
  addr : Addr
  size : Nat
  result : AccessResult
deriving DecidableEq, Repr

/-- The parameters of a run (00_scope.md R10, 92_eei_decisions.md "Parameters left OPEN"). -/
structure Platform where
  mode : Mode
  maxvl : MaxVl
  feat : Feat
  env : Env
  segBase : SegBases
  /-- `Access` byte by byte: every address in no region is ordinary readable memory (20_memory.md R52; log 5) -/
  regions : List Region
  /-- `Access` operand by operand: the first entry with its address and size decides, before the regions do (R52; log 5) -/
  accessEntries : List AccessEntry
  /-- which of the faulting bytes `Access` names in a page fault of an operand without an entry, counted from the lowest, modulo how many there
  are: any of them may be the one (60_exceptions.md R147, 93_implementation_defined.md U14; log 5) -/
  faultPick : Nat
  /-- linear addresses have 57 bits instead of 48 (20_memory.md R51) -/
  la57 : Bool
  /-- `FaultSuppression` (20_memory.md R49) -/
  faultSuppression : Bool
deriving DecidableEq, Repr

/-- `ILEN_MAX`: the longest legal instruction in bytes (00_scope.md R10). -/
def ilenMax : Nat := 15

end Sys2Proof
end

