-- ==== Sys2Proof/Syntax.lean ====
section
/-! DEFINITION. The instructions: one constructor per row of spec/opcode_table.json, holding every bit of an encoding that the row leaves free,
so that an instruction determines its bytes. -/

namespace Sys2Proof

/-- A legacy prefix byte that may stand before a form (30_encoding.md R61 to R63): a segment override, `67` or `66`. -/
inductive Pfx
  | seg (s : Seg)
  | addrSize
  | opSize
deriving DecidableEq, Repr

/-- The displacement bytes of a memory operand with a base (30_encoding.md R66). -/
inductive Disp
  | none
  | d8 (v : BitVec 8)
  | d32 (v : BitVec 32)
deriving DecidableEq, Repr

/-- What ModRM.mod, ModRM.rm, SIB and the displacement say (30_encoding.md R64 to R66). -/
inductive RmForm
  /-- `mod = 11`: a vector register, low three bits of its number -/
  | reg (n : BitVec 3)
  /-- `[base + disp]`, low three bits of the base's number -/
  | base (r : BitVec 3) (disp : Disp)
  /-- `mod = 00, rm = 101`: `[RIP + disp32]` in M64, `[disp32]` in M32 -/
  | disp32 (d : BitVec 32)
  /-- `[base + index*scale + disp]` -/
  | sib (scale : BitVec 2) (index base : BitVec 3) (disp : Disp)
  /-- `[index*scale + disp32]`: `mod = 00`, SIB.base = 101 -/
  | sibNoBase (scale : BitVec 2) (index : BitVec 3) (d : BitVec 32)
deriving DecidableEq, Repr

/-- The ModRM:r/m operand with the (true, un-inverted) extension bits X and B (30_encoding.md R65, R73). -/
structure Rm where
  x : Bool
  b : Bool
  form : RmForm
deriving DecidableEq, Repr

/-- Operands of op/en A (30_encoding.md R61, R70): `d` is destination and first source; `rexW` holds REX.W when a REX byte is present. -/
structure LegOperands where
  pfx : List Pfx
  rexW : Option Bool
  d : BitVec 4
  rm : Rm
deriving DecidableEq, Repr

/-- Operands of op/en B (30_encoding.md R62, R71); `w` is the ignored bit VEX.W. -/
structure VexOperands where
  pfx : List Pfx
  w : Bool
  d : BitVec 4
  s1 : BitVec 4
  rm : Rm
deriving DecidableEq, Repr

/-- Operands of op/en C (30_encoding.md R63, R72, R77, R78): `z` zeroing-masking, `bc` the broadcast bit EVEX.b, `aaa` the writemask selector. -/
structure EvexOperands where
  pfx : List Pfx
  d : BitVec 5
  s1 : BitVec 5
  z : Bool
  bc : Bool
  aaa : BitVec 3
  rm : Rm
deriving DecidableEq, Repr

/-- The nine forms of 00_scope.md R2, in the table's order. -/
inductive Instr
  /-- `PMINUD xmm1, xmm2/m128` (R100) -/
  | pminudSse128 (o : LegOperands)
  /-- `VPMINUD xmm1, xmm2, xmm3/m128` (R110) -/
  | vpminudVex128 (o : VexOperands)
  /-- `VPMINUD ymm1, ymm2, ymm3/m256` (R111) -/
  | vpminudVex256 (o : VexOperands)
  /-- `VPMINUD xmm1 {k1}{z}, xmm2, xmm3/m128/m32bcst` (R121) -/
  | vpminudEvex128 (o : EvexOperands)
  /-- `VPMINUD ymm1 {k1}{z}, ymm2, ymm3/m256/m32bcst` (R122) -/
  | vpminudEvex256 (o : EvexOperands)
  /-- `VPMINUD zmm1 {k1}{z}, zmm2, zmm3/m512/m32bcst` (R123) -/
  | vpminudEvex512 (o : EvexOperands)
  /-- `VPMINUQ xmm1 {k1}{z}, xmm2, xmm3/m128/m64bcst` (R124) -/
  | vpminuqEvex128 (o : EvexOperands)
  /-- `VPMINUQ ymm1 {k1}{z}, ymm2, ymm3/m256/m64bcst` (R125) -/
  | vpminuqEvex256 (o : EvexOperands)
  /-- `VPMINUQ zmm1 {k1}{z}, zmm2, zmm3/m512/m64bcst` (R126) -/
  | vpminuqEvex512 (o : EvexOperands)
deriving DecidableEq, Repr

/-- Why bytes that encode one of the forms raise `#UD` while they are decoded (30_encoding.md R90). -/
inductive UdReason
  /-- the LOCK prefix `F0` precedes the form -/
  | lockPrefix
  /-- `66`, `F2`, `F3` or a REX byte precedes a VEX or EVEX prefix -/
  | badPrefixBeforeVex
  /-- EVEX reserved bits: P0 bits 3:2 not 00, or P1 bit 2 not 1 -/
  | evexReservedBits
  /-- EVEX vector length `L'L = 11` -/
  | evexLength11
  /-- EVEX `z = 1` with `aaa = 000`, or `b = 1` with `mod = 11` -/
  | evexReservedCombination
deriving DecidableEq, Repr

/-- Why the decoder says nothing about some bytes; every one of these is safe (the model makes no claim). -/
inductive DecodeRefusal
  /-- not one of the nine forms (30_encoding.md R87, R90) -/
  | notInScope
  /-- `0F 38 3B` without the mandatory `66` (R90) -/
  | noMandatoryPrefix
  /-- the legacy form with `F2` or `F3` (R90, D17) -/
  | repPrefixOnLegacy
  /-- the legacy form with a REX byte that is not immediately before `0F` (R90, D17) -/
  | misplacedRex
  /-- prefix `67` in M32: 16-bit addressing (R69, D22) -/
  | addressSize16
  /-- M32 with an extension bit not stored as 1 (R81, D25) -/
  | extensionBitsInM32
  /-- longer than `ILEN_MAX` bytes (R83, D18) -/
  | tooLong
  /-- the bytes end before the instruction does -/
  | truncated
deriving DecidableEq, Repr

/-- What decoding answers: an instruction and the bytes after it, `#UD`, or a refusal. -/
inductive Decoded
  | instr (i : Instr) (rest : List Byte)
  | undefined (why : UdReason)
  | refused (why : DecodeRefusal)
deriving DecidableEq, Repr

/-- A byte that may stand before the opcode or the VEX or EVEX prefix (30_encoding.md R61, R83, R90). -/
inductive PreByte
  | pfx (p : Pfx)
  | lock
  | repne
  | rep
  | rex (w r x b : Bool)
deriving DecidableEq, Repr

end Sys2Proof
end

