-- ==== Sys2Proof/Decode.lean ====
section
/-! DEFINITION. The decoder (30_encoding.md R60 to R66, R73, R81 to R83, R90): total on any bytes, rejecting by name; then the encoder,
written from the same tables; then the host's entry decodeTableWord. Byte layouts are the spec's, which marks them general knowledge (log 18). -/

namespace Sys2Proof

/-! ### Bytes before the opcode -/

/-- A byte in prefix position (R61, R83, R90); REX exists in M64 only. -/
def preByte? (m : Mode) (b : Byte) : Option PreByte :=
  if b = 0x26 then some (.pfx (.seg .es))
  else if b = 0x2E then some (.pfx (.seg .cs))
  else if b = 0x36 then some (.pfx (.seg .ss))
  else if b = 0x3E then some (.pfx (.seg .ds))
  else if b = 0x64 then some (.pfx (.seg .fs))
  else if b = 0x65 then some (.pfx (.seg .gs))
  else if b = 0x66 then some (.pfx .opSize)
  else if b = 0x67 then some (.pfx .addrSize)
  else if b = 0xF0 then some .lock
  else if b = 0xF2 then some .repne
  else if b = 0xF3 then some .rep
  else if m = .m64 ∧ b.extractLsb' 4 4 = 4 then some (.rex (b.getLsbD 3) (b.getLsbD 2) (b.getLsbD 1) (b.getLsbD 0))
  else none

/-- The longest run of prefix-position bytes, and what follows it. -/
def scanPre (m : Mode) : List Byte → List PreByte × List Byte
  | [] => ([], [])
  | b :: bs =>
    match preByte? m b with
    | some p => (p :: (scanPre m bs).1, (scanPre m bs).2)
    | none => ([], b :: bs)

/-- A byte that must not precede a VEX or EVEX prefix, whatever instruction it starts (R62, R63, R83, R90); LOCK is judged with the form. -/
def PreByte.badBeforeVex : PreByte → Bool
  | .pfx .opSize => true
  | .pfx _ => false
  | .lock => false
  | _ => true

def PreByte.isRep : PreByte → Bool
  | .repne => true
  | .rep => true
  | _ => false

/-- The plain prefixes among the bytes before a form. -/
def plainPfx : List PreByte → List Pfx
  | [] => []
  | .pfx p :: ps => p :: plainPfx ps
  | _ :: ps => plainPfx ps

/-- The bytes before a legacy opcode as prefixes and an optional last REX byte (R61); `none` when a REX byte stands elsewhere. -/
def legacyPre : List PreByte → Option (List Pfx × Option (Bool × Bool × Bool × Bool))
  | [] => some ([], none)
  | .pfx p :: ps => (legacyPre ps).map fun q => (p :: q.1, q.2)
  | .rex w r x b :: ps => if ps = [] then some ([], some (w, r, x, b)) else none
  | _ :: _ => none

/-! ### ModRM, SIB, displacement -/

/-- Four little-endian bytes (R66). -/
def take32 : List Byte → Option (BitVec 32 × List Byte)
  | b0 :: b1 :: b2 :: b3 :: tl => some (b3 ++ b2 ++ b1 ++ b0, tl)
  | _ => none

/-- The displacement that `mod = 00, 01, 10` announces after a base (R66). -/
def takeDisp (mod : BitVec 2) (bs : List Byte) : Option (Disp × List Byte) :=
  if mod = 0 then some (.none, bs)
  else if mod = 1 then
    match bs with
    | b :: tl => some (.d8 b, tl)
    | [] => none
  else (take32 bs).map fun p => (.d32 p.1, p.2)

/-- The bytes from ModRM on: the `reg` field, the r/m operand's form, and what follows (R64 to R66); `none` when the bytes end first. -/
def takeRm : List Byte → Option (BitVec 3 × RmForm × List Byte)
  | [] => none
  | mr :: tl =>
    if mr.extractLsb' 6 2 = 3 then some (mr.extractLsb' 3 3, .reg (mr.extractLsb' 0 3), tl)
    else if mr.extractLsb' 0 3 = 4 then
      match tl with
      | [] => none
      | sb :: tl2 =>
        if mr.extractLsb' 6 2 = 0 ∧ sb.extractLsb' 0 3 = 5 then
          (take32 tl2).map fun p => (mr.extractLsb' 3 3, .sibNoBase (sb.extractLsb' 6 2) (sb.extractLsb' 3 3) p.1, p.2)
        else
          (takeDisp (mr.extractLsb' 6 2) tl2).map fun p =>
            (mr.extractLsb' 3 3, .sib (sb.extractLsb' 6 2) (sb.extractLsb' 3 3) (sb.extractLsb' 0 3) p.1, p.2)
    else if mr.extractLsb' 6 2 = 0 ∧ mr.extractLsb' 0 3 = 5 then
      (take32 tl).map fun p => (mr.extractLsb' 3 3, .disp32 p.1, p.2)
    else
      (takeDisp (mr.extractLsb' 6 2) tl).map fun p => (mr.extractLsb' 3 3, .base (mr.extractLsb' 0 3) p.1, p.2)

/-! ### The three formats, in the order of R83: what the prefixes and the bytes up to the opcode decide comes before the length. `n` is how many
bytes the whole list holds, for the length limit of R83. -/

/-- What ends the decoding of an instruction whose bytes up to ModRM stand: prefix `67` in M32 is refused (R69), the bytes from ModRM on
are read, and more than 15 bytes are refused (R83, D18). -/
def finishDecode (m : Mode) (n : Nat) (pre : List PreByte) (bs : List Byte) (instr : BitVec 3 → RmForm → Instr) : Decoded :=
  if m = .m32 ∧ .pfx .addrSize ∈ pre then .refused .addressSize16
  else
    match takeRm bs with
    | none => .refused .truncated
    | some (reg, form, rest) => if ilenMax < n - rest.length then .refused .tooLong else .instr (instr reg form) rest

/-- Format `LEG` from the byte after `0F` on (R61, R82, R90). -/
def decodeLeg (m : Mode) (n : Nat) (pre : List PreByte) (bs : List Byte) : Decoded :=
  match bs with
  | b1 :: b2 :: tl =>
    if b1 = 0x38 ∧ b2 = 0x3B then
      if .pfx .opSize ∉ pre then .refused .noMandatoryPrefix
      else if .lock ∈ pre then .undefined .lockPrefix
      else if pre.any PreByte.isRep then .refused .repPrefixOnLegacy
      else
        match legacyPre pre with
        | none => .refused .misplacedRex
        | some (ps, none) => finishDecode m n pre tl fun reg form => .pminudSse128 ⟨ps, none, reg.setWidth 4, ⟨false, false, form⟩⟩
        | some (ps, some (w, r, x, b)) =>
          finishDecode m n pre tl fun reg form => .pminudSse128 ⟨ps, some w, BitVec.ofBool r ++ reg, ⟨x, b, form⟩⟩
    else .refused .notInScope
  | _ => .refused .truncated

/-- The byte `C4` or `62` with `bs` after it: a VEX or EVEX prefix in M64, in M32 only where the next byte's bits 7:6 are 11 (R81); then `66`, `F2`,
`F3` or REX before it raises `#UD` before anything else is read (R83, R90); else `body` goes on. -/
def afterEscape (m : Mode) (pre : List PreByte) (bs : List Byte) (body : Decoded) : Decoded :=
  if m = .m32 ∧ bs = [] then .refused .truncated
  else if m = .m32 ∧ (bs.headD 0).extractLsb' 6 2 ≠ 3 then .refused .notInScope
  else if pre.any PreByte.badBeforeVex then .undefined .badPrefixBeforeVex
  else body

/-- The VEX row that `L` selects (R74, R82). -/
def vexRow (l : Bool) : VexOperands → Instr :=
  if l then .vpminudVex256 else .vpminudVex128

/-- Format `VEX3` from the byte after `C4` on (R62, R81, R82, R90). -/
def decodeVex (m : Mode) (n : Nat) (pre : List PreByte) (bs : List Byte) : Decoded :=
  match bs with
  | p1 :: p2 :: op :: tl =>
    if p1.extractLsb' 0 5 = 2 ∧ p2.extractLsb' 0 2 = 1 ∧ op = 0x3B then
      if .lock ∈ pre then .undefined .lockPrefix
      else if m = .m32 ∧ ¬(p1.getLsbD 5 = true ∧ p2.getLsbD 6 = true) then .refused .extensionBitsInM32
      else
        finishDecode m n pre tl fun reg form => vexRow (p2.getLsbD 2)
          ⟨plainPfx pre, p2.getLsbD 7, BitVec.ofBool (!p1.getLsbD 7) ++ reg, ~~~(p2.extractLsb' 3 4),
            ⟨!p1.getLsbD 6, !p1.getLsbD 5, form⟩⟩
    else .refused .notInScope
  | _ => .refused .truncated

/-- The EVEX row that `W` and `L'L` select (R74, R75, R82); `none` for `L'L = 11`. -/
def evexRow (w : Bool) (ll : BitVec 2) : Option (EvexOperands → Instr) :=
  if ll = 0 then some (if w then .vpminuqEvex128 else .vpminudEvex128)
  else if ll = 1 then some (if w then .vpminuqEvex256 else .vpminudEvex256)
  else if ll = 2 then some (if w then .vpminuqEvex512 else .vpminudEvex512)
  else none

/-- The combinations that R82 excludes and R90 reserves, from P2 and the bytes from ModRM on: `z = 1, aaa = 000`, and `b = 1, mod = 11`. -/
def reservedP2 (p2 : Byte) (bs : List Byte) : Bool :=
  (p2.getLsbD 7 && p2.extractLsb' 0 3 == 0) || (p2.getLsbD 4 && (bs.headD 0).extractLsb' 6 2 == 3)

/-- Format `EVEX` from the byte after `62` on (R63, R81, R82, R90). Where an encoding is `#UD` by R90 and has in M32 an extension bit stored as 0
(R81, D25: refuse), it is `#UD`: the spec does not order the two (DESIGN CHOICE, safe, log 16). -/
def decodeEvex (m : Mode) (n : Nat) (pre : List PreByte) (bs : List Byte) : Decoded :=
  match bs with
  | p0 :: p1 :: p2 :: op :: tl =>
    if p0.extractLsb' 0 2 = 2 ∧ p1.extractLsb' 0 2 = 1 ∧ op = 0x3B then
      if .lock ∈ pre then .undefined .lockPrefix
      else if p0.extractLsb' 2 2 ≠ 0 ∨ p1.getLsbD 2 = false then .undefined .evexReservedBits
      else
        match evexRow (p1.getLsbD 7) (p2.extractLsb' 5 2) with
        | none => .undefined .evexLength11
        | some row =>
          if reservedP2 p2 tl then .undefined .evexReservedCombination
          else if m = .m32 ∧ ¬(p0.getLsbD 5 = true ∧ p0.getLsbD 4 = true ∧ p1.getLsbD 6 = true ∧ p2.getLsbD 3 = true) then
            .refused .extensionBitsInM32
          else
            finishDecode m n pre tl fun reg form => row
              ⟨plainPfx pre, BitVec.ofBool (!p0.getLsbD 4) ++ BitVec.ofBool (!p0.getLsbD 7) ++ reg,
                BitVec.ofBool (!p2.getLsbD 3) ++ ~~~(p1.extractLsb' 3 4), p2.getLsbD 7, p2.getLsbD 4, p2.extractLsb' 0 3,
                ⟨!p0.getLsbD 6, !p0.getLsbD 5, form⟩⟩
    else .refused .notInScope
  | _ => .refused .truncated

/-- Decoding the bytes at the program counter (R83, R90). -/
def decode (m : Mode) (bs : List Byte) : Decoded :=
  match (scanPre m bs).2 with
  | [] => .refused .truncated
  | c :: tl =>
    if c = 0x0F then decodeLeg m bs.length (scanPre m bs).1 tl
    else if c = 0xC4 then afterEscape m (scanPre m bs).1 tl (decodeVex m bs.length (scanPre m bs).1 tl)
    else if c = 0x62 then afterEscape m (scanPre m bs).1 tl (decodeEvex m bs.length (scanPre m bs).1 tl)
    else .refused .notInScope

/-! ### The encoder -/

def Pfx.byte : Pfx → Byte
  | .seg .es => 0x26
  | .seg .cs => 0x2E
  | .seg .ss => 0x36
  | .seg .ds => 0x3E
  | .seg .fs => 0x64
  | .seg .gs => 0x65
  | .opSize => 0x66
  | .addrSize => 0x67

/-- Little-endian bytes of a 32-bit displacement (R66). -/
def le32 (d : BitVec 32) : List Byte :=
  [d.extractLsb' 0 8, d.extractLsb' 8 8, d.extractLsb' 16 8, d.extractLsb' 24 8]

/-- The value of ModRM.mod that announces this displacement after a base (R66). -/
def Disp.mod : Disp → BitVec 2
  | .none => 0
  | .d8 _ => 1
  | .d32 _ => 2

def Disp.bytes : Disp → List Byte
  | .none => []
  | .d8 v => [v]
  | .d32 v => le32 v

/-- The bytes from ModRM on (R64 to R66). -/
def encodeRm (reg : BitVec 3) : RmForm → List Byte
  | .reg n => [(3 : BitVec 2) ++ reg ++ n]
  | .base r disp => (disp.mod ++ reg ++ r) :: disp.bytes
  | .disp32 d => ((0 : BitVec 2) ++ reg ++ (5 : BitVec 3)) :: le32 d
  | .sib sc ix b disp => (disp.mod ++ reg ++ (4 : BitVec 3)) :: (sc ++ ix ++ b) :: disp.bytes
  | .sibNoBase sc ix d => ((0 : BitVec 2) ++ reg ++ (4 : BitVec 3)) :: (sc ++ ix ++ (5 : BitVec 3)) :: le32 d

/-- The REX byte `0100WRXB` (R61). -/
def rexByte (w r x b : Bool) : Byte :=
  (4 : BitVec 4) ++ BitVec.ofBool w ++ BitVec.ofBool r ++ BitVec.ofBool x ++ BitVec.ofBool b

/-- Format `LEG` (R61). -/
def encodeLeg (o : LegOperands) : List Byte :=
  o.pfx.map Pfx.byte
    ++ (match o.rexW with
        | none => []
        | some w => [rexByte w (o.d.getLsbD 3) o.rm.x o.rm.b])
    ++ [0x0F, 0x38, 0x3B] ++ encodeRm (o.d.extractLsb' 0 3) o.rm.form

/-- Format `VEX3` (R62). -/
def encodeVex (l : Bool) (o : VexOperands) : List Byte :=
  o.pfx.map Pfx.byte
    ++ [0xC4,
        BitVec.ofBool (!o.d.getLsbD 3) ++ BitVec.ofBool (!o.rm.x) ++ BitVec.ofBool (!o.rm.b) ++ (2 : BitVec 5),
        BitVec.ofBool o.w ++ ~~~o.s1 ++ BitVec.ofBool l ++ (1 : BitVec 2),
        0x3B]
    ++ encodeRm (o.d.extractLsb' 0 3) o.rm.form

/-- Format `EVEX` (R63). -/
def encodeEvex (w : Bool) (ll : BitVec 2) (o : EvexOperands) : List Byte :=
  o.pfx.map Pfx.byte
    ++ [0x62,
        BitVec.ofBool (!o.d.getLsbD 3) ++ BitVec.ofBool (!o.rm.x) ++ BitVec.ofBool (!o.rm.b)
          ++ BitVec.ofBool (!o.d.getLsbD 4) ++ (2 : BitVec 4),
        BitVec.ofBool w ++ ~~~(o.s1.extractLsb' 0 4) ++ (5 : BitVec 3),
        BitVec.ofBool o.z ++ ll ++ BitVec.ofBool o.bc ++ BitVec.ofBool (!o.s1.getLsbD 4) ++ o.aaa,
        0x3B]
    ++ encodeRm (o.d.extractLsb' 0 3) o.rm.form

/-- The bytes of an instruction, in address order. -/
def encode : Instr → List Byte
  | .pminudSse128 o => encodeLeg o
  | .vpminudVex128 o => encodeVex false o
  | .vpminudVex256 o => encodeVex true o
  | .vpminudEvex128 o => encodeEvex false 0 o
  | .vpminudEvex256 o => encodeEvex false 1 o
  | .vpminudEvex512 o => encodeEvex false 2 o
  | .vpminuqEvex128 o => encodeEvex true 0 o
  | .vpminuqEvex256 o => encodeEvex true 1 o
  | .vpminuqEvex512 o => encodeEvex true 2 o

/-! ### Lengths (R83: `ilen` is the number of bytes consumed, prefixes included) -/

def Disp.len : Disp → Nat
  | .none => 0
  | .d8 _ => 1
  | .d32 _ => 4

/-- ModRM, SIB and displacement bytes (R66). -/
def RmForm.len : RmForm → Nat
  | .reg _ => 1
  | .base _ disp => 1 + disp.len
  | .disp32 _ => 5
  | .sib _ _ _ disp => 2 + disp.len
  | .sibNoBase _ _ _ => 6

def LegOperands.len (o : LegOperands) : Nat :=
  o.pfx.length + (if o.rexW.isSome then 1 else 0) + 3 + o.rm.form.len

def VexOperands.len (o : VexOperands) : Nat :=
  o.pfx.length + 4 + o.rm.form.len

def EvexOperands.len (o : EvexOperands) : Nat :=
  o.pfx.length + 5 + o.rm.form.len

/-- `ilen` (R16, R83). -/
def Instr.len : Instr → Nat
  | .pminudSse128 o => o.len
  | .vpminudVex128 o => o.len
  | .vpminudVex256 o => o.len
  | .vpminudEvex128 o => o.len
  | .vpminudEvex256 o => o.len
  | .vpminudEvex512 o => o.len
  | .vpminuqEvex128 o => o.len
  | .vpminuqEvex256 o => o.len
  | .vpminuqEvex512 o => o.len

/-! ### The host's numbering of a table row's bits (log 19) -/

/-- `n` bytes of the number `w`, the least significant first. -/
def bytesLsbFirst (w : Nat) : Nat → List Byte
  | 0 => []
  | n + 1 => BitVec.ofNat 8 w :: bytesLsbFirst (w / 256) n

/-- A row's core bytes with what the row's mandatory_prefix adds before them (`66` for format `LEG`), padded with zero bytes. -/
def corePadded (core : List Byte) : List Byte :=
  ((if core.take 1 = [0x0F] then [0x66] else []) ++ core ++ List.replicate ilenMax 0).take ilenMax

def decodesInM64 (bs : List Byte) : Bool :=
  match decode .m64 bs with
  | .instr _ _ => true
  | _ => false

/-- The bytes of an instruction whose table bits are `w`: the table reads the core bytes as one number, the first byte the most significant
(opcode_table.json match_mask_convention); the other order is taken only where that one encodes no form. -/
def tableBytes (nbits w : Nat) : List Byte :=
  let low := bytesLsbFirst w (nbits / 8)
  if decodesInM64 (corePadded low.reverse) then corePadded low.reverse
  else if decodesInM64 (corePadded low) then corePadded low
  else corePadded low.reverse

/-- The instruction the decoder reads from the instruction whose bits are `w`, numbered as spec/opcode_table.json numbers them. -/
def decodeTableWord (nbits w : Nat) : Option Instr :=
  match decode .m64 (tableBytes nbits w) with
  | .instr i _ => some i
  | _ => none

end Sys2Proof
end

