-- ==== Sys2Proof/Machine/State.lean ====
section
/-! DEFINITION. The state of the machine as plain data, what stops it, and the state a run starts from. -/

namespace Sys2Proof.Machine

/-- Memory (20_memory.md R40): the bytes that are not 0, addresses strictly rising; an unlisted address reads 0 (log 7). -/
abbrev Memory := List Host.Cell

/-- Everything the spec gives the machine (10_state.md R37), with RFLAGS, MXCSR and CR2, which it names and no form writes (R33, R143; log 3). -/
structure State where
  /-- the parameters of the run: MODE, MAXVL, FEAT, ENV, SegBase, Access, FaultSuppression; no form writes them (R37; log 2) -/
  cfg : Platform
  /-- the vector registers `Z[n]` (R20, R21) -/
  z : Vector Vec 32
  /-- the opmask registers `K[n]` (R23) -/
  k : Vector Mask 8
  /-- the general registers `x[i]` (R30) -/
  x : Vector Addr 16
  /-- the instruction pointer (R31) -/
  pc : Addr
  /-- RFLAGS (R33) -/
  rflags : BitVec 64
  /-- MXCSR (R33) -/
  mxcsr : BitVec 32
  /-- CR2 (60_exceptions.md R143) -/
  cr2 : Addr
  mem : Memory
deriving DecidableEq, Repr

/-- The exceptions a form can raise, with the information each records (60_exceptions.md R143). -/
inductive Exc
  | ud
  | nm
  | ss
  | gp
  | pf (code : BitVec 32) (addr : Addr)
deriving DecidableEq, Repr

/-- `Fault(kind, pc, info)` (60_exceptions.md R150): the run ends at the exception, in the state before the instruction. Each is safe: the
model stops where the chip would deliver the exception to a handler (log 12). -/
inductive Fault
  /-- invalid opcode, vector 6: raised by the decoder (30_encoding.md R90), by a clear feature flag (R144) and by the state and encoding
  conditions of R141 and R142; safe -/
  | ud (pc : Addr)
  /-- device not available, vector 7: raised by every form when `ENV.ts = 1` (R145); safe -/
  | nm (pc : Addr)
  /-- stack-segment fault, vector 12, error code 0: raised by a memory operand through SS that segmentation or the canonical check rejects (R146); safe -/
  | ss (pc : Addr)
  /-- general protection, vector 13, error code 0: raised by a misaligned legacy operand (20_memory.md R44) and by a memory operand through
  another segment that segmentation or the canonical check rejects (R146); safe -/
  | gp (pc : Addr)
  /-- page fault, vector 14: raised by a memory operand on a page that does not allow the read (R147); safe -/
  | pf (pc : Addr) (code : BitVec 32) (addr : Addr)
deriving DecidableEq, Repr

/-- Why the model says nothing about a step; every one is safe. -/
inductive Refusal
  /-- an instruction that has no meaning yet; raised by exec's arm only; safe -/
  | notModelled (mnemonic : String)
  /-- bytes the decoder refuses by name (30_encoding.md R83, R90); raised by step; safe -/
  | encoding (why : DecodeRefusal)
  /-- an instruction byte outside `[0, 2^32)` in M32 or the lower canonical half in M64 (10_state.md R32, D19); raised by step; safe -/
  | pcOutOfRange
  /-- a memory operand in a device, uncacheable or write-combining window (20_memory.md R50, D28); raised by the memory forms; safe -/
  | deviceOperand
deriving DecidableEq, Repr

/-- What keeps a form from completing: an exception it raises, or a refusal. -/
inductive Stop
  | exc (e : Exc)
  | refuse (r : Refusal)
deriving DecidableEq, Repr

abbrev Outcome := Host.Outcome State Fault Refusal

/-- The parameters a run from `State.reset` has: those of 95_test_vectors.md "Conventions" (log 2). -/
def resetPlatform : Platform where
  mode := .m64
  maxvl := .v512
  feat := ⟨true, true, true, true, true⟩
  env := ⟨false, false, true, true, 0xE7, 3⟩
  segBase := ⟨0, 0, 0, 0, 0, 0⟩
  regions := []
  accessEntries := []
  faultPick := 0
  la57 := false
  faultSuppression := false

/-- The state a run starts from. The spec gives no reset value (10_state.md R38, 70_reset_and_hazards.md R170): every value here is the
model's (log 1, 2, 3, 7), and no statement rests on one. -/
def State.reset : State where
  cfg := resetPlatform
  z := Vector.replicate 32 0
  k := Vector.replicate 8 0
  x := Vector.replicate 16 0
  pc := 0x400000
  rflags := 0x2
  mxcsr := 0x1F80
  cr2 := 0
  mem := []

end Sys2Proof.Machine
end

