-- ==== Sys2Proof/Machine/Environment.lean ====
section
/-! DEFINITION. What the parameters of a run allow: feature flags, enable bits, segment bases, canonical addresses and `Access`. -/

namespace Sys2Proof.Machine

/-! ### Where the parameters come from (10_state.md R34, R35) -/

/-- `FEAT` from what CPUID returns: ECX of leaf 01H, EBX of leaf 07H subleaf 0 (R34). -/
def featOfCpuid (ecx1 ebx7 : BitVec 32) : Feat where
  sse41 := ecx1.getLsbD 19
  avx := ecx1.getLsbD 28
  avx2 := ebx7.getLsbD 5
  avx512f := ebx7.getLsbD 16
  avx512vl := ebx7.getLsbD 31

/-- `ENV` from CR0, CR4, XCR0 and the privilege level (R35). -/
def envOfRegisters (cr0 cr4 xcr0 : BitVec 64) (cpl : BitVec 2) : Env where
  em := cr0.getLsbD 2
  ts := cr0.getLsbD 3
  osfxsr := cr4.getLsbD 9
  osxsave := cr4.getLsbD 18
  xcr0 := xcr0
  cpl := cpl

/-- The tie between `MAXVL` and the feature flags (00_scope.md R7). -/
abbrev platformWf (c : Platform) : Prop :=
  (c.feat.avx512f = true → c.maxvl = .v512)
    ∧ ((c.feat.avx = true ∨ c.feat.avx2 = true) → c.maxvl ≠ .v128)
    ∧ (c.feat.avx512f = false → c.feat.avx = false → c.feat.avx2 = false → c.maxvl = .v128)

/-- `NVEC_MAX`: how many vector registers the processor has in this mode (10_state.md R20). -/
def nvecMax (c : Platform) : Nat :=
  match c.mode with
  | .m64 => if c.feat.avx512f then 32 else 16
  | .m32 => 8

/-! ### The `#UD` conditions outside the encoding (60_exceptions.md R141, R142, R144; 70_reset_and_hazards.md R172) -/

/-- XCR0 bits 2:1 are 11: SSE and AVX state enabled. -/
def avxStateEnabled (e : Env) : Bool := e.xcr0.extractLsb' 1 2 == 3

/-- XCR0 bits 7:5 are 111: opmask, ZMM_Hi256 and Hi16_ZMM state enabled. -/
def avx512StateEnabled (e : Env) : Bool := e.xcr0.extractLsb' 5 3 == 7

/-- The feature flags of an EVEX form of vector length `vl` (R144). -/
def evexPresent (f : Feat) (vl : Nat) : Bool := f.avx512f && (vl == 512 || f.avx512vl)

/-- `#UD` of the legacy form (R141, R144). -/
def legUd (c : Platform) : Bool := !c.feat.sse41 || c.env.em || !c.env.osfxsr

/-- `#UD` of a VEX form of vector length `vl` whose feature flag is `present` (R141, R144; 10_state.md R27 for the width). -/
def vexUd (c : Platform) (present : Bool) (vl : Nat) : Bool :=
  !present || decide (c.maxvl.bits < vl) || !c.env.osxsave || !avxStateEnabled c.env

/-- `#UD` of an EVEX form of vector length `vl` (R142, R144; 10_state.md R27 for the width). -/
def evexUd (c : Platform) (vl : Nat) : Bool :=
  !evexPresent c.feat vl || decide (c.maxvl.bits < vl) || !c.env.osxsave || !avxStateEnabled c.env || !avx512StateEnabled c.env

/-! ### Segments and linear addresses -/

/-- `SegBase(seg)`; in M64 the bases of ES, CS, SS and DS are 0 (30_encoding.md R67). -/
def segBaseOf (c : Platform) : Seg → Addr
  | .es => if c.mode = .m64 then 0 else c.segBase.es
  | .cs => if c.mode = .m64 then 0 else c.segBase.cs
  | .ss => if c.mode = .m64 then 0 else c.segBase.ss
  | .ds => if c.mode = .m64 then 0 else c.segBase.ds
  | .fs => c.segBase.fs
  | .gs => c.segBase.gs

/-- Addresses of `AW` bits: 64 in M64, 32 in M32 (00_scope.md R10). -/
def wrapLinear (m : Mode) (a : Addr) : Addr :=
  match m with
  | .m64 => a
  | .m32 => (a.setWidth 32).setWidth 64

/-- The address of byte `k` of an operand at `ea`, modulo the address width (20_memory.md R43; log 6). -/
def byteAddr (m : Mode) (ea : Addr) (k : Nat) : Addr := wrapLinear m (ea + BitVec.ofNat 64 k)

/-- Canonical form: in M64 bits 63:47 all equal, or bits 63:56 with 57-bit linear addresses; no such condition in M32 (20_memory.md R51). -/
def canonical (c : Platform) (a : Addr) : Bool :=
  match c.mode with
  | .m32 => true
  | .m64 =>
    if c.la57 then a.extractLsb' 56 8 == 0 || a.extractLsb' 56 8 == BitVec.allOnes 8
    else a.extractLsb' 47 17 == 0 || a.extractLsb' 47 17 == BitVec.allOnes 17

/-- Where instruction bytes may stand: below 2^32 in M32, in the lower canonical half in M64 (10_state.md R32, D19). -/
def fetchLimit (c : Platform) : Nat :=
  match c.mode with
  | .m32 => 2 ^ 32
  | .m64 => if c.la57 then 2 ^ 56 else 2 ^ 47

/-! ### `Access` (20_memory.md R52; log 5) -/

def inRegion (r : Region) (a : Addr) : Bool := decide (r.base ≤ a.toNat) && decide (a.toNat < r.base + r.size)

/-- Segmentation rejects this byte (R52). -/
def segRegionAt (c : Platform) (a : Addr) : Bool :=
  c.regions.any fun r => r.kind == .segmentation && inRegion r a

/-- Segmentation or the canonical check rejects this byte (R51, R52). -/
def segFaultAt (c : Platform) (a : Addr) : Bool := !canonical c a || segRegionAt c a

/-- The page-fault code of a data read: P, RSVD and PK from the page, W/R = 0, I/D = 0, U/S = 1 exactly at CPL 3 (60_exceptions.md R143, R147).
R143 names bits 5 to 0 only; that bits 31 to 6 are 0 is the model's choice (DESIGN CHOICE, unsafe, log 24). -/
def pfCode (e : Env) (present rsvd pk : Bool) : BitVec 32 :=
  (BitVec.ofBool pk ++ BitVec.ofBool false ++ BitVec.ofBool rsvd ++ BitVec.ofBool (e.cpl == 3) ++ BitVec.ofBool false
    ++ BitVec.ofBool present).setWidth 32

/-- The fault code of the page fault that reading this byte raises, if it raises one. -/
def pageFaultAt (c : Platform) (a : Addr) : Option (BitVec 32) :=
  c.regions.findSome? fun r =>
    match r.kind with
    | .page p rsvd pk => if inRegion r a then some (pfCode c.env p rsvd pk) else none
    | _ => none

/-- The byte is in a device, uncacheable or write-combining window (R50). -/
def deviceAt (c : Platform) (a : Addr) : Bool :=
  c.regions.any fun r => r.kind == .device && inRegion r a

/-- `#SS(0)` replaces `#GP(0)` when the operand's segment is SS (60_exceptions.md R146). -/
def segExc (seg : Seg) : Exc := if seg = .ss then .ss else .gp

/-- The needed bytes of an operand that page-fault, lowest first, each with its fault code and address (R147). -/
def pageFaults (c : Platform) (ea : Addr) (n : Nat) (needed : Nat → Bool) : List (BitVec 32 × Addr) :=
  (List.range n).filterMap fun k =>
    if needed k then (pageFaultAt c (byteAddr c.mode ea k)).map fun code => (code, byteAddr c.mode ea k) else none

/-- `Access(addr, n)`: `Ok`, or the fault it reports (R52). -/
inductive Access
  | ok
  | segmentation
  | page (code : BitVec 32) (addr : Addr)
deriving DecidableEq, Repr

/-- The environment's own value of `Access` for the operand of `n` bytes at `ea`, if it gives one. -/
def accessEntry (c : Platform) (ea : Addr) (n : Nat) : Option AccessResult :=
  (c.accessEntries.find? fun e => e.addr == ea && e.size == n).map AccessEntry.result

/-- Which of several page faults a read reports (R147, 93_implementation_defined.md U14). -/
def accessPick (c : Platform) (ea : Addr) (n : Nat) : Nat :=
  match accessEntry c ea n with
  | some (.bytes pick) => pick
  | _ => c.faultPick

/-- `Access` from its bytes: segmentation before paging (60_exceptions.md R148), of several page faults the picked one. -/
def accessByBytes (c : Platform) (ea : Addr) (n : Nat) (needed : Nat → Bool) : Access :=
  if (List.range n).any fun k => needed k && segRegionAt c (byteAddr c.mode ea k) then .segmentation
  else
    match (pageFaults c ea n needed)[accessPick c ea n % (pageFaults c ea n needed).length]? with
    | some (code, a) => .page code a
    | none => .ok

/-- The value an entry gives the operand read whole; an operand of which only some bytes are needed (20_memory.md R49) has no such value. -/
def accessWhole (c : Platform) (ea : Addr) (n : Nat) (needed : Nat → Bool) : Option Access :=
  if (List.range n).all needed then
    match accessEntry c ea n with
    | some .ok => some .ok
    | some .segmentation => some .segmentation
    | some (.page p rsvd pk byte) => some (.page (pfCode c.env p rsvd pk) (byteAddr c.mode ea (byte % n)))
    | some (.bytes _) => none
    | none => none
  else none

/-- `Access` for a read of `n` bytes at `ea` of which those with `needed` must be accessible (R49, R52). -/
def access (c : Platform) (ea : Addr) (n : Nat) (needed : Nat → Bool) : Access :=
  (accessWhole c ea n needed).getD (accessByBytes c ea n needed)

/-- What stops such a read: steps 4 and 5 of R148, the canonical check (20_memory.md R51, of each needed byte, log 22) and what `Access` answers;
then the refusal of device memory wherever the operand touches it (log 15). -/
def accessStop (c : Platform) (seg : Seg) (ea : Addr) (n : Nat) (needed : Nat → Bool) : Option Stop :=
  if (List.range n).any fun k => needed k && !canonical c (byteAddr c.mode ea k) then some (.exc (segExc seg))
  else
    match access c ea n needed with
    | .segmentation => some (.exc (segExc seg))
    | .page code a => some (.exc (.pf code a))
    | .ok => if (List.range n).any fun k => deviceAt c (byteAddr c.mode ea k) then some (.refuse .deviceOperand) else none

end Sys2Proof.Machine
end

