-- ==== Sys2Proof/Machine/Flags.lean ====
section
/-! DEFINITION. The flags. No form computes one: RFLAGS and MXCSR (with its six sticky exception flags) are neither read nor written
(10_state.md R33, 60_exceptions.md R140). -/

namespace Sys2Proof.Machine

/-- RFLAGS after a form completes (R33). -/
def rflagsAfter (s : State) : BitVec 64 := s.rflags

/-- MXCSR after a form completes (R33, R140). -/
def mxcsrAfter (s : State) : BitVec 32 := s.mxcsr

end Sys2Proof.Machine
end

