-- ==== Sys2Proof/Machine/Lanes.lean ====
section
/-! DEFINITION. Lanes of a vector value and the lane minimum (00_scope.md R11 to R15). -/

namespace Sys2Proof.Machine

/-- `lane_w(v, j) = v[j*w + w - 1 : j*w]` (R15). -/
def lane (w : Nat) (v : Vec) (j : Nat) : BitVec w := v.extractLsb' (j * w) w

/-- `pack_w(e_0, ..., e_{n-1})`: lane `j` is `e_j`, every bit from `n*w` on is 0 (R15). -/
def pack (w : Nat) (e : Nat → BitVec w) : Nat → Vec
  | 0 => 0
  | n + 1 => pack w e n ||| ((e n).setWidth 512 <<< (n * w))

/-- `bcast_w(e, n)`: `n` copies of one element (R15). -/
def bcast (w : Nat) (e : BitVec w) (n : Nat) : Vec := pack w (fun _ => e) n

/-- `umin_w(a, b)`: the smaller as unsigned numbers, the second where they are equal (R13, R14, D30). -/
def umin {w : Nat} (a b : BitVec w) : BitVec w := if a.ult b then a else b

/-- The first `n` lanes of the lane-wise minimum, every bit above them 0 (R100, R110, R111). -/
def minLanes (w n : Nat) (a b : Vec) : Vec := pack w (fun j => umin (lane w a j) (lane w b j)) n

/-- The loop of R120: an active lane receives the minimum, an inactive one keeps the old destination `d` (merging) or becomes 0 (zeroing). -/
def maskedMinLanes (w n : Nat) (active : Nat → Bool) (zeroing : Bool) (d a b : Vec) : Vec :=
  pack w (fun j => if active j then umin (lane w a j) (lane w b j) else if zeroing then 0 else lane w d j) n

end Sys2Proof.Machine
end

