-- ==== Sys2Proof/Machine/Ops.lean ====
section
/-! DEFINITION. Named operations over registers and memory, taking an exception, and the one shape every form has. -/

namespace Sys2Proof.Machine

/-! ### Registers -/

/-- `Z[n]` (00_scope.md R16). -/
def State.vec (s : State) (n : BitVec 5) : Vec := s.z[n.toNat]'n.isLt

/-- `K[n]` (R16). -/
def State.opmask (s : State) (n : BitVec 3) : Mask := s.k[n.toNat]'n.isLt

/-- `x[i]` (R16). -/
def State.gpr (s : State) (i : BitVec 4) : Addr := s.x[i.toNat]'i.isLt

/-- A form completes: `Z[d]` holds `v`, `pc` moves past the instruction's `len` bytes (10_state.md R25, R32). -/
def State.complete (s : State) (d : BitVec 5) (v : Vec) (len : Nat) : State :=
  { s with
    z := s.z.set d.toNat v d.isLt
    pc := s.pc + BitVec.ofNat 64 len
    rflags := rflagsAfter s
    mxcsr := mxcsrAfter s }

/-- The legacy-128 write: bits 127:0 from `r`, bits MAXVL-1:128 of `old` kept (10_state.md R22). -/
def keepUpper128 (old r : Vec) : Vec := old.extractLsb' 128 384 ++ r.extractLsb' 0 128

/-! ### Memory operands -/

/-- `MemRead(addr, n)`: little-endian, the byte at `addr + k` in bits `8k+7 : 8k` (20_memory.md R43). -/
def State.memRead (s : State) (ea : Addr) (n : Nat) : Vec :=
  pack 8 (fun k => s.mem.read (byteAddr s.cfg.mode ea k).toNat) n

/-! ### Exceptions -/

/-- Taking an exception, the one operation: the run ends as `Fault(kind, pc, info)` with `pc` at the instruction, nothing written
(60_exceptions.md R149, R150, D8). Delivery to a handler and the return from one are described by no source and out of scope
(00_scope.md R6, R152), so there is no operation for a return. -/
def raise (e : Exc) (s : State) : Outcome :=
  match e with
  | .ud => .fault (.ud s.pc)
  | .nm => .fault (.nm s.pc)
  | .ss => .fault (.ss s.pc)
  | .gp => .fault (.gp s.pc)
  | .pf code addr => .fault (.pf s.pc code addr)

def stopOutcome (st : Stop) (s : State) : Outcome :=
  match st with
  | .exc e => raise e s
  | .refuse r => .refused r

/-- The vector number (60_exceptions.md R143). -/
def Fault.vector : Fault → Nat
  | .ud _ => 6
  | .nm _ => 7
  | .ss _ => 12
  | .gp _ => 13
  | .pf _ _ _ => 14

/-- The error code, where the exception has one (R143). -/
def Fault.errorCode : Fault → Option (BitVec 32)
  | .ud _ => none
  | .nm _ => none
  | .ss _ => some 0
  | .gp _ => some 0
  | .pf _ code _ => some code

/-- What CR2 would receive on delivery (R143); delivery itself is not modelled, so `State.cr2` keeps its value (R150). -/
def Fault.cr2 : Fault → Option Addr
  | .pf _ _ addr => some addr
  | _ => none

/-- The saved instruction pointer: the faulting instruction's address (R143, R149). -/
def Fault.savedPc : Fault → Addr
  | .ud pc => pc
  | .nm pc => pc
  | .ss pc => pc
  | .gp pc => pc
  | .pf pc _ _ => pc

/-! ### The order of checks -/

/-- The shape of every form (60_exceptions.md R148): `#UD`, then `#NM`, then what stops the operand read, and only then the write of `v` to
`Z[d]` and the advance of `pc`. -/
def runForm (s : State) (ud : Bool) (stop : Option Stop) (d : BitVec 5) (v : Vec) (len : Nat) : Outcome :=
  if ud then raise .ud s
  else if s.cfg.env.ts then raise .nm s
  else
    match stop with
    | some st => stopOutcome st s
    | none => .next (s.complete d v len)

end Sys2Proof.Machine
end

