-- ==== Sys2Proof/Machine/Operands.lean ====
section
/-! DEFINITION. Operands: register numbers, effective addresses, and the second source of each format (30_encoding.md R65 to R78). -/

namespace Sys2Proof.Machine

/-! ### Register numbers (R73) -/

/-- A register number of four bits names one of `Z[0..15]`. -/
def vecNum4 (n : BitVec 4) : BitVec 5 := n.setWidth 5

/-- `B : rm`, the register operand of formats `LEG` and `VEX3`. -/
def rmNum4 (rm : Rm) (n : BitVec 3) : BitVec 5 := vecNum4 (BitVec.ofBool rm.b ++ n)

/-- `X : B : rm`, the register operand of format `EVEX`. -/
def rmNum5 (rm : Rm) (n : BitVec 3) : BitVec 5 := BitVec.ofBool rm.x ++ BitVec.ofBool rm.b ++ n

/-- `B : base`. -/
def baseNum (rm : Rm) (r : BitVec 3) : BitVec 4 := BitVec.ofBool rm.b ++ r

/-- `X : index`. -/
def indexNum (rm : Rm) (ix : BitVec 3) : BitVec 4 := BitVec.ofBool rm.x ++ ix

/-- The destination register `d` of a form (R70 to R73). -/
def destOf : Instr → BitVec 5
  | .pminudSse128 o => vecNum4 o.d
  | .vpminudVex128 o => vecNum4 o.d
  | .vpminudVex256 o => vecNum4 o.d
  | .vpminudEvex128 o => o.d
  | .vpminudEvex256 o => o.d
  | .vpminudEvex512 o => o.d
  | .vpminuqEvex128 o => o.d
  | .vpminuqEvex256 o => o.d
  | .vpminuqEvex512 o => o.d

/-- `ModRM.mod ≠ 11`: the r/m operand is memory (R64). -/
def RmForm.isMem : RmForm → Bool
  | .reg _ => false
  | _ => true

/-! ### Effective address (R66 to R68, R76) -/

/-- The displacement's value: `disp8` times `n` (compressed displacement), `disp32` never scaled (R66, R76). -/
def dispVal (n : Nat) : Disp → Addr
  | .none => 0
  | .d8 v => v.signExtend 64 * BitVec.ofNat 64 n
  | .d32 v => v.signExtend 64

/-- `x[X:index] * scale`, 0 when `X:index` is 4 (R65, R67). -/
def indexVal (s : State) (rm : Rm) (scale : BitVec 2) (ix : BitVec 3) : Addr :=
  if indexNum rm ix = 4 then 0 else s.gpr (indexNum rm ix) <<< scale.toNat

/-- `base_val + index_val + disp_val` before it is cut to the address size. -/
def eaSum (s : State) (rm : Rm) (len n : Nat) : Addr :=
  match rm.form with
  | .reg _ => 0
  | .base r disp => s.gpr (baseNum rm r) + dispVal n disp
  | .disp32 d =>
    (match s.cfg.mode with
      | .m64 => s.pc + BitVec.ofNat 64 len
      | .m32 => 0) + d.signExtend 64
  | .sib scale ix r disp => s.gpr (baseNum rm r) + indexVal s rm scale ix + dispVal n disp
  | .sibNoBase scale ix d => indexVal s rm scale ix + d.signExtend 64

/-- `EAoff`: modulo 2^64 in M64; modulo 2^32 in M64 with prefix `67` and in M32 (R67, R68; cutting the sum equals summing the
cut registers, log 8). -/
def eaOff (s : State) (pfx : List Pfx) (rm : Rm) (len n : Nat) : Addr :=
  if s.cfg.mode = .m32 ∨ .addrSize ∈ pfx then ((eaSum s rm len n).setWidth 32).setWidth 64 else eaSum s rm len n

/-- The last segment override among the prefixes (R67). -/
def segOverride : List Pfx → Option Seg
  | [] => none
  | .seg g :: ps => some ((segOverride ps).getD g)
  | _ :: ps => segOverride ps

/-- The base register of the memory operand, if it has one. -/
def baseOf (rm : Rm) : Option (BitVec 4) :=
  match rm.form with
  | .base r _ => some (baseNum rm r)
  | .sib _ _ r _ => some (baseNum rm r)
  | _ => none

/-- The operand's segment: the last override, else SS when the base register is number 4 or 5, else DS (R67, R68). -/
def operandSeg (pfx : List Pfx) (rm : Rm) : Seg :=
  match segOverride pfx with
  | some g => g
  | none => if baseOf rm = some 4 ∨ baseOf rm = some 5 then .ss else .ds

/-- `EA`, the linear address of the operand (R67, R68): `n` scales `disp8`, `len` is `ilen`. -/
def operandAddr (s : State) (pfx : List Pfx) (rm : Rm) (len n : Nat) : Addr :=
  wrapLinear s.cfg.mode (segBaseOf s.cfg (operandSeg pfx rm) + eaOff s pfx rm len n)

/-! ### Second sources: the value, and what stops reading it -/

/-- The second source of formats `LEG` and `VEX3`: a register, or `n` bytes at `EA` (R70, R71; 20_memory.md R41). -/
def source2 (s : State) (pfx : List Pfx) (rm : Rm) (len n : Nat) : Vec :=
  match rm.form with
  | .reg r => s.vec (rmNum4 rm r)
  | _ => s.memRead (operandAddr s pfx rm len 1) n

/-- PMINUD.SSE128: `#GP(0)` for a memory operand that is not 16-byte aligned comes before the access checks (20_memory.md R44, R148). -/
def legStop (s : State) (o : LegOperands) : Option Stop :=
  if RmForm.isMem o.rm.form then
    if (operandAddr s o.pfx o.rm o.len 1).toNat % 16 ≠ 0 then some (.exc .gp)
    else accessStop s.cfg (operandSeg o.pfx o.rm) (operandAddr s o.pfx o.rm o.len 1) 16 fun _ => true
  else none

/-- The VEX forms have no alignment requirement (20_memory.md R45). -/
def vexStop (s : State) (o : VexOperands) (n : Nat) : Option Stop :=
  if RmForm.isMem o.rm.form then
    accessStop s.cfg (operandSeg o.pfx o.rm) (operandAddr s o.pfx o.rm o.len 1) n fun _ => true
  else none

/-- The lane is active: no writemask, or its mask bit is 1 (R77; 10_state.md R24). -/
def laneActive (s : State) (aaa : BitVec 3) (j : Nat) : Bool := aaa == 0 || (s.opmask aaa).getLsbD j

/-- How many bytes an EVEX memory operand has, which also scales `disp8` (R76; 20_memory.md R41). -/
def evexBytes (w vl : Nat) (bc : Bool) : Nat := if bc then w / 8 else vl / 8

/-- `EA` of an EVEX form. -/
def evexAddr (s : State) (o : EvexOperands) (w vl : Nat) : Addr :=
  operandAddr s o.pfx o.rm o.len (evexBytes w vl o.bc)

/-- The second source of format `EVEX`: a register, the full operand, or one element in every lane (R78; 20_memory.md R41). -/
def evexSource2 (s : State) (o : EvexOperands) (w vl : Nat) : Vec :=
  match o.rm.form with
  | .reg r => s.vec (rmNum5 o.rm r)
  | _ =>
    if o.bc then bcast w (lane w (s.memRead (evexAddr s o w vl) (w / 8)) 0) (vl / w)
    else s.memRead (evexAddr s o w vl) (vl / 8)

/-- Which bytes of an EVEX memory operand must be accessible (20_memory.md R49): all of them, or with `FaultSuppression` those of active
lanes; a broadcast element when some lane is active. -/
def evexNeeded (s : State) (o : EvexOperands) (w vl : Nat) (k : Nat) : Bool :=
  !s.cfg.faultSuppression
    || (if o.bc then (List.range (vl / w)).any (laneActive s o.aaa) else laneActive s o.aaa (k / (w / 8)))

def evexStop (s : State) (o : EvexOperands) (w vl : Nat) : Option Stop :=
  if RmForm.isMem o.rm.form then
    accessStop s.cfg (operandSeg o.pfx o.rm) (evexAddr s o w vl) (evexBytes w vl o.bc) (evexNeeded s o w vl)
  else none

/-- The reserved combinations `z = 1, aaa = 000` and `b = 1` with a register operand (R78, R90; 42_vpminud_vpminuq_evex.md R120). -/
def evexReserved (o : EvexOperands) : Bool := (o.z && o.aaa == 0) || (o.bc && !RmForm.isMem o.rm.form)

end Sys2Proof.Machine
end

