-- ==== Sys2Proof/Machine/Evex.lean ====
section
/-! DEFINITION. VPMINUD and VPMINUQ, the six EVEX forms (42_vpminud_vpminuq_evex.md). -/

namespace Sys2Proof.Machine

/-- `EVEX_UMIN(w, VL)` (R120). -/
def evexMin (w vl : Nat) (o : EvexOperands) (s : State) : Outcome :=
  runForm s (evexUd s.cfg vl || evexReserved o) (evexStop s o w vl) o.d
    (maskedMinLanes w (vl / w) (laneActive s o.aaa) o.z (s.vec o.d) (s.vec o.s1) (evexSource2 s o w vl)) o.len

/-- `VPMINUD xmm1 {k1}{z}, xmm2, xmm3/m128/m32bcst` (R121). -/
def execVpminudEvex128 (o : EvexOperands) (s : State) : Outcome := evexMin 32 128 o s

/-- `VPMINUD ymm1 {k1}{z}, ymm2, ymm3/m256/m32bcst` (R122). -/
def execVpminudEvex256 (o : EvexOperands) (s : State) : Outcome := evexMin 32 256 o s

/-- `VPMINUD zmm1 {k1}{z}, zmm2, zmm3/m512/m32bcst` (R123). -/
def execVpminudEvex512 (o : EvexOperands) (s : State) : Outcome := evexMin 32 512 o s

/-- `VPMINUQ xmm1 {k1}{z}, xmm2, xmm3/m128/m64bcst` (R124). -/
def execVpminuqEvex128 (o : EvexOperands) (s : State) : Outcome := evexMin 64 128 o s

/-- `VPMINUQ ymm1 {k1}{z}, ymm2, ymm3/m256/m64bcst` (R125). -/
def execVpminuqEvex256 (o : EvexOperands) (s : State) : Outcome := evexMin 64 256 o s

/-- `VPMINUQ zmm1 {k1}{z}, zmm2, zmm3/m512/m64bcst` (R126). -/
def execVpminuqEvex512 (o : EvexOperands) (s : State) : Outcome := evexMin 64 512 o s

end Sys2Proof.Machine
end

