-- ==== Sys2Proof/Machine/Legacy.lean ====
section
/-! DEFINITION. PMINUD, the 128-bit legacy SSE form (40_pminud_legacy_sse.md). -/

namespace Sys2Proof.Machine

/-- `PMINUD xmm1, xmm2/m128` (R100): four dword minima of `Z[d]` and the second source; bits MAXVL-1:128 kept. -/
def execPminudSse128 (o : LegOperands) (s : State) : Outcome :=
  runForm s (legUd s.cfg) (legStop s o) (vecNum4 o.d)
    (keepUpper128 (s.vec (vecNum4 o.d)) (minLanes 32 4 (s.vec (vecNum4 o.d)) (source2 s o.pfx o.rm o.len 16))) o.len

end Sys2Proof.Machine
end

