-- ==== Sys2Proof/Machine/Vex.lean ====
section
/-! DEFINITION. VPMINUD, the VEX.128 and VEX.256 forms (41_vpminud_vex.md). -/

namespace Sys2Proof.Machine

/-- The operation both VEX forms share: `vl / 32` dword minima, every bit from `vl` on zeroed (R110, R111). -/
def vexMin (present : Bool) (vl : Nat) (o : VexOperands) (s : State) : Outcome :=
  runForm s (vexUd s.cfg present vl) (vexStop s o (vl / 8)) (vecNum4 o.d)
    (minLanes 32 (vl / 32) (s.vec (vecNum4 o.s1)) (source2 s o.pfx o.rm o.len (vl / 8))) o.len

/-- `VPMINUD xmm1, xmm2, xmm3/m128` (R110); needs AVX. -/
def execVpminudVex128 (o : VexOperands) (s : State) : Outcome := vexMin s.cfg.feat.avx 128 o s

/-- `VPMINUD ymm1, ymm2, ymm3/m256` (R111); needs AVX2. -/
def execVpminudVex256 (o : VexOperands) (s : State) : Outcome := vexMin s.cfg.feat.avx2 256 o s

end Sys2Proof.Machine
end

