-- ==== Sys2Proof/Machine/Dispatch.lean ====
section
/-! DEFINITION. exec: one arm per constructor of Instr, each one direct call of that instruction's meaning. -/

namespace Sys2Proof.Machine

def exec (i : Instr) (s : State) : Host.Outcome State Fault Refusal :=
  match i with
  | .pminudSse128 o => Sys2Proof.Machine.execPminudSse128 o s
  | .vpminudVex128 o => Sys2Proof.Machine.execVpminudVex128 o s
  | .vpminudVex256 o => Sys2Proof.Machine.execVpminudVex256 o s
  | .vpminudEvex128 o => Sys2Proof.Machine.execVpminudEvex128 o s
  | .vpminudEvex256 o => Sys2Proof.Machine.execVpminudEvex256 o s
  | .vpminudEvex512 o => Sys2Proof.Machine.execVpminudEvex512 o s
  | .vpminuqEvex128 o => Sys2Proof.Machine.execVpminuqEvex128 o s
  | .vpminuqEvex256 o => Sys2Proof.Machine.execVpminuqEvex256 o s
  | .vpminuqEvex512 o => Sys2Proof.Machine.execVpminuqEvex512 o s

end Sys2Proof.Machine
end

