-- ==== Sys2Proof/Machine/Fetch.lean ====
section
/-! DEFINITION. Fetching an instruction's bytes, and what a decoding that gives no instruction becomes. -/

namespace Sys2Proof.Machine

/-- The bytes at `pc` that decoding can need, all where instruction bytes may stand (10_state.md R31, R32; 20_memory.md R46). R83 reads
prefixes without a limit and looks at the length last. A byte that memory does not list reads 0, which is no prefix, so at most
`s.mem.length` bytes are prefixes, and what follows them in an instruction is shorter than 15 bytes (DEDUCED, safe, log 9). -/
def fetchBytes (s : State) : List Byte :=
  s.mem.readBytes s.pc.toNat (min (s.mem.length + ilenMax) (fetchLimit s.cfg - s.pc.toNat))

/-- A decoder's refusal as the step's: bytes run out only at the end of the address range (10_state.md R32, D19). -/
def refusalOf (why : DecodeRefusal) : Refusal :=
  if why = .truncated then .pcOutOfRange else .encoding why

/-- Placing bytes at `pc`. -/
def placeAtPc (s : State) (bs : List Byte) : State :=
  { s with mem := s.mem.writeBytes s.pc.toNat bs }

end Sys2Proof.Machine
end

