-- ==== Sys2Proof/Machine/Step.lean ====
section
/-! DEFINITION. One step: fetch at `pc`, decode, execute (30_encoding.md R83; 70_reset_and_hazards.md R174: one instruction is one step). -/

namespace Sys2Proof.Machine

def step (s : State) : Host.Outcome State Fault Refusal :=
  match decode s.cfg.mode (fetchBytes s) with
  | .instr i _ => exec i s
  | .undefined _ => raise .ud s
  | .refused why => .refused (refusalOf why)

/-- The instruction whose bits are `w`, numbered as spec/opcode_table.json numbers them, stored where step fetches (log 4, log 19). -/
def State.withFetchWord (s : State) (nbits w : Nat) : State := placeAtPc s (tableBytes nbits w)

end Sys2Proof.Machine
end

