-- ==== Sys2Proof/Machine/Run.lean ====
section
/-! DEFINITION. A run of a program and its three endings (70_reset_and_hazards.md R175). -/

namespace Sys2Proof.Machine

/-- How a run stands after some steps. A fault or a refusal keeps the state before the instruction (60_exceptions.md R149, R150). -/
inductive RunEnd
  | finished (s : State)
  | faulted (f : Fault) (s : State)
  | refused (r : Refusal) (s : State)
  | unfinished (s : State)
deriving DecidableEq, Repr

/-- At most `n` steps of a program whose last byte stands just below `top`: the run ends successfully when `pc = top` (R175). -/
def runTo (top : Nat) : Nat → State → RunEnd
  | 0, s => if s.pc.toNat = top then .finished s else .unfinished s
  | n + 1, s =>
    if s.pc.toNat = top then .finished s
    else
      match step s with
      | .next t => runTo top n t
      | .fault f => .faulted f s
      | .refused r => .refused r s

end Sys2Proof.Machine
end

