-- ==== Sys2Proof/WellFormed.lean ====
section
/-! DEFINITION. Which instructions an encoding can name in a mode: the conditions under which encode writes the instruction's own bytes. -/

namespace Sys2Proof

/-- The r/m operand's form is one the ModRM table can write (30_encoding.md R66): `rm = 100` announces a SIB byte, and with no
displacement `rm = 101` and SIB.base = 101 mean something else. -/
def RmForm.wf : RmForm → Bool
  | .reg _ => true
  | .base r disp => r != 4 && (disp != .none || r != 5)
  | .disp32 _ => true
  | .sib _ _ b disp => disp != .none || b != 5
  | .sibNoBase _ _ _ => true

/-- `ModRM.mod = 11`. -/
def RmForm.isReg : RmForm → Bool
  | .reg _ => true
  | _ => false

/-- Prefix `67` stands among the prefixes. -/
def hasAddrSize (ps : List Pfx) : Bool := ps.contains .addrSize

/-- Prefix `66` stands among the prefixes. -/
def hasOpSize (ps : List Pfx) : Bool := ps.contains .opSize

/-- Format `LEG`: at least one `66` (R61); without REX only registers 0 to 7 (R73); in M32 no REX and no `67` (R61, R69). -/
def LegOperands.wf (m : Mode) (o : LegOperands) : Bool :=
  hasOpSize o.pfx && o.rm.form.wf
    && (o.rexW.isSome || (decide (o.d.toNat < 8) && !o.rm.x && !o.rm.b))
    && (m == .m64 || (o.rexW.isNone && !hasAddrSize o.pfx))
    && decide (o.len ≤ ilenMax)

/-- Format `VEX3`: no `66` before it (R62); in M32 registers 0 to 7 and no `67` (R81, R69). -/
def VexOperands.wf (m : Mode) (o : VexOperands) : Bool :=
  !hasOpSize o.pfx && o.rm.form.wf
    && (m == .m64 || (decide (o.d.toNat < 8) && decide (o.s1.toNat < 8) && !o.rm.x && !o.rm.b && !hasAddrSize o.pfx))
    && decide (o.len ≤ ilenMax)

/-- Format `EVEX`: no `66` before it (R63); not the reserved combinations `z = 1, aaa = 000` and `b = 1, mod = 11`, whose encodings are `#UD` (R82,
R90); in M32 registers 0 to 7 and no `67` (R81, R69). -/
def EvexOperands.wf (m : Mode) (o : EvexOperands) : Bool :=
  !hasOpSize o.pfx && o.rm.form.wf && !(o.z && o.aaa == 0) && !(o.bc && o.rm.form.isReg)
    && (m == .m64 || (decide (o.d.toNat < 8) && decide (o.s1.toNat < 8) && !o.rm.x && !o.rm.b && !hasAddrSize o.pfx))
    && decide (o.len ≤ ilenMax)

/-- The instruction has an encoding in mode `m`. -/
def Instr.wf (m : Mode) : Instr → Bool
  | .pminudSse128 o => o.wf m
  | .vpminudVex128 o => o.wf m
  | .vpminudVex256 o => o.wf m
  | .vpminudEvex128 o => o.wf m
  | .vpminudEvex256 o => o.wf m
  | .vpminudEvex512 o => o.wf m
  | .vpminuqEvex128 o => o.wf m
  | .vpminuqEvex256 o => o.wf m
  | .vpminuqEvex512 o => o.wf m

end Sys2Proof
end

