-- ==== Sys2Proof/Safety.lean ====
section
/-! DEFINITION. The terms statements are written in: the invariant, what a form leaves unchanged, when a form may execute. -/

namespace Sys2Proof.Machine

/-- Every bit of the container from MAXVL on is 0: the register has MAXVL bits (10_state.md R20; log 10). -/
abbrev vecFits (c : Platform) (v : Vec) : Prop := v.toNat < 2 ^ c.maxvl.bits

/-- The invariant: MAXVL agrees with the feature flags (00_scope.md R7), memory has its canonical form (log 7), and every vector register
has MAXVL bits. -/
abbrev stateInv (s : State) : Prop :=
  platformWf s.cfg ∧ s.mem.wf ∧ ∀ n : Fin 32, vecFits s.cfg (s.z[n.val]'n.isLt)

/-- The frame of every form: `t` differs from `s` at most in `Z[d]` and `pc` (10_state.md R25, R33, R37; 20_memory.md R42). -/
def sameButDest (d : BitVec 5) (s t : State) : Prop :=
  (∀ n, n ≠ d → t.vec n = s.vec n) ∧ t.k = s.k ∧ t.x = s.x ∧ t.rflags = s.rflags ∧ t.mxcsr = s.mxcsr ∧ t.cr2 = s.cr2
    ∧ t.cfg = s.cfg ∧ ∀ a, t.mem.read a = s.mem.read a

/-- Nothing raises `#UD` or `#NM` for the legacy form (70_reset_and_hazards.md R172; 60_exceptions.md R144). -/
def legReady (c : Platform) : Prop :=
  c.feat.sse41 = true ∧ c.env.em = false ∧ c.env.osfxsr = true ∧ c.env.ts = false

/-- OSXSAVE is set and XCR0 enables SSE and AVX state (R172). -/
def avxEnabled (e : Env) : Prop := e.osxsave = true ∧ e.xcr0.getLsbD 1 = true ∧ e.xcr0.getLsbD 2 = true

/-- XCR0 enables opmask, ZMM_Hi256 and Hi16_ZMM state (R172). -/
def avx512Enabled (e : Env) : Prop :=
  e.xcr0.getLsbD 5 = true ∧ e.xcr0.getLsbD 6 = true ∧ e.xcr0.getLsbD 7 = true

/-- Nothing outside the encoding raises `#UD` or `#NM` for a VEX form whose feature flag is `present` (R172, R144). -/
def vexReady (c : Platform) (present : Bool) : Prop :=
  present = true ∧ avxEnabled c.env ∧ c.env.ts = false

/-- Nothing outside the encoding raises `#UD` or `#NM` for an EVEX form of vector length `vl` (R172, R144). -/
def evexReady (c : Platform) (vl : Nat) : Prop :=
  c.feat.avx512f = true ∧ (vl = 512 ∨ c.feat.avx512vl = true) ∧ avxEnabled c.env ∧ avx512Enabled c.env ∧ c.env.ts = false

/-- Neither segmentation nor paging stops a read of this byte (20_memory.md R52). -/
def accessible (c : Platform) (a : Addr) : Prop := segFaultAt c a = false ∧ pageFaultAt c a = none

/-- Every needed byte of the operand has a canonical address (20_memory.md R51). -/
def canonicalOperand (c : Platform) (ea : Addr) (n : Nat) (needed : Nat → Bool) : Prop :=
  ∀ k, k < n → needed k = true → canonical c (byteAddr c.mode ea k) = true

/-- The read of the needed bytes faults nowhere: canonical, and `Access` answers `Ok` (R51, R52). -/
def accessOk (c : Platform) (ea : Addr) (n : Nat) (needed : Nat → Bool) : Prop :=
  canonicalOperand c ea n needed ∧ access c ea n needed = .ok

/-- The read of the needed bytes faults nowhere, and no byte of the operand is device memory (R49, R50, R52). -/
def readable (c : Platform) (ea : Addr) (n : Nat) (needed : Nat → Bool) : Prop :=
  accessOk c ea n needed ∧ ∀ k, k < n → deviceAt c (byteAddr c.mode ea k) = false

/-- The memory operand of the legacy form is aligned and readable (20_memory.md R44, R52); nothing is asked of a register operand. -/
def legOperandOk (s : State) (o : LegOperands) : Prop :=
  RmForm.isMem o.rm.form = true →
    (operandAddr s o.pfx o.rm o.len 1).toNat % 16 = 0
      ∧ readable s.cfg (operandAddr s o.pfx o.rm o.len 1) 16 fun _ => true

/-- The `n`-byte memory operand of a VEX form is readable, at any alignment (20_memory.md R45, R52). -/
def vexOperandOk (s : State) (o : VexOperands) (n : Nat) : Prop :=
  RmForm.isMem o.rm.form = true → readable s.cfg (operandAddr s o.pfx o.rm o.len 1) n fun _ => true

/-- The memory operand of an EVEX form is readable where it must be, at any alignment (20_memory.md R45, R49, R52). -/
def evexOperandOk (s : State) (o : EvexOperands) (w vl : Nat) : Prop :=
  RmForm.isMem o.rm.form = true →
    readable s.cfg (evexAddr s o w vl) (evexBytes w vl o.bc) (evexNeeded s o w vl)

/-- The encoding is not one of the two reserved combinations (42_vpminud_vpminuq_evex.md R120). -/
def evexLegal (o : EvexOperands) : Prop :=
  (o.z = true → o.aaa ≠ 0) ∧ (o.bc = true → RmForm.isMem o.rm.form = true)

/-- What completing means for an EVEX form of lane width `w` and vector length `vl` (42_vpminud_vpminuq_evex.md R120). -/
def evexCompletes (w vl : Nat) (form : EvexOperands → Instr) : Prop :=
  ∀ (o : EvexOperands) (s : State), platformWf s.cfg → evexReady s.cfg vl → evexLegal o → evexOperandOk s o w vl →
    ∃ t, exec (form o) s = .next t
      ∧ (∀ j, j < vl / w → lane w (t.vec o.d) j
          = if o.aaa = 0 ∨ (s.opmask o.aaa).getLsbD j = true then
              umin (lane w (s.vec o.s1) j) (lane w (evexSource2 s o w vl) j)
            else if o.z = true then 0
            else lane w (s.vec o.d) j)
      ∧ (∀ b, vl ≤ b → (t.vec o.d).getLsbD b = false)
      ∧ t.pc = s.pc + BitVec.ofNat 64 o.len ∧ sameButDest o.d s t

/-! ### What each form is, as the opcode table lists it -/

/-- An EVEX form as the shared operation of R120 sees it: its operands, lane width and vector length. -/
def evexParts : Instr → Option (EvexOperands × Nat × Nat)
  | .vpminudEvex128 o => some (o, 32, 128)
  | .vpminudEvex256 o => some (o, 32, 256)
  | .vpminudEvex512 o => some (o, 32, 512)
  | .vpminuqEvex128 o => some (o, 64, 128)
  | .vpminuqEvex256 o => some (o, 64, 256)
  | .vpminuqEvex512 o => some (o, 64, 512)
  | .pminudSse128 _ => none
  | .vpminudVex128 _ => none
  | .vpminudVex256 _ => none

/-- A VEX form: its operands and vector length. -/
def vexParts : Instr → Option (VexOperands × Nat)
  | .vpminudVex128 o => some (o, 128)
  | .vpminudVex256 o => some (o, 256)
  | .pminudSse128 _ => none
  | .vpminudEvex128 _ => none
  | .vpminudEvex256 _ => none
  | .vpminudEvex512 _ => none
  | .vpminuqEvex128 _ => none
  | .vpminuqEvex256 _ => none
  | .vpminuqEvex512 _ => none

/-- The form has no VEX or EVEX prefix. -/
def isLegacy : Instr → Bool
  | .pminudSse128 _ => true
  | .vpminudVex128 _ => false
  | .vpminudVex256 _ => false
  | .vpminudEvex128 _ => false
  | .vpminudEvex256 _ => false
  | .vpminudEvex512 _ => false
  | .vpminuqEvex128 _ => false
  | .vpminuqEvex256 _ => false
  | .vpminuqEvex512 _ => false

/-- The vector length in bits (opcode_table.json "vl"). -/
def vlOf : Instr → Nat
  | .pminudSse128 _ => 128
  | .vpminudVex128 _ => 128
  | .vpminudVex256 _ => 256
  | .vpminudEvex128 _ => 128
  | .vpminudEvex256 _ => 256
  | .vpminudEvex512 _ => 512
  | .vpminuqEvex128 _ => 128
  | .vpminuqEvex256 _ => 256
  | .vpminuqEvex512 _ => 512

/-- The lane width in bits (opcode_table.json "w"). -/
def widthOf : Instr → Nat
  | .pminudSse128 _ => 32
  | .vpminudVex128 _ => 32
  | .vpminudVex256 _ => 32
  | .vpminudEvex128 _ => 32
  | .vpminudEvex256 _ => 32
  | .vpminudEvex512 _ => 32
  | .vpminuqEvex128 _ => 64
  | .vpminuqEvex256 _ => 64
  | .vpminuqEvex512 _ => 64

/-- The CPUID flags of the form are all reported (60_exceptions.md R144). -/
def present (f : Feat) : Instr → Bool
  | .pminudSse128 _ => f.sse41
  | .vpminudVex128 _ => f.avx
  | .vpminudVex256 _ => f.avx2
  | .vpminudEvex128 _ => f.avx512vl && f.avx512f
  | .vpminudEvex256 _ => f.avx512vl && f.avx512f
  | .vpminudEvex512 _ => f.avx512f
  | .vpminuqEvex128 _ => f.avx512vl && f.avx512f
  | .vpminuqEvex256 _ => f.avx512vl && f.avx512f
  | .vpminuqEvex512 _ => f.avx512f

/-- The prefixes that stand before the form. -/
def pfxOf : Instr → List Pfx
  | .pminudSse128 o => o.pfx
  | .vpminudVex128 o => o.pfx
  | .vpminudVex256 o => o.pfx
  | .vpminudEvex128 o => o.pfx
  | .vpminudEvex256 o => o.pfx
  | .vpminudEvex512 o => o.pfx
  | .vpminuqEvex128 o => o.pfx
  | .vpminuqEvex256 o => o.pfx
  | .vpminuqEvex512 o => o.pfx

/-- The ModRM:r/m operand. -/
def rmOf : Instr → Rm
  | .pminudSse128 o => o.rm
  | .vpminudVex128 o => o.rm
  | .vpminudVex256 o => o.rm
  | .vpminudEvex128 o => o.rm
  | .vpminudEvex256 o => o.rm
  | .vpminudEvex512 o => o.rm
  | .vpminuqEvex128 o => o.rm
  | .vpminuqEvex256 o => o.rm
  | .vpminuqEvex512 o => o.rm

/-- The register number `s1` of the first source (30_encoding.md R70 to R73). -/
def s1Of : Instr → BitVec 5
  | .pminudSse128 o => vecNum4 o.d
  | .vpminudVex128 o => vecNum4 o.s1
  | .vpminudVex256 o => vecNum4 o.s1
  | .vpminudEvex128 o => o.s1
  | .vpminudEvex256 o => o.s1
  | .vpminudEvex512 o => o.s1
  | .vpminuqEvex128 o => o.s1
  | .vpminuqEvex256 o => o.s1
  | .vpminuqEvex512 o => o.s1

/-- The last operand is memory (`mod ≠ 11`). -/
def hasMem (i : Instr) : Bool := RmForm.isMem (rmOf i).form

/-- EVEX.b with a memory operand selects a broadcast (30_encoding.md R78). -/
def broadcasts (i : Instr) : Bool :=
  match evexParts i with
  | some (o, _, _) => o.bc && hasMem i
  | none => false

/-- `N` of R76: what a one-byte displacement is multiplied by. -/
def disp8Scale (i : Instr) : Nat :=
  match evexParts i with
  | some (o, w, vl) => evexBytes w vl o.bc
  | none => 1

/-- How many bytes the memory operand has (20_memory.md R41). -/
def opBytes (i : Instr) : Nat :=
  match evexParts i with
  | some (o, w, vl) => evexBytes w vl o.bc
  | none => vlOf i / 8

/-- `EA` of the memory operand. -/
def opAddr (s : State) (i : Instr) : Addr := operandAddr s (pfxOf i) (rmOf i) i.len (disp8Scale i)

/-- Which bytes of the memory operand must be accessible (20_memory.md R49). -/
def opNeeded (s : State) (i : Instr) (k : Nat) : Bool :=
  match evexParts i with
  | some (o, w, vl) => evexNeeded s o w vl k
  | none => true

/-- The second source of the form. -/
def secondSource (s : State) (i : Instr) : Vec :=
  match evexParts i with
  | some (o, w, vl) => evexSource2 s o w vl
  | none => source2 s (pfxOf i) (rmOf i) i.len (vlOf i / 8)

/-- The enable bits that the form's exception class asks for are not all as they must be (60_exceptions.md R141, R142). -/
def stateDisabled (e : Env) (i : Instr) : Prop :=
  if isLegacy i then e.em = true ∨ e.osfxsr = false
  else ¬avxEnabled e ∨ ((evexParts i).isSome = true ∧ ¬avx512Enabled e)

/-- The encoding is one of the two reserved EVEX combinations (42_vpminud_vpminuq_evex.md R120). -/
def reservedCombination (i : Instr) : Prop :=
  match evexParts i with
  | some (o, _, _) => ¬evexLegal o
  | none => False

/-- A condition under which an instruction (already decoded) raises `#UD` (60_exceptions.md R141, R142, R144). -/
def udCondition (s : State) (i : Instr) : Prop :=
  present s.cfg.feat i = false ∨ stateDisabled s.cfg.env i ∨ reservedCombination i

/-- The legacy form's memory operand is not 16-byte aligned (20_memory.md R44). -/
def misaligned (s : State) (i : Instr) : Prop :=
  isLegacy i = true ∧ hasMem i = true ∧ (opAddr s i).toNat % 16 ≠ 0

/-! ### Addresses over the integers (30_encoding.md R66 to R68) -/

/-- A displacement as a signed integer, `disp8` scaled by `n`. -/
def dispInt (n : Nat) : Disp → Int
  | .none => 0
  | .d8 v => v.toInt * n
  | .d32 v => v.toInt

/-- The low `width` bits of a register as an integer. -/
def lowInt (width : Nat) (v : Addr) : Int := (v.toNat % 2 ^ width : Nat)

/-- `index_val` as an integer. -/
def indexInt (width : Nat) (s : State) (rm : Rm) (scale : BitVec 2) (ix : BitVec 3) : Int :=
  if indexNum rm ix = 4 then 0 else lowInt width (s.gpr (indexNum rm ix)) * 2 ^ scale.toNat

/-- `base_val + index_val + disp_val` as an integer, from the low `width` bits of the registers. -/
def eaInt (width : Nat) (s : State) (rm : Rm) (len n : Nat) : Int :=
  match rm.form with
  | .reg _ => 0
  | .base r disp => lowInt width (s.gpr (baseNum rm r)) + dispInt n disp
  | .disp32 d => (if s.cfg.mode = .m64 then lowInt width s.pc + len else 0) + d.toInt
  | .sib scale ix r disp => lowInt width (s.gpr (baseNum rm r)) + indexInt width s rm scale ix + dispInt n disp
  | .sibNoBase scale ix d => indexInt width s rm scale ix + d.toInt

/-! ### Outcomes -/

/-- An outcome with its next state, if it has one, changed by `g`. -/
def onNext (g : State → State) : Outcome → Outcome
  | .next t => .next (g t)
  | .fault f => .fault f
  | .refused r => .refused r

/-- A run of `n` steps from `s` ended or stood at `t`, whatever the ending. -/
def runReaches (top n : Nat) (s t : State) : Prop :=
  runTo top n s = .finished t ∨ runTo top n s = .unfinished t ∨ (∃ f, runTo top n s = .faulted f t)
    ∨ ∃ r, runTo top n s = .refused r t

/-- A safe run: it neither faults nor is refused within `n` steps (70_reset_and_hazards.md R175). -/
def safeFor (top n : Nat) (s : State) : Prop :=
  (∃ t, runTo top n s = .finished t) ∨ ∃ t, runTo top n s = .unfinished t

end Sys2Proof.Machine
end

