-- ==== Sys2Proof/Certificates/Slice0/Obligations.lean ====
section
/-! DEFINITION. The statements for the provers. Each docstring names the rules of spec/ the statement rests on. -/

open Sys2Proof Sys2Proof.Machine

/-! ### The step, decoding and encoding -/

/-- The invariant holds at State.reset. The reset values are the model's own (log 1, 2, 3, 7); only that they satisfy R7 and the forms of
memory and vector registers is claimed. -/
def Obligations.ResetMeetsInvariant : Prop := stateInv State.reset

/-- Every step keeps the invariant: MAXVL agrees with the feature flags (R7), memory stays canonical (log 7), every vector register keeps
MAXVL bits (R20, R22). -/
def Obligations.StepKeepsInvariant : Prop := ∀ s t : State, stateInv s → step s = .next t → stateInv t

/-- Decoding the bytes of a well-formed instruction, whatever follows them, gives the instruction and what follows (R60 to R66, R73, R83). -/
def Obligations.DecodeOfEncode : Prop :=
  ∀ (m : Mode) (i : Instr) (rest : List Byte), i.wf m = true → decode m (encode i ++ rest) = .instr i rest

/-- Bytes that decode are the bytes of a well-formed instruction: no bit of an encoding is dropped, and `ilen` is the number of bytes
consumed, at most 15 (R60, R83). -/
def Obligations.EncodeOfDecode : Prop :=
  ∀ (m : Mode) (bs : List Byte) (i : Instr) (rest : List Byte), decode m bs = .instr i rest →
    i.wf m = true ∧ bs = encode i ++ rest ∧ bs.length = i.len + rest.length ∧ i.len ≤ 15

/-- A step runs the instruction decoded from the bytes at `pc`; bytes that decode to `#UD` fault there, bytes the decoder refuses are
refused, those that run out as an instruction past the address range (R83, R90, D18, D19). -/
def Obligations.StepRunsDecodedInstruction : Prop :=
  ∀ s : State,
    (∀ i rest, decode s.cfg.mode (fetchBytes s) = .instr i rest → step s = exec i s)
      ∧ (∀ why, decode s.cfg.mode (fetchBytes s) = .undefined why → step s = .fault (.ud s.pc))
      ∧ (∀ why, decode s.cfg.mode (fetchBytes s) = .refused why → why ≠ .truncated → step s = .refused (.encoding why))
      ∧ (decode s.cfg.mode (fetchBytes s) = .refused .truncated → step s = .refused .pcOutOfRange)

/-- The bytes a step fetches are those from `pc` on, in increasing address order, and they run out in decoding only where they reach the end of
the address range: however many prefixes stand at `pc`, R83's order is followed to its end (R31, R43, R83, D19). Memory that is not listed
reading 0 is the model's choice (log 7). -/
def Obligations.FetchRunsOutOnlyAtAddressLimit : Prop :=
  ∀ s : State,
    (∀ k, k < (fetchBytes s).length → (fetchBytes s)[k]? = some (s.mem.read (s.pc.toNat + k)))
      ∧ (s.pc.toNat + (fetchBytes s).length ≤ fetchLimit s.cfg ∨ fetchBytes s = [])
      ∧ (decode s.cfg.mode (fetchBytes s) = .refused .truncated → fetchLimit s.cfg ≤ s.pc.toNat + (fetchBytes s).length)

/-- A well-formed instruction placed at `pc`, all its bytes in the address range, is the one the next step runs, in the state with it placed
(R31, R40, R43, R83). Placing it stands for the launch, which the spec leaves outside (R170; the model's choice, log 4), and no region of
`Access` stops the fetch (D29; log 14). -/
def Obligations.PlacedInstructionRuns : Prop :=
  ∀ (s : State) (i : Instr), s.mem.wf → i.wf s.cfg.mode = true → s.pc.toNat + i.len ≤ fetchLimit s.cfg →
    step (placeAtPc s (encode i)) = exec i (placeAtPc s (encode i))

/-- A few words of 95_test_vectors.md section 4 decode to the operands listed there. -/
def Obligations.SpecWordsDecode : Prop :=
  decode .m64 [0x66, 0x45, 0x0F, 0x38, 0x3B, 0xCA] = .instr (.pminudSse128 ⟨[.opSize], some false, 9, ⟨false, true, .reg 2⟩⟩) []
    ∧ decode .m64 [0xC4, 0x42, 0x2D, 0x3B, 0xCB] = .instr (.vpminudVex256 ⟨[], false, 9, 10, ⟨false, true, .reg 3⟩⟩) []
    ∧ decode .m64 [0x62, 0x02, 0x85, 0x40, 0x3B, 0xF5]
        = .instr (.vpminuqEvex512 ⟨[], 30, 31, false, false, 0, ⟨true, true, .reg 5⟩⟩) []
    ∧ decode .m32 [0x62, 0xF2, 0x6D, 0xD9, 0x3B, 0x48, 0x01]
        = .instr (.vpminudEvex512 ⟨[], 1, 2, true, true, 1, ⟨false, false, .base 0 (.d8 1)⟩⟩) []

/-- A LOCK prefix before any form raises `#UD` (R55, R83, R90), in both modes, with any plain prefixes before it and at any length. In M32 it comes
before the refusal of prefix `67`, and everywhere before that of more than 15 bytes (R83's order; DEDUCED, log 16). -/
def Obligations.LockPrefixIsUndefined : Prop :=
  ∀ (m : Mode) (ps : List Pfx) (i : Instr) (rest : List Byte), i.wf m = true →
    ∃ why, decode m (ps.map Pfx.byte ++ 0xF0 :: (encode i ++ rest)) = .undefined why

/-- `66`, `F2`, `F3` or, in M64, a REX byte before a VEX or EVEX form raises `#UD` (R62, R63, R83, R90), with any plain prefixes before it and at any
length: R83 decides it before the rest of the instruction is read. Where segment or `67` prefixes stand between that byte and `C4` or `62`,
this is the model's reading of R90 (DEDUCED, log 16). -/
def Obligations.PrefixBeforeVexIsUndefined : Prop :=
  ∀ (m : Mode) (ps : List Pfx) (i : Instr) (b : Byte) (rest : List Byte), i.wf m = true → isLegacy i = false →
    (b = 0x66 ∨ b = 0xF2 ∨ b = 0xF3 ∨ (m = .m64 ∧ 0x40 ≤ b.toNat ∧ b.toNat ≤ 0x4F)) →
    decode m (ps.map Pfx.byte ++ b :: (encode i ++ rest)) = .undefined .badPrefixBeforeVex

/-- EVEX encodings, in both modes and behind any segment and `67` prefixes: reserved bits `P0[3:2]`, `P1[2]`, the length `L'L = 11` and the
combinations `z = 1, aaa = 000` and `b = 1, mod = 11` are `#UD`, whatever follows and at any length; another map or prefix class is another
instruction and refused, whatever its other bits and the bytes after it (R63, R74, R81, R82, R83, R90, D14 to D16). Where two conditions
meet, the answer is the model's (log 16): a word of another map or prefix class that also has a reserved bit is refused (DEDUCED), and in
M32 these `#UD` come before the refusals of extension bits stored as 0 (DESIGN CHOICE) and of prefix `67` (DEDUCED). -/
def Obligations.EvexReservedBitsAreUndefined : Prop :=
  ∀ (m : Mode) (ps : List Pfx) (p0 p1 p2 : Byte) (rest : List Byte), .opSize ∉ ps →
    ((m = .m32 → p0.extractLsb' 6 2 = 3) → p0.extractLsb' 0 2 = 2 → p1.extractLsb' 0 2 = 1 →
      (p0.extractLsb' 2 2 ≠ 0 ∨ p1.getLsbD 2 = false ∨ p2.extractLsb' 5 2 = 3 ∨ (p2.getLsbD 7 = true ∧ p2.extractLsb' 0 3 = 0)
        ∨ (p2.getLsbD 4 = true ∧ ∃ modrm tl, rest = modrm :: tl ∧ modrm.extractLsb' 6 2 = 3)) →
      ∃ why, decode m (ps.map Pfx.byte ++ 0x62 :: p0 :: p1 :: p2 :: 0x3B :: rest) = .undefined why)
      ∧ ((p0.extractLsb' 0 2 ≠ 2 ∨ p1.extractLsb' 0 2 ≠ 1) →
        decode m (ps.map Pfx.byte ++ 0x62 :: p0 :: p1 :: p2 :: 0x3B :: rest) = .refused .notInScope)

/-- In M32 an instruction names registers 0 to 7 only, for its destination, both sources, base and index (R73, R81). -/
def Obligations.M32NamesEightRegisters : Prop :=
  ∀ (bs : List Byte) (i : Instr) (rest : List Byte), decode .m32 bs = .instr i rest →
    (destOf i).toNat < 8 ∧ (s1Of i).toNat < 8 ∧ (rmOf i).x = false ∧ (rmOf i).b = false ∧ .addrSize ∉ pfxOf i

/-! ### What each form computes, and that it completes -/

/-- PMINUD.SSE128 completes whenever its flag, CR0 and CR4 allow it and a memory operand is aligned and readable: dword lane `j` of `Z[d]`
is the unsigned minimum of its old value and the second source's, bits 128 and above keep their value, `pc` moves by `ilen`, and
nothing else changes (R100 operation, R22, R25, R32, R172). -/
def Obligations.PminudSse128Result : Prop :=
  ∀ (o : LegOperands) (s : State), legReady s.cfg → legOperandOk s o →
    ∃ t, exec (.pminudSse128 o) s = .next t
      ∧ (∀ j, j < 4 → lane 32 (t.vec (vecNum4 o.d)) j
          = umin (lane 32 (s.vec (vecNum4 o.d)) j) (lane 32 (source2 s o.pfx o.rm o.len 16) j))
      ∧ (∀ b, 128 ≤ b → (t.vec (vecNum4 o.d)).getLsbD b = (s.vec (vecNum4 o.d)).getLsbD b)
      ∧ t.pc = s.pc + BitVec.ofNat 64 o.len ∧ sameButDest (vecNum4 o.d) s t

/-- VPMINUD.VEX128 (AVX) and VPMINUD.VEX256 (AVX2) complete whenever their flag, CR4 and XCR0 allow it and a memory operand is readable,
at any alignment: dword lane `j` of `Z[d]` is the unsigned minimum of the two sources' lanes, every bit from the vector length on is
0, `pc` moves by `ilen`, and nothing else changes (R110 and R111 operation, R22, R25, R32, R45, R172). -/
def Obligations.VpminudVexResult : Prop :=
  (∀ (o : VexOperands) (s : State), platformWf s.cfg → vexReady s.cfg s.cfg.feat.avx → vexOperandOk s o 16 →
    ∃ t, exec (.vpminudVex128 o) s = .next t
      ∧ (∀ j, j < 4 → lane 32 (t.vec (vecNum4 o.d)) j
          = umin (lane 32 (s.vec (vecNum4 o.s1)) j) (lane 32 (source2 s o.pfx o.rm o.len 16) j))
      ∧ (∀ b, 128 ≤ b → (t.vec (vecNum4 o.d)).getLsbD b = false)
      ∧ t.pc = s.pc + BitVec.ofNat 64 o.len ∧ sameButDest (vecNum4 o.d) s t)
  ∧ (∀ (o : VexOperands) (s : State), platformWf s.cfg → vexReady s.cfg s.cfg.feat.avx2 → vexOperandOk s o 32 →
    ∃ t, exec (.vpminudVex256 o) s = .next t
      ∧ (∀ j, j < 8 → lane 32 (t.vec (vecNum4 o.d)) j
          = umin (lane 32 (s.vec (vecNum4 o.s1)) j) (lane 32 (source2 s o.pfx o.rm o.len 32) j))
      ∧ (∀ b, 256 ≤ b → (t.vec (vecNum4 o.d)).getLsbD b = false)
      ∧ t.pc = s.pc + BitVec.ofNat 64 o.len ∧ sameButDest (vecNum4 o.d) s t)

/-- The three EVEX forms of VPMINUD complete whenever their flags, CR4 and XCR0 allow it, the encoding is not reserved, and a memory operand
is readable where R49 asks it: an active dword lane is the unsigned minimum, an inactive one is kept (merging) or 0 (zeroing), every bit
from the vector length on is 0 whatever the mask, `pc` moves by `ilen`, nothing else changes (R120 to R123 operation). -/
def Obligations.VpminudEvexResult : Prop :=
  evexCompletes 32 128 .vpminudEvex128 ∧ evexCompletes 32 256 .vpminudEvex256 ∧ evexCompletes 32 512 .vpminudEvex512

/-- The same of the three forms of VPMINUQ, with qword lanes (R120, R124 to R126 operation). -/
def Obligations.VpminuqEvexResult : Prop :=
  evexCompletes 64 128 .vpminuqEvex128 ∧ evexCompletes 64 256 .vpminuqEvex256 ∧ evexCompletes 64 512 .vpminuqEvex512

/-- The lane minimum and its laws (R14), at every width. -/
def Obligations.LaneMinimumLaws : Prop :=
  ∀ (w : Nat) (a b c : BitVec w),
    umin a b = (if a.toNat < b.toNat then a else b) ∧ umin a b = umin b a ∧ umin a a = a ∧ umin a 0 = 0
      ∧ umin a (BitVec.allOnes w) = a ∧ umin (umin a b) c = umin a (umin b c) ∧ (umin a b = a ∨ umin a b = b)
      ∧ (umin a b).toNat ≤ a.toNat ∧ (umin a b).toNat ≤ b.toNat
      ∧ umin (0x80000000 : BitVec 32) 0x00000001 = 0x00000001

/-- The write disciplines (R22): the legacy form keeps bits 128 and above of `Z[d]`; every other form zeroes every bit from its vector
length on, whatever the writemask holds. -/
def Obligations.WriteDisciplines : Prop :=
  ∀ (i : Instr) (s t : State), exec i s = .next t →
    (isLegacy i = true → ∀ b, 128 ≤ b → (t.vec (destOf i)).getLsbD b = (s.vec (destOf i)).getLsbD b)
      ∧ (isLegacy i = false → ∀ b, vlOf i ≤ b → (t.vec (destOf i)).getLsbD b = false)

/-- The second source of a register form, of every format: register `B : rm`, and `X : B : rm` for EVEX, here as a number (R70 to R73). When the
form completes, every lane that no writemask leaves inactive is the unsigned minimum of the first source's lane and that register's
(R100, R110, R111, R120). -/
def Obligations.RegisterOperandResult : Prop :=
  ∀ (i : Instr) (s t : State) (n : BitVec 3) (r : BitVec 5), (rmOf i).form = .reg n →
    r.toNat = (if (evexParts i).isSome then 16 * (rmOf i).x.toNat else 0) + 8 * (rmOf i).b.toNat + n.toNat →
    exec i s = .next t →
    ∀ j, j < vlOf i / widthOf i →
      (∀ o w vl, evexParts i = some (o, w, vl) → o.aaa = 0 ∨ (s.opmask o.aaa).getLsbD j = true) →
      lane (widthOf i) (t.vec (destOf i)) j = umin (lane (widthOf i) (s.vec (s1Of i)) j) (lane (widthOf i) (s.vec r) j)

/-- Two equal register sources are copied (R26): the VEX forms copy the low 128 or 256 bits and zero the rest; the EVEX forms copy the active lanes,
keep or zero the inactive ones and zero the rest (R120); `PMINUD xmm1, xmm1` leaves its register unchanged. The register numbers are compared
as R73 forms them from the encoding. -/
def Obligations.EqualSourcesAreCopied : Prop :=
  (∀ (i : Instr) (o : VexOperands) (vl : Nat) (n : BitVec 3) (s t : State), vexParts i = some (o, vl) →
    o.rm.form = .reg n → o.s1.toNat = 8 * o.rm.b.toNat + n.toNat → exec i s = .next t →
    ∀ b, (t.vec (vecNum4 o.d)).getLsbD b = (decide (b < vl) && (s.vec (vecNum4 o.s1)).getLsbD b))
  ∧ (∀ (i : Instr) (o : EvexOperands) (w vl : Nat) (n : BitVec 3) (s t : State), evexParts i = some (o, w, vl) →
    o.rm.form = .reg n → o.s1.toNat = 16 * o.rm.x.toNat + 8 * o.rm.b.toNat + n.toNat → exec i s = .next t →
    ∀ b, (t.vec o.d).getLsbD b
      = (decide (b < vl) &&
          (if o.aaa = 0 ∨ (s.opmask o.aaa).getLsbD (b / w) = true then (s.vec o.s1).getLsbD b
           else !o.z && (s.vec o.d).getLsbD b)))
  ∧ (∀ (o : LegOperands) (n : BitVec 3) (s t : State), o.rm.form = .reg n → o.d.toNat = 8 * o.rm.b.toNat + n.toNat →
    exec (.pminudSse128 o) s = .next t → t.vec (vecNum4 o.d) = s.vec (vecNum4 o.d))

/-- An EVEX form whose mask bits are all 0 (R121 corner cases b, c): merging keeps the low `VL` bits and still zeroes the rest,
zeroing clears the whole register. -/
def Obligations.FullyMaskedOff : Prop :=
  ∀ (i : Instr) (o : EvexOperands) (w vl : Nat) (s t : State), evexParts i = some (o, w, vl) → o.aaa ≠ 0 →
    (∀ j, j < vl / w → (s.opmask o.aaa).getLsbD j = false) → exec i s = .next t →
    (o.z = false → ∀ b, (t.vec o.d).getLsbD b = (decide (b < vl) && (s.vec o.d).getLsbD b))
      ∧ (o.z = true → t.vec o.d = 0)

/-- The legacy form and the VEX.128 form with the destination as first source agree on bits 127:0 and differ above them: kept against
zeroed (R100, R110 corner case c). -/
def Obligations.LegacyAndVexAgreeBelow128 : Prop :=
  ∀ (ol : LegOperands) (ov : VexOperands) (s t u : State) (n : BitVec 3), ol.d = ov.d → ov.s1 = ov.d → ol.rm = ov.rm →
    ol.rm.form = .reg n → exec (.pminudSse128 ol) s = .next t → exec (.vpminudVex128 ov) s = .next u →
    ∀ b, (b < 128 → (t.vec (vecNum4 ol.d)).getLsbD b = (u.vec (vecNum4 ov.d)).getLsbD b)
      ∧ (128 ≤ b → (t.vec (vecNum4 ol.d)).getLsbD b = (s.vec (vecNum4 ol.d)).getLsbD b
          ∧ (u.vec (vecNum4 ov.d)).getLsbD b = false)

/-- Without a writemask the EVEX.128 and EVEX.256 forms of VPMINUD give the register the VEX form gives, on register operands both can
name (R121 corner case a). -/
def Obligations.UnmaskedEvexAgreesWithVex : Prop :=
  ∀ (ie iv : Instr) (oe : EvexOperands) (ov : VexOperands) (vl : Nat) (s t u : State) (n : BitVec 3),
    evexParts ie = some (oe, 32, vl) → vexParts iv = some (ov, vl) → oe.aaa = 0 →
    oe.d = vecNum4 ov.d → oe.s1 = vecNum4 ov.s1 → oe.rm = ov.rm → oe.rm.x = false → oe.rm.form = .reg n →
    exec ie s = .next t → exec iv s = .next u → t.vec oe.d = u.vec oe.d

/-! ### Frames -/

/-- A step that completes changes at most the destination register of the decoded instruction and `pc` (R25). -/
def Obligations.StepChangesOnlyDestination : Prop :=
  ∀ s t : State, step s = .next t →
    ∃ i rest, decode s.cfg.mode (fetchBytes s) = .instr i rest ∧ sameButDest (destOf i) s t

/-- A run leaves everything but the vector registers and `pc` as it was, however it ends (R23, R25, R30, R37, R42: memory, opmask and general
registers are read only, the parameters constant; R33). That CR2 is unchanged in the state a page-faulted run stands in is the model's choice
(log 3): R143 has CR2 receive the address on delivery, which is not modelled, and the fault itself holds that address. -/
def Obligations.RunLeavesReadOnlyState : Prop :=
  ∀ (top n : Nat) (s t : State), runReaches top n s t →
    t.cfg = s.cfg ∧ t.mem = s.mem ∧ t.k = s.k ∧ t.x = s.x ∧ t.rflags = s.rflags ∧ t.mxcsr = s.mxcsr ∧ t.cr2 = s.cr2

/-- A step that completes moves `pc` by exactly `ilen`, all the instruction's bytes being in the address range; a faulting one reports the
`pc` it stands at; a `pc` outside the range is refused (R32, D19). That `pc` may stand at the limit after the last instruction (2^32 in M32), and
the limit 2^56 with 57-bit linear addresses, are the model's choice (log 9). -/
def Obligations.PcMovesByLength : Prop :=
  ∀ s : State,
    (∀ t, step s = .next t → ∃ i rest, decode s.cfg.mode (fetchBytes s) = .instr i rest
      ∧ t.pc = s.pc + BitVec.ofNat 64 i.len ∧ t.pc.toNat = s.pc.toNat + i.len ∧ t.pc.toNat ≤ fetchLimit s.cfg)
      ∧ (∀ f, step s = .fault f → f.savedPc = s.pc)
      ∧ (fetchLimit s.cfg ≤ s.pc.toNat → step s = .refused .pcOutOfRange)

/-- No form writes or reads RFLAGS or MXCSR (R33): with other values in them the outcome is the same, and they keep those values. -/
def Obligations.FlagsNeitherReadNorWritten : Prop :=
  ∀ (i : Instr) (s : State) (r : BitVec 64) (m : BitVec 32),
    exec i { s with rflags := r, mxcsr := m } = onNext (fun t => { t with rflags := r, mxcsr := m }) (exec i s)
      ∧ ∀ t, exec i s = .next t → t.rflags = s.rflags ∧ t.mxcsr = s.mxcsr

/-- `K[0]` is never read (R24): with another value in it every outcome is the same, and it keeps that value. -/
def Obligations.OpmaskZeroNeverRead : Prop :=
  ∀ (i : Instr) (s : State) (v : Mask),
    exec i { s with k := s.k.set 0 v } = onNext (fun t => { t with k := s.k.set 0 v }) (exec i s)

/-- Opmask bits at and above the number of lanes are ignored (R23): masks that agree below it give the same outcome. -/
def Obligations.MaskBitsAboveLanesIgnored : Prop :=
  ∀ (i : Instr) (s : State) (k' : Vector Mask 8),
    (∀ (n : Fin 8) (j : Nat), j < vlOf i / widthOf i → (k'[n.val]'n.isLt).getLsbD j = (s.k[n.val]'n.isLt).getLsbD j) →
    exec i { s with k := k' } = onNext (fun t => { t with k := k' }) (exec i s)

/-- With `Access` held fixed, the privilege level changes no outcome but the U/S bit of a page-fault code (R143, R160). R160 lets `Access` itself
depend on the privilege level; the model's regions and entries do not (the model's choice, log 5), so another level with another `Access` is
other regions and entries. -/
def Obligations.PrivilegeOnlyInPageFaultCode : Prop :=
  ∀ (i : Instr) (s : State) (c : BitVec 2),
    let g : State → State := fun t => { t with cfg := { t.cfg with env := { t.cfg.env with cpl := c } } }
    ((∀ pc code a, exec i s ≠ .fault (.pf pc code a)) → exec i (g s) = onNext g (exec i s))
      ∧ ∀ pc code a, exec i s = .fault (.pf pc code a) →
          ∃ code', exec i (g s) = .fault (.pf pc code' a) ∧ ∀ b, b ≠ 2 → code'.getLsbD b = code.getLsbD b

/-- VEX.W and REX.W have no effect (R75). -/
def Obligations.IgnoredWBits : Prop :=
  ∀ (ol : LegOperands) (ov : VexOperands) (s : State) (b c : Bool),
    exec (.pminudSse128 { ol with rexW := some b }) s = exec (.pminudSse128 { ol with rexW := some c }) s
      ∧ exec (.vpminudVex128 { ov with w := b }) s = exec (.vpminudVex128 { ov with w := c }) s
      ∧ exec (.vpminudVex256 { ov with w := b }) s = exec (.vpminudVex256 { ov with w := c }) s

/-! ### Memory operands -/

/-- Memory is little-endian (R43): byte `k` of an operand is the byte at `EA + k`, dword lane `j` is the four bytes at `EA + 4j` with the
lowest address least significant, instruction bytes are fetched in increasing address order, and a `disp32` has its least significant
byte first. `EA + k` is taken modulo the address width: for an operand past the top of the address space, where the spec is silent, that is
the model's choice (log 6). -/
def Obligations.LittleEndian : Prop :=
  (∀ (s : State) (ea : Addr) (n k : Nat), n ≤ 64 → k < n →
    lane 8 (s.memRead ea n) k = s.mem.read (byteAddr s.cfg.mode ea k).toNat)
  ∧ (∀ (s : State) (ea : Addr) (n j : Nat), n ≤ 64 → 4 * j + 4 ≤ n →
    lane 32 (s.memRead ea n) j
      = s.mem.read (byteAddr s.cfg.mode ea (4 * j + 3)).toNat ++ s.mem.read (byteAddr s.cfg.mode ea (4 * j + 2)).toNat
        ++ s.mem.read (byteAddr s.cfg.mode ea (4 * j + 1)).toNat ++ s.mem.read (byteAddr s.cfg.mode ea (4 * j)).toNat)
  ∧ (∀ (m : Memory) (a n k : Nat), k < n → (m.readBytes a n)[k]? = some (m.read (a + k)))
  ∧ (∀ (b0 b1 b2 b3 : Byte) (rest : List Byte), take32 (b0 :: b1 :: b2 :: b3 :: rest) = some (b3 ++ b2 ++ b1 ++ b0, rest))

/-- The memory operand kinds (R41): 16, 32 or 64 bytes at `EA`, byte by byte the second source; or with EVEX.b one 4- or 8-byte element at
`EA` in every lane. Byte `k` stands at `EA + k` modulo the address width, which for an operand past the top of the address space is the model's
choice (log 6). -/
def Obligations.MemoryOperandKinds : Prop :=
  ∀ (i : Instr) (s : State), hasMem i = true →
    (broadcasts i = false → opBytes i = vlOf i / 8
      ∧ ∀ k, k < vlOf i / 8 → lane 8 (secondSource s i) k = s.mem.read (byteAddr s.cfg.mode (opAddr s i) k).toNat)
      ∧ (broadcasts i = true → opBytes i = widthOf i / 8
        ∧ ∀ j b, j < vlOf i / widthOf i → b < widthOf i / 8 →
          lane 8 (secondSource s i) (j * (widthOf i / 8) + b) = s.mem.read (byteAddr s.cfg.mode (opAddr s i) b).toNat)

/-- The effective address is the sum of base, scaled index and displacement as integers, modulo 2^64, or modulo 2^32 of the low 32 bits
with prefix `67` and in M32; the segment base is added modulo the address width (R66 to R68). -/
def Obligations.EffectiveAddressIsModularSum : Prop :=
  ∀ (s : State) (pfx : List Pfx) (rm : Rm) (len n : Nat),
    (∀ width, width = (if s.cfg.mode = .m32 ∨ .addrSize ∈ pfx then 32 else 64) →
      ((eaOff s pfx rm len n).toNat : Int) = eaInt width s rm len n % 2 ^ width)
      ∧ (operandAddr s pfx rm len n).toNat
        = ((segBaseOf s.cfg (operandSeg pfx rm)).toNat + (eaOff s pfx rm len n).toNat)
          % 2 ^ (if s.cfg.mode = .m32 then 32 else 64)

/-- The operand's segment: the last override prefix wins; without one, SS for base register 4 or 5, else DS; in M64 the bases of ES, CS, SS
and DS are 0 (R36, R67, R68). -/
def Obligations.SegmentSelection : Prop :=
  (∀ (ps qs : List Pfx) (g : Seg) (rm : Rm), (∀ q ∈ qs, ∀ h, q ≠ .seg h) → operandSeg (ps ++ .seg g :: qs) rm = g)
  ∧ (∀ (ps : List Pfx) (rm : Rm), (∀ p ∈ ps, ∀ h, p ≠ .seg h) →
      ((baseOf rm = some 4 ∨ baseOf rm = some 5) → operandSeg ps rm = .ss)
        ∧ (baseOf rm ≠ some 4 → baseOf rm ≠ some 5 → operandSeg ps rm = .ds))
  ∧ (∀ (c : Platform) (g : Seg), c.mode = .m64 → g ≠ .fs → g ≠ .gs → segBaseOf c g = 0)

/-- Compressed displacement (R76), at operands `[base + disp]` and `[base + index*scale + disp]`, in both modes, with and without prefix `67`: a
one-byte displacement counts in units of 16, 32, 64 bytes for the full EVEX operands, 4 for a dword broadcast, 8 for a qword broadcast, 1
for the legacy and VEX forms; a four-byte one is never scaled (R66 to R68). The operands without a base have only the four-byte one, which
EffectiveAddressIsModularSum covers. -/
def Obligations.Disp8IsScaled : Prop :=
  ∀ (i : Instr) (s : State) (r : BitVec 3) (disp : Disp) (width : Nat) (index : Int),
    width = (if s.cfg.mode = .m32 ∨ .addrSize ∈ pfxOf i then 32 else 64) →
    (((rmOf i).form = .base r disp ∧ index = 0)
      ∨ ∃ scale ix, (rmOf i).form = .sib scale ix r disp ∧ index = indexInt width s (rmOf i) scale ix) →
    ((opAddr s i).toNat : Int)
      = ((segBaseOf s.cfg (operandSeg (pfxOf i) (rmOf i))).toNat
          + (lowInt width (s.gpr (baseNum (rmOf i) r)) + index
              + (match disp with
                  | .none => 0
                  | .d8 v => v.toInt * (match evexParts i with
                      | some (o, w, vl) =>
                        if o.bc = true then (if w = 32 then 4 else 8) else (if vl = 128 then 16 else if vl = 256 then 32 else 64)
                      | none => 1)
                  | .d32 v => v.toInt)) % 2 ^ width)
        % 2 ^ (if s.cfg.mode = .m32 then 32 else 64)

/-! ### Exceptions -/

/-- A form whose CPUID flag, or one of whose flags, is clear raises `#UD` (R144). -/
def Obligations.ClearFeatureFlagRaisesUd : Prop :=
  ∀ (i : Instr) (s : State), present s.cfg.feat i = false → exec i s = .fault (.ud s.pc)

/-- Where MAXVL agrees with the flags (R7), a decoded instruction raises `#UD` exactly under the conditions of R141, R142 and R144. -/
def Obligations.UdExactlyWhen : Prop :=
  ∀ (i : Instr) (s : State), platformWf s.cfg → (exec i s = .fault (.ud s.pc) ↔ udCondition s i)

/-- Every form raises `#NM` when `ENV.ts = 1` and none of the `#UD` conditions holds, and otherwise raises none (R145). -/
def Obligations.NmExactlyWhen : Prop :=
  ∀ (i : Instr) (s : State), platformWf s.cfg →
    (exec i s = .fault (.nm s.pc) ↔ s.cfg.env.ts = true ∧ ¬udCondition s i)

/-- A form wider than MAXVL has its feature flag clear and raises `#UD`: from R7 (whose tie is D1) and R144, an inference the spec draws in R27. -/
def Obligations.FormWiderThanMaxvlRaisesUd : Prop :=
  ∀ (i : Instr) (s : State), platformWf s.cfg → s.cfg.maxvl.bits < vlOf i →
    present s.cfg.feat i = false ∧ exec i s = .fault (.ud s.pc)

/-- The reserved combinations `z = 1` with `aaa = 000` and `b = 1` with a register operand raise `#UD` in every state (R78, R90, R120). -/
def Obligations.ReservedCombinationRaisesUd : Prop :=
  ∀ (i : Instr) (s : State), reservedCombination i → exec i s = .fault (.ud s.pc)

/-- A memory operand of the legacy form whose linear address is no multiple of 16 raises `#GP(0)` when nothing raises `#UD` or `#NM`,
whether or not the operand is accessible (R44, R148), and whatever the segment: that it is `#GP(0)` and not `#SS(0)` through SS is the model's reading
of R44 and R148 against R146 (DEDUCED, log 20). -/
def Obligations.MisalignedLegacyRaisesGp : Prop :=
  ∀ (o : LegOperands) (s : State), legReady s.cfg → RmForm.isMem o.rm.form = true →
    (operandAddr s o.pfx o.rm o.len 1).toNat % 16 ≠ 0 → exec (.pminudSse128 o) s = .fault (.gp s.pc)

/-- A needed byte that is not canonical raises `#SS(0)` through SS and `#GP(0)` through another segment, before any page fault, and so does one that
segmentation rejects, where `Access` has no value of its own for the operand (R146, R148 step 4). That the canonical check and segmentation
look at every needed byte of the operand is the model's (DEDUCED, log 22, and log 5 for `Access` byte by byte); R51 speaks of the linear
address of the access. -/
def Obligations.SegmentationFaultKind : Prop :=
  ∀ (i : Instr) (s : State) (k : Nat), platformWf s.cfg → ¬udCondition s i → s.cfg.env.ts = false → hasMem i = true →
    ¬misaligned s i → k < opBytes i → opNeeded s i k = true →
    (canonical s.cfg (byteAddr s.cfg.mode (opAddr s i) k) = false
      ∨ (accessWhole s.cfg (opAddr s i) (opBytes i) (opNeeded s i) = none
        ∧ segFaultAt s.cfg (byteAddr s.cfg.mode (opAddr s i) k) = true)) →
    exec i s = (if operandSeg (pfxOf i) (rmOf i) = .ss then .fault (.ss s.pc) else .fault (.gp s.pc))

/-- Page faults (R143, R147), when nothing earlier in R148's order applies, where `Access` has no value of its own for the operand. If a needed byte
page-faults, a page fault with the code and the address of a needed byte that faults is reported, W/R = 0, I/D = 0, U/S = 1 exactly at CPL 3,
and no bit above bit 5 (R143 is silent on those; the model's choice, log 24). Where several fault, each of them may be the one, as an entry
for this operand alone says (`Access` decides, log 5). -/
def Obligations.PageFaultCodeAndAddress : Prop :=
  ∀ (i : Instr) (s : State) (k : Nat) (code : BitVec 32), platformWf s.cfg → ¬udCondition s i → s.cfg.env.ts = false →
    hasMem i = true → ¬misaligned s i → accessWhole s.cfg (opAddr s i) (opBytes i) (opNeeded s i) = none →
    (∀ j, j < opBytes i → opNeeded s i j = true → segFaultAt s.cfg (byteAddr s.cfg.mode (opAddr s i) j) = false) →
    k < opBytes i → opNeeded s i k = true → pageFaultAt s.cfg (byteAddr s.cfg.mode (opAddr s i) k) = some code →
    (∃ j code', j < opBytes i ∧ opNeeded s i j = true
        ∧ pageFaultAt s.cfg (byteAddr s.cfg.mode (opAddr s i) j) = some code'
        ∧ exec i s = .fault (.pf s.pc code' (byteAddr s.cfg.mode (opAddr s i) j)))
      ∧ (∃ pick, exec i { s with cfg := { s.cfg with accessEntries := ⟨opAddr s i, opBytes i, .bytes pick⟩ :: s.cfg.accessEntries } }
          = .fault (.pf s.pc code (byteAddr s.cfg.mode (opAddr s i) k)))
      ∧ code.getLsbD 1 = false ∧ code.getLsbD 4 = false ∧ code.getLsbD 2 = (s.cfg.env.cpl == 3)
      ∧ ∀ b, 6 ≤ b → code.getLsbD b = false

/-- `Access(addr, n)` is a function of the linear address and the byte count that the environment supplies freely (R52): every function is the one
of some parameters, whatever its other values, for every operand size. -/
def Obligations.AccessIsAnyFunction : Prop :=
  ∀ (c : Platform) (f : Addr → Nat → AccessResult),
    ∃ entries, ∀ (ea : Addr) (n : Nat), n ≤ 64 → accessEntry { c with accessEntries := entries } ea n = some (f ea n)

/-- A value of `Access` for the operand read whole decides (R52), for a canonical operand, when nothing earlier in R148's order applies, whatever the
regions say of its bytes: `Ok` lets the form complete (unless the operand touches device memory), a rejection raises `#SS(0)` through SS and
`#GP(0)` through another segment (R146), a page fault is reported with the address of the byte of the operand that it names and W/R = 0,
I/D = 0, U/S = 1 exactly at CPL 3 (R143, R147). -/
def Obligations.AccessDecidesWholeOperands : Prop :=
  ∀ (i : Instr) (s : State), platformWf s.cfg → ¬udCondition s i → s.cfg.env.ts = false → hasMem i = true → ¬misaligned s i →
    (∀ k, k < opBytes i → opNeeded s i k = true ∧ canonical s.cfg (byteAddr s.cfg.mode (opAddr s i) k) = true) →
    (accessEntry s.cfg (opAddr s i) (opBytes i) = some .ok →
        (∀ k, k < opBytes i → deviceAt s.cfg (byteAddr s.cfg.mode (opAddr s i) k) = false) → ∃ t, exec i s = .next t)
      ∧ (accessEntry s.cfg (opAddr s i) (opBytes i) = some .segmentation →
        exec i s = (if operandSeg (pfxOf i) (rmOf i) = .ss then .fault (.ss s.pc) else .fault (.gp s.pc)))
      ∧ (∀ p rsvd pk byte, accessEntry s.cfg (opAddr s i) (opBytes i) = some (.page p rsvd pk byte) →
        ∃ code, exec i s = .fault (.pf s.pc code (byteAddr s.cfg.mode (opAddr s i) (byte % opBytes i)))
          ∧ code.getLsbD 0 = p ∧ code.getLsbD 1 = false ∧ code.getLsbD 2 = (s.cfg.env.cpl == 3) ∧ code.getLsbD 3 = rsvd
          ∧ code.getLsbD 4 = false ∧ code.getLsbD 5 = pk)

/-- What it takes for a read to fault nowhere (R51, R52): where `Access` has no value of its own for the operand, that every needed byte is
accessible; where it has one, that this is `Ok` and the operand canonical. That an operand with a byte that is not needed (R49) has no value of its
own, the third clause, is the model's (DESIGN CHOICE, log 5); that the canonical check is made of every needed byte is the model's reading of
R51, which speaks of the linear address of the access (DEDUCED, log 22). -/
def Obligations.ReadFaultsNowhereExactlyWhen : Prop :=
  ∀ (c : Platform) (ea : Addr) (n : Nat) (needed : Nat → Bool),
    (accessWhole c ea n needed = none →
      (accessOk c ea n needed ↔ ∀ k, k < n → needed k = true → accessible c (byteAddr c.mode ea k)))
      ∧ (∀ r, accessWhole c ea n needed = some r → (accessOk c ea n needed ↔ r = .ok ∧ canonicalOperand c ea n needed))
      ∧ ((∃ k, k < n ∧ needed k = false) → accessWhole c ea n needed = none)

/-- A memory operand that touches device memory, and that nothing faults on, is refused by name (R50, D28). That a device byte of a masked-off lane
alone is enough, and that every fault comes first, is the model's choice (log 15). -/
def Obligations.DeviceOperandRefused : Prop :=
  ∀ (i : Instr) (s : State) (k : Nat), platformWf s.cfg → ¬udCondition s i → s.cfg.env.ts = false → hasMem i = true →
    ¬misaligned s i → accessOk s.cfg (opAddr s i) (opBytes i) (opNeeded s i) →
    k < opBytes i → deviceAt s.cfg (byteAddr s.cfg.mode (opAddr s i) k) = true →
    exec i s = .refused .deviceOperand

/-- Which bytes of an EVEX memory operand must be accessible (R49), for an operand that touches no device memory, when nothing raises `#UD` or
`#NM`: all of them without FaultSuppression; with it those of active lanes, or for a broadcast the element when some lane is active. The form
completes exactly when they are, where `Access` has no value of its own for the operand; with one, exactly when it is `Ok` and the operand is
canonical. That an operand with a byte that is not needed has no value of its own, so that its needed bytes' regions decide it although `Access`
may have an entry for it, is the model's (DESIGN CHOICE, log 5); that every needed byte must be canonical is the model's reading of R51
(DEDUCED, log 22). -/
def Obligations.FaultSuppressionDecides : Prop :=
  ∀ (i : Instr) (o : EvexOperands) (w vl : Nat) (s : State), evexParts i = some (o, w, vl) → platformWf s.cfg →
    ¬udCondition s i → s.cfg.env.ts = false → hasMem i = true →
    (∀ k, k < opBytes i → deviceAt s.cfg (byteAddr s.cfg.mode (opAddr s i) k) = false) →
    (accessWhole s.cfg (opAddr s i) (opBytes i) (opNeeded s i) = none →
      (s.cfg.faultSuppression = false →
        ((∃ t, exec i s = .next t) ↔ ∀ k, k < opBytes i → accessible s.cfg (byteAddr s.cfg.mode (opAddr s i) k)))
        ∧ (s.cfg.faultSuppression = true → o.bc = false →
          ((∃ t, exec i s = .next t) ↔ ∀ j b, j < vl / w → b < w / 8 → (o.aaa = 0 ∨ (s.opmask o.aaa).getLsbD j = true) →
            accessible s.cfg (byteAddr s.cfg.mode (opAddr s i) (j * (w / 8) + b))))
        ∧ (s.cfg.faultSuppression = true → o.bc = true →
          ((∃ t, exec i s = .next t) ↔ ((∃ j, j < vl / w ∧ (o.aaa = 0 ∨ (s.opmask o.aaa).getLsbD j = true)) →
            ∀ k, k < w / 8 → accessible s.cfg (byteAddr s.cfg.mode (opAddr s i) k)))))
      ∧ (∀ r, accessWhole s.cfg (opAddr s i) (opBytes i) (opNeeded s i) = some r →
        ((∃ t, exec i s = .next t)
          ↔ r = .ok ∧ ∀ k, k < opBytes i → canonical s.cfg (byteAddr s.cfg.mode (opAddr s i) k) = true))

/-- A VEX or EVEX form raises `#GP(0)` or `#SS(0)` only for a needed byte that segmentation or the canonical check rejects, or where `Access` has a
rejection as its own value for the operand: the form itself asks for no alignment (R45). -/
def Obligations.VexAndEvexNeedNoAlignment : Prop :=
  ∀ (i : Instr) (s : State), isLegacy i = false →
    (exec i s = .fault (.gp s.pc) ∨ exec i s = .fault (.ss s.pc)) →
    hasMem i = true
      ∧ ((∃ k, k < opBytes i ∧ opNeeded s i k = true ∧ segFaultAt s.cfg (byteAddr s.cfg.mode (opAddr s i) k) = true)
        ∨ accessWhole s.cfg (opAddr s i) (opBytes i) (opNeeded s i) = some .segmentation)

/-- Vector numbers, error codes and what CR2 would receive: an address for `#PF` alone (R143). -/
def Obligations.ExceptionIdentities : Prop :=
  ∀ (pc a : Addr) (code : BitVec 32),
    (Fault.ud pc).vector = 6 ∧ (Fault.nm pc).vector = 7 ∧ (Fault.ss pc).vector = 12 ∧ (Fault.gp pc).vector = 13
      ∧ (Fault.pf pc code a).vector = 14
      ∧ (Fault.ud pc).errorCode = none ∧ (Fault.nm pc).errorCode = none ∧ (Fault.ss pc).errorCode = some 0
      ∧ (Fault.gp pc).errorCode = some 0 ∧ (Fault.pf pc code a).errorCode = some code
      ∧ (Fault.pf pc code a).cr2 = some a ∧ (Fault.ud pc).cr2 = none ∧ (Fault.nm pc).cr2 = none ∧ (Fault.ss pc).cr2 = none
      ∧ (Fault.gp pc).cr2 = none

/-- The endings of a run (R149, R150, R175): a finished run stands at the byte after the program; a faulted run stands in the state before
the faulting instruction, whose address the fault reports; a refused one likewise; and every such state was reached by at most
`n` completed steps. -/
def Obligations.RunEndings : Prop :=
  ∀ (top n : Nat) (s : State),
    (∀ t, runTo top n s = .finished t → t.pc.toNat = top)
      ∧ (∀ f t, runTo top n s = .faulted f t → step t = .fault f ∧ f.savedPc = t.pc ∧ t.pc.toNat ≠ top)
      ∧ (∀ r t, runTo top n s = .refused r t → step t = .refused r ∧ t.pc.toNat ≠ top)
      ∧ (∀ t, runReaches top n s t → ∃ k, k ≤ n ∧ Sys2Proof.core.run k s = .next t)
end

