-- ==== Sys2Proof/Laws/Addresses.lean ====
section
/-! SUPPORT. The address sums of the machine as integers modulo 2^64 (30_encoding.md R67). -/

namespace Sys2Proof.Machine

theorem ofInt_toNat64 (v : Addr) : BitVec.ofInt 64 (v.toNat : Int) = v := by
  apply BitVec.eq_of_toNat_eq; simp

/-- A displacement's value is its signed integer (30_encoding.md R66, R76). -/
theorem dispVal_eq_ofInt (n : Nat) (d : Disp) : dispVal n d = BitVec.ofInt 64 (dispInt n d) := by
  cases d with
  | none => rfl
  | d8 v =>
    simp only [dispVal, dispInt, BitVec.ofInt_mul]
    congr 1
  | d32 v => rfl

theorem lowInt_64 (v : Addr) : lowInt 64 v = v.toNat := by simp [lowInt, Nat.mod_eq_of_lt v.isLt]

/-- The index's value is the scaled register (30_encoding.md R65, R67). -/
theorem indexVal_eq_ofInt (s : State) (rm : Rm) (scale : BitVec 2) (ix : BitVec 3) :
    indexVal s rm scale ix = BitVec.ofInt 64 (indexInt 64 s rm scale ix) := by
  unfold indexVal indexInt
  split_ifs
  · rfl
  · apply BitVec.eq_of_toNat_eq
    rw [BitVec.toNat_shiftLeft, BitVec.toNat_ofInt, Nat.shiftLeft_eq, lowInt_64]
    norm_cast

/-- The low half of a value, widened again. -/
theorem toNat_low32 (v : Addr) : ((v.setWidth 32).setWidth 64 : Addr).toNat = v.toNat % 2 ^ 32 := by
  simp only [BitVec.toNat_setWidth]; omega

end Sys2Proof.Machine
end

