-- ==== Sys2Proof/Laws/Encoding.lean ====
section
/-! SUPPORT. Reading back the pieces of an encoding: prefixes, displacement, ModRM and SIB; and lengths. -/

namespace Sys2Proof

/-! ### Bytes before the form -/

theorem preByte_byte (m : Mode) (p : Pfx) : preByte? m p.byte = some (.pfx p) := by
  rcases p with s | _ | _
  · cases s <;> rfl
  all_goals rfl

theorem preByte_rexByte (w r x b : Bool) : preByte? .m64 (rexByte w r x b) = some (.rex w r x b) := by
  cases w <;> cases r <;> cases x <;> cases b <;> decide

/-- Prefix bytes followed by a byte that is none are scanned as exactly those prefixes. -/
theorem scanPre_pfx (m : Mode) (ps : List Pfx) {bs : List Byte} {pre : List PreByte} {core : List Byte}
    (h : scanPre m bs = (pre, core)) : scanPre m (ps.map Pfx.byte ++ bs) = (ps.map PreByte.pfx ++ pre, core) := by
  induction ps with
  | nil => simpa using h
  | cons p ps ih => simp [scanPre, preByte_byte, ih]

theorem scanPre_core {m : Mode} {c : Byte} (tl : List Byte) (h : preByte? m c = none) : scanPre m (c :: tl) = ([], c :: tl) := by
  simp [scanPre, h]

theorem plainPfx_map (ps : List Pfx) : plainPfx (ps.map PreByte.pfx) = ps := by
  induction ps with
  | nil => rfl
  | cons p ps ih => simp [plainPfx, ih]

theorem legacyPre_map (ps : List Pfx) : legacyPre (ps.map PreByte.pfx) = some (ps, none) := by
  induction ps with
  | nil => rfl
  | cons p ps ih => simp [legacyPre, ih]

theorem legacyPre_map_rex (ps : List Pfx) (w r x b : Bool) :
    legacyPre (ps.map PreByte.pfx ++ [.rex w r x b]) = some (ps, some (w, r, x, b)) := by
  induction ps with
  | nil => rfl
  | cons p ps ih => simp [legacyPre, ih]

/-! ### ModRM, SIB, displacement -/

theorem bits_mod (a : BitVec 2) (b c : BitVec 3) : (a ++ b ++ c).extractLsb' 6 2 = a := by revert a b c; decide
theorem bits_reg (a : BitVec 2) (b c : BitVec 3) : (a ++ b ++ c).extractLsb' 3 3 = b := by revert a b c; decide
theorem bits_rm (a : BitVec 2) (b c : BitVec 3) : (a ++ b ++ c).extractLsb' 0 3 = c := by revert a b c; decide

/-- A byte is its three fields. -/
theorem bits_233 (a : Byte) : a.extractLsb' 6 2 ++ a.extractLsb' 3 3 ++ a.extractLsb' 0 3 = a := by revert a; decide

/-- Four bytes side by side: which byte each stretch of eight bits is. -/
theorem bits_8888 (b3 b2 b1 b0 : Byte) :
    (b3 ++ b2 ++ b1 ++ b0).extractLsb' 0 8 = b0 ∧ (b3 ++ b2 ++ b1 ++ b0).extractLsb' 8 8 = b1
      ∧ (b3 ++ b2 ++ b1 ++ b0).extractLsb' 16 8 = b2 ∧ (b3 ++ b2 ++ b1 ++ b0).extractLsb' 24 8 = b3 := by
  refine ⟨?_, ?_, ?_, ?_⟩ <;> apply BitVec.eq_of_getLsbD_eq <;> intro i hi <;>
    simp only [BitVec.getLsbD_extractLsb', BitVec.getLsbD_append, hi, decide_true, Bool.true_and]
  · simp [hi, BitVec.getLsbD_eq_getElem]
  · simp [hi, BitVec.getLsbD_eq_getElem]
  · have h1 : ¬ 16 + i < 8 := by omega
    have h2 : ¬ 16 + i - 8 < 8 := by omega
    have h3 : 16 + i - 8 - 8 = i := by omega
    simp [h1, h2, h3, hi, BitVec.getLsbD_eq_getElem]
  · have h1 : ¬ 24 + i < 8 := by omega
    have h2 : ¬ 24 + i - 8 < 8 := by omega
    have h3 : ¬ 24 + i - 8 - 8 < 8 := by omega
    have h4 : 24 + i - 8 - 8 - 8 = i := by omega
    simp [h1, h2, h3, h4, hi, BitVec.getLsbD_eq_getElem]

/-- A 32-bit displacement is its four bytes. -/
theorem le32_joined (d : BitVec 32) :
    d.extractLsb' 24 8 ++ d.extractLsb' 16 8 ++ d.extractLsb' 8 8 ++ d.extractLsb' 0 8 = d := by
  apply BitVec.eq_of_getLsbD_eq
  intro i hi
  simp only [BitVec.getLsbD_append, BitVec.getLsbD_extractLsb']
  split_ifs with h1 h2 h3
  · simp [h1]
  · rw [Nat.add_sub_cancel' (by omega : 8 ≤ i)]; simp [h2]
  · rw [show 16 + (i - 8 - 8) = i by omega]; simp [h3]
  · rw [show 24 + (i - 8 - 8 - 8) = i by omega]
    have : i - 8 - 8 - 8 < 8 := by omega
    simp [this]

theorem take32_le32 (d : BitVec 32) (rest : List Byte) : take32 (le32 d ++ rest) = some (d, rest) := by
  simp only [le32, take32, List.cons_append, List.nil_append, le32_joined]

theorem takeDisp_bytes (disp : Disp) (rest : List Byte) : takeDisp disp.mod (disp.bytes ++ rest) = some (disp, rest) := by
  cases disp with
  | none => rfl
  | d8 v => rfl
  | d32 v => simp [takeDisp, Disp.mod, Disp.bytes, take32_le32]

theorem Disp.mod_ne_three (disp : Disp) : disp.mod ≠ 3 := by cases disp <;> simp [Disp.mod]

theorem Disp.mod_eq_zero_iff (disp : Disp) : disp.mod = 0 ↔ disp = .none := by cases disp <;> simp [Disp.mod]

/-- The bytes from ModRM on read back as the operand they encode (30_encoding.md R64 to R66). -/
theorem takeRm_encodeRm (reg : BitVec 3) (form : RmForm) (rest : List Byte) (h : form.wf = true) :
    takeRm (encodeRm reg form ++ rest) = some (reg, form, rest) := by
  cases form with
  | reg n => simp only [encodeRm, List.cons_append, List.nil_append, takeRm, bits_mod, bits_reg, bits_rm, if_true]
  | base r disp =>
    have h4 : r ≠ 4 := by rintro rfl; simp [RmForm.wf] at h
    have h5 : ¬(disp.mod = 0 ∧ r = 5) := by
      rintro ⟨hd, rfl⟩
      rw [Disp.mod_eq_zero_iff] at hd
      simp [RmForm.wf, hd] at h
    simp only [encodeRm, List.cons_append, takeRm, bits_mod, bits_reg, bits_rm, disp.mod_ne_three, h4, h5, if_false,
      takeDisp_bytes, Option.map_some]
  | disp32 d =>
    have h4 : ¬((5 : BitVec 3) = 4) := by decide
    have h3 : ¬((0 : BitVec 2) = 3) := by decide
    simp only [encodeRm, List.cons_append, takeRm, bits_mod, bits_reg, bits_rm, h3, h4, and_self, if_false, if_true,
      take32_le32, Option.map_some]
  | sib sc ix b disp =>
    have h5 : ¬(disp.mod = 0 ∧ b = 5) := by
      rintro ⟨hd, rfl⟩
      rw [Disp.mod_eq_zero_iff] at hd
      simp [RmForm.wf, hd] at h
    simp only [encodeRm, List.cons_append, takeRm, bits_mod, bits_reg, bits_rm, disp.mod_ne_three, h5, if_false, if_true,
      takeDisp_bytes, Option.map_some]
  | sibNoBase sc ix d =>
    have h3 : ¬((0 : BitVec 2) = 3) := by decide
    simp only [encodeRm, List.cons_append, takeRm, bits_mod, bits_reg, bits_rm, h3, and_self, if_false, if_true,
      take32_le32, Option.map_some]

theorem take32_sound {bs rest : List Byte} {d : BitVec 32} (h : take32 bs = some (d, rest)) : bs = le32 d ++ rest := by
  match bs, h with
  | b0 :: b1 :: b2 :: b3 :: tl, h =>
    simp only [take32, Option.some.injEq, Prod.mk.injEq] at h
    obtain ⟨rfl, rfl⟩ := h
    obtain ⟨e0, e1, e2, e3⟩ := bits_8888 b3 b2 b1 b0
    simp only [le32, e0, e1, e2, e3, List.cons_append, List.nil_append]

theorem takeDisp_sound {mod : BitVec 2} {bs rest : List Byte} {disp : Disp} (hm : mod ≠ 3)
    (h : takeDisp mod bs = some (disp, rest)) : disp.mod = mod ∧ bs = disp.bytes ++ rest := by
  unfold takeDisp at h
  split at h
  · rename_i h0
    cases h
    exact ⟨h0.symm, rfl⟩
  · split at h
    · rename_i h1
      split at h
      · cases h
        exact ⟨h1.symm, rfl⟩
      · cases h
    · rename_i h0 h1
      rw [Option.map_eq_some_iff] at h
      obtain ⟨⟨d, r⟩, hd, he⟩ := h
      cases he
      refine ⟨?_, take32_sound hd⟩
      show (2 : BitVec 2) = mod
      revert mod
      decide

/-- What is read from ModRM on is well-formed and encodes back to the bytes read. -/
theorem takeRm_sound {bs rest : List Byte} {reg : BitVec 3} {form : RmForm} (h : takeRm bs = some (reg, form, rest)) :
    form.wf = true ∧ bs = encodeRm reg form ++ rest := by
  unfold takeRm at h
  split at h
  · cases h
  · rename_i mr tl
    have hmr := bits_233 mr
    split at h
    · rename_i h3
      cases h
      rw [h3] at hmr
      exact ⟨rfl, by simp only [encodeRm, hmr, List.cons_append, List.nil_append]⟩
    · rename_i h3
      split at h
      · rename_i h4
        rw [h4] at hmr
        split at h
        · cases h
        · rename_i sb tl2
          have hsb := bits_233 sb
          split at h
          · rename_i h05
            rw [Option.map_eq_some_iff] at h
            obtain ⟨⟨d, r⟩, hd, he⟩ := h
            cases he
            rw [h05.1] at hmr
            rw [h05.2] at hsb
            exact ⟨rfl, by simp only [encodeRm, hmr, hsb, take32_sound hd, List.cons_append]⟩
          · rename_i h05
            rw [Option.map_eq_some_iff] at h
            obtain ⟨⟨d, r⟩, hd, he⟩ := h
            cases he
            obtain ⟨hmod, htl⟩ := takeDisp_sound h3 hd
            refine ⟨?_, ?_⟩
            · by_cases hz : d = .none
              · have : sb.extractLsb' 0 3 ≠ 5 := fun hb => h05 ⟨by rw [← hmod]; exact (Disp.mod_eq_zero_iff d).2 hz, hb⟩
                simpa [RmForm.wf, hz] using this
              · simp [RmForm.wf, hz]
            · simp only [encodeRm, hmod, hmr, hsb, htl, List.cons_append]
      · rename_i h4
        split at h
        · rename_i h05
          rw [Option.map_eq_some_iff] at h
          obtain ⟨⟨d, r⟩, hd, he⟩ := h
          cases he
          rw [h05.1, h05.2] at hmr
          exact ⟨rfl, by simp only [encodeRm, hmr, take32_sound hd, List.cons_append]⟩
        · rename_i h05
          rw [Option.map_eq_some_iff] at h
          obtain ⟨⟨d, r⟩, hd, he⟩ := h
          cases he
          obtain ⟨hmod, htl⟩ := takeDisp_sound h3 hd
          refine ⟨?_, ?_⟩
          · have h4' : (mr.extractLsb' 0 3 != 4) = true := by simpa using h4
            by_cases hz : d = .none
            · have : mr.extractLsb' 0 3 ≠ 5 := fun hb => h05 ⟨by rw [← hmod]; exact (Disp.mod_eq_zero_iff d).2 hz, hb⟩
              have h5' : (mr.extractLsb' 0 3 != 5) = true := by simpa using this
              simp only [RmForm.wf, h4', h5', Bool.or_true, Bool.and_true]
            · simp only [RmForm.wf, h4', Bool.true_and, Bool.or_eq_true, bne_iff_ne, ne_eq, hz, not_false_eq_true, true_or]
          · simp only [encodeRm, hmod, hmr, htl, List.cons_append]

/-! ### Lengths (30_encoding.md R83) -/

@[simp] theorem le32_length (d : BitVec 32) : (le32 d).length = 4 := rfl

@[simp] theorem Disp.bytes_length (disp : Disp) : disp.bytes.length = disp.len := by cases disp <;> rfl

@[simp] theorem encodeRm_length (reg : BitVec 3) (form : RmForm) : (encodeRm reg form).length = form.len := by
  cases form <;> simp [encodeRm, RmForm.len] <;> omega

theorem encodeLeg_length (o : LegOperands) : (encodeLeg o).length = o.len := by
  unfold encodeLeg LegOperands.len
  cases o.rexW <;> simp <;> omega

theorem encodeVex_length (l : Bool) (o : VexOperands) : (encodeVex l o).length = o.len := by
  simp [encodeVex, VexOperands.len]; omega

theorem encodeEvex_length (w : Bool) (ll : BitVec 2) (o : EvexOperands) : (encodeEvex w ll o).length = o.len := by
  simp [encodeEvex, EvexOperands.len]; omega

/-! ### Bytes before the opcode, read backwards -/

def PreByte.byte : PreByte → Byte
  | .pfx p => p.byte
  | .lock => 0xF0
  | .repne => 0xF2
  | .rep => 0xF3
  | .rex w r x b => rexByte w r x b

def PreByte.isRex : PreByte → Bool
  | .rex _ _ _ _ => true
  | _ => false

theorem preByte_sound_m64 : ∀ b : Byte, (preByte? .m64 b).all (fun p => b == p.byte) = true := by decide

theorem preByte_sound_m32 : ∀ b : Byte, (preByte? .m32 b).all (fun p => b == p.byte && !p.isRex) = true := by decide

/-- A byte in prefix position is the byte of what it was read as; no REX byte is read in M32 (30_encoding.md R61). -/
theorem preByte_sound {m : Mode} {b : Byte} {p : PreByte} (h : preByte? m b = some p) : b = p.byte ∧ (m = .m32 → p.isRex = false) := by
  cases m
  · have hb := preByte_sound_m64 b
    rw [h] at hb
    exact ⟨by simpa using hb, by simp⟩
  · have hb := preByte_sound_m32 b
    rw [h] at hb
    simp only [Option.all_some, Bool.and_eq_true, beq_iff_eq, Bool.not_eq_true'] at hb
    exact ⟨hb.1, fun _ => hb.2⟩

theorem scanPre_sound {m : Mode} {bs : List Byte} {pre : List PreByte} {core : List Byte} (h : scanPre m bs = (pre, core)) :
    bs = pre.map PreByte.byte ++ core ∧ (m = .m32 → ∀ p ∈ pre, p.isRex = false) := by
  induction bs generalizing pre core with
  | nil =>
    obtain ⟨rfl, rfl⟩ := Prod.mk.inj h
    simp
  | cons b bs ih =>
    simp only [scanPre] at h
    split at h
    · rename_i p hp
      obtain ⟨rfl, rfl⟩ := Prod.mk.inj h
      obtain ⟨h1, h2⟩ := preByte_sound hp
      obtain ⟨i1, i2⟩ := ih (pre := (scanPre m bs).1) (core := (scanPre m bs).2) rfl
      refine ⟨by rw [List.map_cons, List.cons_append, ← i1, h1], fun hm q hq => ?_⟩
      rcases List.mem_cons.1 hq with rfl | hq
      · exact h2 hm
      · exact i2 hm q hq
    · obtain ⟨rfl, rfl⟩ := Prod.mk.inj h
      simp

/-- The REX byte, if there is one, as bytes before the opcode. -/
def rexPre : Option (Bool × Bool × Bool × Bool) → List PreByte
  | none => []
  | some (w, r, x, b) => [.rex w r x b]

theorem legacyPre_sound {pre : List PreByte} {ps : List Pfx} {rex : Option (Bool × Bool × Bool × Bool)}
    (h : legacyPre pre = some (ps, rex)) :
    pre = ps.map PreByte.pfx ++ rexPre rex := by
  induction pre generalizing ps rex with
  | nil => simp [legacyPre] at h; obtain ⟨rfl, rfl⟩ := h; rfl
  | cons p pre ih =>
    cases p with
    | pfx p =>
      simp only [legacyPre, Option.map_eq_some_iff, Prod.mk.injEq] at h
      obtain ⟨⟨ps', rex'⟩, ha, rfl, rfl⟩ := h
      simp only [List.map_cons, List.cons_append]
      rw [← ih ha]
    | rex w r x b =>
      simp only [legacyPre] at h
      split_ifs at h with hp
      simp only [Option.some.injEq, Prod.mk.injEq] at h
      obtain ⟨rfl, rfl⟩ := h
      simp [hp, rexPre]
    | lock => simp [legacyPre] at h
    | rep => simp [legacyPre] at h
    | repne => simp [legacyPre] at h

/-- Bytes that may stand before a VEX or EVEX prefix are plain prefixes without `66` (30_encoding.md R62, R63). -/
theorem plainPfx_sound {pre : List PreByte} (h : pre.any PreByte.badBeforeVex = false) (hl : .lock ∉ pre) :
    pre = (plainPfx pre).map PreByte.pfx ∧ .opSize ∉ plainPfx pre := by
  induction pre with
  | nil => simp [plainPfx]
  | cons p pre ih =>
    simp only [List.any_cons, Bool.or_eq_false_iff] at h
    rw [List.mem_cons, not_or] at hl
    obtain ⟨i1, i2⟩ := ih h.2 hl.2
    cases p with
    | pfx p =>
      simp only [plainPfx, List.map_cons, List.mem_cons, not_or]
      refine ⟨by rw [← i1], ?_, i2⟩
      rintro rfl
      simp [PreByte.badBeforeVex] at h
    | lock => exact absurd rfl hl.1
    | rep => simp [PreByte.badBeforeVex] at h
    | repne => simp [PreByte.badBeforeVex] at h
    | rex => simp [PreByte.badBeforeVex] at h

/-- Only `66`, F2, F3 and REX are bad before a VEX or EVEX prefix, so of plain prefixes only `66` is (30_encoding.md R62, R63). -/
theorem any_badBeforeVex_map (ps : List Pfx) : (ps.map PreByte.pfx).any PreByte.badBeforeVex = hasOpSize ps := by
  induction ps with
  | nil => rfl
  | cons p ps ih => cases p <;> simp_all [PreByte.badBeforeVex, hasOpSize]

/-! ### What the shared ends of decoding answer -/

/-- Reading the encoding of a well-formed r/m operand in an instruction of at most 15 bytes gives the instruction (30_encoding.md R83). -/
theorem finishDecode_encodeRm {m : Mode} {n : Nat} {pre : List PreByte} {reg : BitVec 3} {form : RmForm} {rest : List Byte}
    {instr : BitVec 3 → RmForm → Instr} (hf : form.wf = true) (ha : m = .m32 → .pfx .addrSize ∉ pre) (hn : n - rest.length ≤ ilenMax) :
    finishDecode m n pre (encodeRm reg form ++ rest) instr = .instr (instr reg form) rest := by
  unfold finishDecode
  rw [if_neg (fun h => ha h.1 h.2), takeRm_encodeRm _ _ _ hf]
  simp only [Nat.not_lt.2 hn, if_false]

/-- An instruction comes from the encoding of a well-formed r/m operand, within 15 bytes, without prefix `67` in M32 (30_encoding.md R69, R83). -/
theorem finishDecode_sound {m : Mode} {n : Nat} {pre : List PreByte} {bs rest : List Byte} {instr : BitVec 3 → RmForm → Instr} {i : Instr}
    (h : finishDecode m n pre bs instr = .instr i rest) :
    ∃ reg form, i = instr reg form ∧ form.wf = true ∧ bs = encodeRm reg form ++ rest ∧ n - rest.length ≤ ilenMax
      ∧ (m = .m32 → .pfx .addrSize ∉ pre) := by
  unfold finishDecode at h
  split at h
  · cases h
  · rename_i ha
    split at h
    · cases h
    · rename_i reg form r ht
      split at h
      · cases h
      · rename_i hn
        cases h
        obtain ⟨hf, hb⟩ := takeRm_sound ht
        exact ⟨reg, form, rfl, hf, hb, Nat.not_lt.1 hn, fun hm hp => ha ⟨hm, hp⟩⟩

/-- After `C4` or `62`, an answer other than those of R81 and R83 is that of the bytes themselves. -/
theorem afterEscape_instr {m : Mode} {pre : List PreByte} {bs rest : List Byte} {body : Decoded} {i : Instr}
    (h : afterEscape m pre bs body = .instr i rest) :
    body = .instr i rest ∧ pre.any PreByte.badBeforeVex = false ∧ (m = .m32 → (bs.headD 0).extractLsb' 6 2 = 3) := by
  unfold afterEscape at h
  split at h
  · cases h
  · split at h
    · cases h
    · rename_i h3
      split at h
      · cases h
      · rename_i hb
        exact ⟨h, by simpa using hb, fun hm => by_contra fun hne => h3 ⟨hm, hne⟩⟩

/-- A VEX or EVEX prefix that R81 recognises, with bytes before it that may stand there. -/
theorem afterEscape_of_good {m : Mode} {pre : List PreByte} {b : Byte} {bs : List Byte} (body : Decoded)
    (hm : m = .m32 → b.extractLsb' 6 2 = 3) (hb : pre.any PreByte.badBeforeVex = false) : afterEscape m pre (b :: bs) body = body := by
  unfold afterEscape
  rw [if_neg (by simp), if_neg (fun h => h.2 (hm h.1)), if_neg (by simp [hb])]

end Sys2Proof
end

