-- ==== Sys2Proof/Laws/Lanes.lean ====
section
/-! SUPPORT. What each lane and each bit of a packed value is. -/

namespace Sys2Proof.Machine

variable {w : Nat}

/-- The bits of a packed value: bit `i` belongs to lane `i / w`, and every bit from `n*w` on is 0. -/
theorem pack_getLsbD (e : Nat → BitVec w) (n i : Nat) (hw : 0 < w) :
    (pack w e n).getLsbD i = (decide (i < 512) && decide (i < n * w) && (e (i / w)).getLsbD (i % w)) := by
  induction n with
  | zero => simp [pack]
  | succ n ih =>
    simp only [pack, BitVec.getLsbD_or, BitVec.getLsbD_shiftLeft, BitVec.getLsbD_setWidth, ih]
    by_cases h512 : i < 512
    · have hm : (n + 1) * w = n * w + w := by ring
      rcases Nat.lt_or_ge i (n * w) with h | h
      · have : i < (n + 1) * w := by omega
        simp [h512, h, this]
      · rcases Nat.lt_or_ge i ((n + 1) * w) with h' | h'
        · have hdiv : i / w = n := by
            rw [Nat.div_eq_iff hw]; constructor <;> omega
          have hmod : i % w = i - n * w := by
            have := Nat.div_add_mod i w
            rw [hdiv, Nat.mul_comm] at this
            omega
          have hlt : i - n * w < 512 := by omega
          simp [h512, Nat.not_lt.2 h, h', hdiv, hmod, hlt]
        · have : w ≤ i - n * w := by omega
          simp [h512, Nat.not_lt.2 h, Nat.not_lt.2 h', BitVec.getLsbD_of_ge _ _ this]
    · simp [h512]

/-- Lane `j` of `pack_w(e_0, ..., e_{n-1})` is `e_j` (00_scope.md R15). -/
theorem lane_pack (e : Nat → BitVec w) {n j : Nat} (hj : j < n) (hn : n * w ≤ 512) : lane w (pack w e n) j = e j := by
  apply BitVec.eq_of_getLsbD_eq
  intro i hi
  have hjn : j * w + w ≤ n * w := by
    have := Nat.mul_le_mul_right w hj
    rwa [Nat.succ_mul] at this
  have hdiv : (j * w + i) / w = j := by
    rw [Nat.div_eq_iff (by omega)]; constructor <;> omega
  have hmod : (j * w + i) % w = i := by
    rw [Nat.add_comm, Nat.add_mul_mod_self_right, Nat.mod_eq_of_lt hi]
  have h512 : j * w + i < 512 := by omega
  have hnw : j * w + i < n * w := by omega
  rw [lane, BitVec.getLsbD_extractLsb', pack_getLsbD e n _ (by omega), hdiv, hmod]
  simp only [hi, h512, hnw, decide_true, Bool.true_and]

/-- A value of `n` lanes is below `2^(n*w)`: every bit above the vector length is 0. -/
theorem pack_lt (e : Nat → BitVec w) (n : Nat) (hw : 0 < w) : (pack w e n).toNat < 2 ^ (n * w) := by
  refine Nat.lt_pow_two_of_testBit _ fun i hi => ?_
  rw [← BitVec.getLsbD, pack_getLsbD e n i hw]
  simp [Nat.not_lt.2 hi]

/-- Packing depends only on the lanes it packs. -/
theorem pack_congr {e f : Nat → BitVec w} {n : Nat} (h : ∀ j, j < n → e j = f j) : pack w e n = pack w f n := by
  induction n with
  | zero => rfl
  | succ n ih => rw [pack, pack, ih fun j hj => h j (by omega), h n (by omega)]

/-- The minimum is one of the two lanes (R14). -/
theorem umin_eq_or (a b : BitVec w) : umin a b = a ∨ umin a b = b := by
  unfold umin; split <;> simp

theorem umin_toNat (a b : BitVec w) : (umin a b).toNat = min a.toNat b.toNat := by
  unfold umin
  split <;> rename_i h <;> simp only [BitVec.ult, decide_eq_true_eq] at h <;> omega

/-- Bits 127:0 of a legacy-128 write come from the result, the bits above from the old value (10_state.md R22). -/
theorem keepUpper128_getLsbD (old r : Vec) (i : Nat) :
    (keepUpper128 old r).getLsbD i = if i < 128 then r.getLsbD i else old.getLsbD i := by
  unfold keepUpper128
  rw [BitVec.getLsbD_append]
  split
  · simp_all
  · rename_i h
    rcases Nat.lt_or_ge i 512 with h' | h'
    · have h1 : i - 128 < 384 := by omega
      have h2 : 128 + (i - 128) = i := by omega
      simp [h1, h2]
    · have h1 : ¬ i - 128 < 384 := by omega
      simp [h1, BitVec.getLsbD_of_ge old i h']

/-- Every bit of a packed value from its last lane on is 0 (00_scope.md R15). -/
theorem pack_getLsbD_high (e : Nat → BitVec w) {n b : Nat} (hw : 0 < w) (h : n * w ≤ b) : (pack w e n).getLsbD b = false := by
  rw [pack_getLsbD e n b hw]; simp [Nat.not_lt.2 h]

theorem lane_minLanes {n j : Nat} (a b : Vec) (hj : j < n) (hn : n * w ≤ 512) :
    lane w (minLanes w n a b) j = umin (lane w a j) (lane w b j) :=
  lane_pack _ hj hn

theorem lane_maskedMinLanes {n j : Nat} (active : Nat → Bool) (zeroing : Bool) (d a b : Vec) (hj : j < n) (hn : n * w ≤ 512) :
    lane w (maskedMinLanes w n active zeroing d a b) j
      = if active j then umin (lane w a j) (lane w b j) else if zeroing then 0 else lane w d j :=
  lane_pack _ hj hn

theorem lane_bcast {n j : Nat} (e : BitVec w) (hj : j < n) (hn : n * w ≤ 512) : lane w (bcast w e n) j = e :=
  lane_pack _ hj hn

/-- The four dword lanes of a legacy-128 write are the result's (10_state.md R22). -/
theorem lane_keepUpper128 (old r : Vec) {j : Nat} (hj : j < 4) : lane 32 (keepUpper128 old r) j = lane 32 r j := by
  apply BitVec.eq_of_getLsbD_eq
  intro i hi
  simp only [lane, BitVec.getLsbD_extractLsb', hi, decide_true, Bool.true_and]
  rw [keepUpper128_getLsbD, if_pos (by omega)]

/-- Values with equal lanes have equal bits below the last lane. -/
theorem getLsbD_eq_of_lanes {n : Nat} (hw : 0 < w) {a b : Vec} (h : ∀ j, j < n → lane w a j = lane w b j) {i : Nat} (hi : i < n * w) :
    a.getLsbD i = b.getLsbD i := by
  have hj : i / w < n := Nat.div_lt_of_lt_mul (by rw [Nat.mul_comm]; exact hi)
  have hl := congrArg (·.getLsbD (i % w)) (h _ hj)
  simp only [lane, BitVec.getLsbD_extractLsb', Nat.mod_lt _ hw, decide_true, Bool.true_and] at hl
  have e : i / w * w + i % w = i := Nat.div_add_mod' i w
  rwa [e] at hl

end Sys2Proof.Machine
end

