-- ==== Sys2Proof/Laws/State.lean ====
section
/-! SUPPORT. One lemma per field per update of State, so that no proof unfolds a record update. -/

namespace Sys2Proof.Machine

variable (s : State) (d n : BitVec 5) (v : Vec) (len : Nat) (bs : List Byte)

/-! ### State.complete -/

@[simp] theorem State.complete_cfg : (s.complete d v len).cfg = s.cfg := rfl
@[simp] theorem State.complete_k : (s.complete d v len).k = s.k := rfl
@[simp] theorem State.complete_x : (s.complete d v len).x = s.x := rfl
@[simp] theorem State.complete_pc : (s.complete d v len).pc = s.pc + BitVec.ofNat 64 len := rfl
@[simp] theorem State.complete_rflags : (s.complete d v len).rflags = s.rflags := rfl
@[simp] theorem State.complete_mxcsr : (s.complete d v len).mxcsr = s.mxcsr := rfl
@[simp] theorem State.complete_cr2 : (s.complete d v len).cr2 = s.cr2 := rfl
@[simp] theorem State.complete_mem : (s.complete d v len).mem = s.mem := rfl
@[simp] theorem State.complete_z : (s.complete d v len).z = s.z.set d.toNat v d.isLt := rfl
@[simp] theorem State.complete_opmask (i : BitVec 3) : (s.complete d v len).opmask i = s.opmask i := rfl
@[simp] theorem State.complete_gpr (i : BitVec 4) : (s.complete d v len).gpr i = s.gpr i := rfl

@[simp] theorem State.complete_vec_same : (s.complete d v len).vec d = v := by
  simp [State.vec]

theorem State.complete_vec_other (h : n ≠ d) : (s.complete d v len).vec n = s.vec n := by
  have hne : d.toNat ≠ n.toNat := fun he => h (BitVec.eq_of_toNat_eq he.symm)
  simp [State.vec, hne]

/-! ### placeAtPc -/

@[simp] theorem placeAtPc_cfg : (placeAtPc s bs).cfg = s.cfg := rfl
@[simp] theorem placeAtPc_z : (placeAtPc s bs).z = s.z := rfl
@[simp] theorem placeAtPc_k : (placeAtPc s bs).k = s.k := rfl
@[simp] theorem placeAtPc_x : (placeAtPc s bs).x = s.x := rfl
@[simp] theorem placeAtPc_pc : (placeAtPc s bs).pc = s.pc := rfl
@[simp] theorem placeAtPc_rflags : (placeAtPc s bs).rflags = s.rflags := rfl
@[simp] theorem placeAtPc_mxcsr : (placeAtPc s bs).mxcsr = s.mxcsr := rfl
@[simp] theorem placeAtPc_cr2 : (placeAtPc s bs).cr2 = s.cr2 := rfl
@[simp] theorem placeAtPc_mem : (placeAtPc s bs).mem = s.mem.writeBytes s.pc.toNat bs := rfl

end Sys2Proof.Machine
end

