-- ==== Sys2Proof/Laws/Operations.lean ====
section
/-! SUPPORT. What each shared operation can do, said once: the shape of a form, raising an exception, the access check, readiness. -/

namespace Sys2Proof.Machine

/-! ### Raising -/

/-- Raising an exception ends the run in a fault that names the instruction's own address (60_exceptions.md R149). -/
theorem raise_eq_fault (e : Exc) (s : State) : ∃ f, raise e s = .fault f ∧ f.savedPc = s.pc := by
  cases e <;> exact ⟨_, rfl, rfl⟩

theorem raise_ne_next (e : Exc) (s t : State) : raise e s ≠ .next t := by cases e <;> simp [raise]

theorem stopOutcome_ne_next (st : Stop) (s t : State) : stopOutcome st s ≠ .next t := by
  cases st
  · exact raise_ne_next _ _ _
  · simp [stopOutcome]

theorem raise_fault {e : Exc} {s : State} {f : Fault} (h : raise e s = .fault f) : f.savedPc = s.pc := by
  obtain ⟨g, hg, hpc⟩ := raise_eq_fault e s
  rw [hg] at h
  cases h
  exact hpc

theorem stopOutcome_fault {st : Stop} {s : State} {f : Fault} (h : stopOutcome st s = .fault f) : f.savedPc = s.pc := by
  cases st
  · exact raise_fault h
  · simp [stopOutcome] at h

/-! ### The shape of a form (60_exceptions.md R148) -/

variable {s t : State} {ud : Bool} {stop : Option Stop} {d : BitVec 5} {v : Vec} {len : Nat}

/-- A form that answers next met no condition of R148 and has written its destination and `pc`. -/
theorem runForm_next (h : runForm s ud stop d v len = .next t) :
    ud = false ∧ s.cfg.env.ts = false ∧ stop = none ∧ t = s.complete d v len := by
  unfold runForm at h
  split at h
  · exact absurd h (raise_ne_next _ _ _)
  · split at h
    · exact absurd h (raise_ne_next _ _ _)
    · split at h
      · exact absurd h (stopOutcome_ne_next _ _ _)
      · cases h
        simp_all

/-- A form completes when no condition of R148 holds. -/
theorem runForm_completes (hud : ud = false) (hts : s.cfg.env.ts = false) (hstop : stop = none) :
    runForm s ud stop d v len = .next (s.complete d v len) := by
  simp [runForm, hud, hts, hstop]

theorem runForm_ud (hud : ud = true) : runForm s ud stop d v len = .fault (.ud s.pc) := by
  simp [runForm, hud, raise]

theorem runForm_nm (hud : ud = false) (hts : s.cfg.env.ts = true) : runForm s ud stop d v len = .fault (.nm s.pc) := by
  simp [runForm, hud, hts, raise]

theorem runForm_stop {st : Stop} (hud : ud = false) (hts : s.cfg.env.ts = false) (hstop : stop = some st) :
    runForm s ud stop d v len = stopOutcome st s := by
  simp [runForm, hud, hts, hstop]

/-- A fault of a form names the form's own address (R149). -/
theorem runForm_fault {f : Fault} (h : runForm s ud stop d v len = .fault f) : f.savedPc = s.pc := by
  unfold runForm at h
  split at h
  · exact raise_fault h
  · split at h
    · exact raise_fault h
    · split at h
      · exact stopOutcome_fault h
      · cases h

/-- What completing leaves unchanged (10_state.md R25). -/
theorem complete_sameButDest (s : State) (d : BitVec 5) (v : Vec) (len : Nat) : sameButDest d s (s.complete d v len) :=
  ⟨fun n hn => State.complete_vec_other s d n v len hn, rfl, rfl, rfl, rfl, rfl, rfl, fun _ => rfl⟩

/-! ### The access check (20_memory.md R52) -/

/-- The picked page fault is absent exactly when there is none. -/
theorem pick_eq_none_iff {α : Type} (l : List α) (n : Nat) : l[n % l.length]? = none ↔ l = [] := by
  cases l with
  | nil => simp
  | cons a as =>
    have : n % (a :: as).length < (a :: as).length := Nat.mod_lt _ (by simp)
    simp only [List.getElem?_eq_none_iff, reduceCtorEq, iff_false]
    omega

/-- No needed byte page-faults. -/
theorem pageFaults_eq_nil_iff (c : Platform) (ea : Addr) (n : Nat) (needed : Nat → Bool) :
    pageFaults c ea n needed = [] ↔ ∀ k < n, needed k = true → pageFaultAt c (byteAddr c.mode ea k) = none := by
  simp only [pageFaults, List.filterMap_eq_nil_iff, List.mem_range]
  refine forall₂_congr fun k _ => ?_
  cases needed k <;> simp

/-- Every listed page fault is that of a needed byte, and every needed byte that page-faults is listed (60_exceptions.md R147). -/
theorem mem_pageFaults (c : Platform) (ea : Addr) (n : Nat) (needed : Nat → Bool) (p : BitVec 32 × Addr) :
    p ∈ pageFaults c ea n needed ↔
      ∃ k < n, needed k = true ∧ pageFaultAt c (byteAddr c.mode ea k) = some p.1 ∧ p.2 = byteAddr c.mode ea k := by
  simp only [pageFaults, List.mem_filterMap, List.mem_range]
  constructor
  · rintro ⟨k, hk, h⟩
    cases hn : needed k
    · simp [hn] at h
    · simp only [hn, if_true, Option.map_eq_some_iff] at h
      obtain ⟨code, hc, rfl⟩ := h
      exact ⟨k, hk, hn, hc, rfl⟩
  · rintro ⟨k, hk, hn, hc, ha⟩
    refine ⟨k, hk, ?_⟩
    simp [hn, ← ha, ha ▸ hc]

/-- An entry of the environment is the value of `Access` for the operand read whole. -/
theorem access_of_whole {c : Platform} {ea : Addr} {n : Nat} {needed : Nat → Bool} {r : Access} (h : accessWhole c ea n needed = some r) :
    access c ea n needed = r := by
  simp [access, h]

theorem access_of_bytes {c : Platform} {ea : Addr} {n : Nat} {needed : Nat → Bool} (h : accessWhole c ea n needed = none) :
    access c ea n needed = accessByBytes c ea n needed := by
  simp [access, h]

/-- Byte by byte, `Access` is `Ok` exactly when no needed byte is in a segmentation or page region. -/
theorem accessByBytes_eq_ok_iff (c : Platform) (ea : Addr) (n : Nat) (needed : Nat → Bool) :
    accessByBytes c ea n needed = .ok ↔
      ∀ k < n, needed k = true → segRegionAt c (byteAddr c.mode ea k) = false ∧ pageFaultAt c (byteAddr c.mode ea k) = none := by
  have hseg : (List.range n).any (fun k => needed k && segRegionAt c (byteAddr c.mode ea k)) = false
      ↔ ∀ k < n, needed k = true → segRegionAt c (byteAddr c.mode ea k) = false := by simp
  unfold accessByBytes
  split
  · rename_i h
    simp only [reduceCtorEq, false_iff]
    intro hall
    rw [hseg.2 fun k hk hn => (hall k hk hn).1] at h
    cases h
  · rename_i h
    rw [Bool.not_eq_true, hseg] at h
    split
    · rename_i code a hp
      simp only [reduceCtorEq, false_iff]
      intro hall
      rw [(pick_eq_none_iff _ _).2 ((pageFaults_eq_nil_iff c ea n needed).2 fun k hk hn => (hall k hk hn).2)] at hp
      cases hp
    · rename_i hp
      rw [pick_eq_none_iff, pageFaults_eq_nil_iff] at hp
      exact ⟨fun _ k hk hn => ⟨h k hk hn, hp k hk hn⟩, fun _ => rfl⟩

/-- Without an entry for the operand the read faults nowhere exactly when every needed byte is accessible. -/
theorem accessOk_iff_of_bytes {c : Platform} {ea : Addr} {n : Nat} {needed : Nat → Bool} (h : accessWhole c ea n needed = none) :
    accessOk c ea n needed ↔ ∀ k < n, needed k = true → accessible c (byteAddr c.mode ea k) := by
  simp only [accessOk, canonicalOperand, accessible, segFaultAt, access_of_bytes h, accessByBytes_eq_ok_iff, Bool.or_eq_false_iff,
    Bool.not_eq_false']
  exact ⟨fun g k hk hn => ⟨⟨g.1 k hk hn, (g.2 k hk hn).1⟩, (g.2 k hk hn).2⟩,
    fun g => ⟨fun k hk hn => (g k hk hn).1.1, fun k hk hn => ⟨(g k hk hn).1.2, (g k hk hn).2⟩⟩⟩

/-- The canonical check of an operand, as the access check makes it. -/
theorem anyNoncanonical_eq_false_iff (c : Platform) (ea : Addr) (n : Nat) (needed : Nat → Bool) :
    ((List.range n).any fun k => needed k && !canonical c (byteAddr c.mode ea k)) = false ↔ canonicalOperand c ea n needed := by
  simp [canonicalOperand]

/-- A needed byte that is not canonical stops the read before anything else does (60_exceptions.md R148). -/
theorem accessStop_noncanonical {c : Platform} (seg : Seg) {ea : Addr} {n k : Nat} {needed : Nat → Bool} (hk : k < n)
    (hn : needed k = true) (hf : canonical c (byteAddr c.mode ea k) = false) :
    accessStop c seg ea n needed = some (.exc (segExc seg)) := by
  have : ((List.range n).any fun k => needed k && !canonical c (byteAddr c.mode ea k)) = true :=
    List.any_eq_true.2 ⟨k, List.mem_range.2 hk, by simp [hn, hf]⟩
  simp [accessStop, this]

/-- For a canonical operand the read does what `Access` answers, and then what device memory asks (R52, R148; 20_memory.md R50). -/
theorem accessStop_of_canonical {c : Platform} (seg : Seg) {ea : Addr} {n : Nat} {needed : Nat → Bool} (h : canonicalOperand c ea n needed) :
    accessStop c seg ea n needed =
      match access c ea n needed with
      | .segmentation => some (.exc (segExc seg))
      | .page code a => some (.exc (.pf code a))
      | .ok => if (List.range n).any fun k => deviceAt c (byteAddr c.mode ea k) then some (.refuse .deviceOperand) else none := by
  unfold accessStop
  exact if_neg (by rw [(anyNoncanonical_eq_false_iff c ea n needed).2 h]; simp)

/-- The read depends on which bytes of the operand are needed, and on nothing of `needed` beyond it. -/
theorem accessStop_congr (c : Platform) (seg : Seg) (ea : Addr) {n : Nat} {needed needed' : Nat → Bool} (h : ∀ k < n, needed k = needed' k) :
    accessStop c seg ea n needed = accessStop c seg ea n needed' := by
  have hany (p : Nat → Bool) : ((List.range n).any fun k => needed k && p k) = (List.range n).any fun k => needed' k && p k := by
    rw [Bool.eq_iff_iff, List.any_eq_true, List.any_eq_true]
    exact exists_congr fun k => and_congr_right fun hk => by rw [h k (List.mem_range.1 hk)]
  have hall : (List.range n).all needed = (List.range n).all needed' := by
    rw [Bool.eq_iff_iff, List.all_eq_true, List.all_eq_true]
    exact forall₂_congr fun k hk => by rw [h k (List.mem_range.1 hk)]
  have hpage : pageFaults c ea n needed = pageFaults c ea n needed' :=
    List.filterMap_congr fun k hk => by rw [h k (List.mem_range.1 hk)]
  simp only [accessStop, access, accessWhole, accessByBytes, hany, hall, hpage]

/-- Nothing stops the read exactly when it faults nowhere and no byte is device memory. -/
theorem accessStop_eq_none_iff (c : Platform) (seg : Seg) (ea : Addr) (n : Nat) (needed : Nat → Bool) :
    accessStop c seg ea n needed = none ↔ readable c ea n needed := by
  have hdev : (∀ k, k < n → deviceAt c (byteAddr c.mode ea k) = false)
      ↔ ((List.range n).any fun k => deviceAt c (byteAddr c.mode ea k)) = false := by simp
  unfold readable accessOk
  by_cases hc : canonicalOperand c ea n needed
  · rw [accessStop_of_canonical seg hc, hdev]
    cases access c ea n needed <;> simp [hc]
  · simp only [hc, false_and, iff_false]
    rw [← anyNoncanonical_eq_false_iff, Bool.not_eq_false] at hc
    simp [accessStop, hc]

/-- A needed byte that segmentation or the canonical check rejects stops a read without an entry before anything else does (R148). -/
theorem accessStop_segmentation {c : Platform} (seg : Seg) {ea : Addr} {n k : Nat} {needed : Nat → Bool}
    (hw : accessWhole c ea n needed = none) (hk : k < n) (hn : needed k = true) (hf : segFaultAt c (byteAddr c.mode ea k) = true) :
    accessStop c seg ea n needed = some (.exc (segExc seg)) := by
  by_cases hc : canonicalOperand c ea n needed
  · have hr : segRegionAt c (byteAddr c.mode ea k) = true := by simpa [segFaultAt, hc k hk hn] using hf
    have : ((List.range n).any fun k => needed k && segRegionAt c (byteAddr c.mode ea k)) = true :=
      List.any_eq_true.2 ⟨k, List.mem_range.2 hk, by simp [hn, hr]⟩
    rw [accessStop_of_canonical seg hc, access_of_bytes hw]
    simp [accessByBytes, this]
  · rw [← anyNoncanonical_eq_false_iff, Bool.not_eq_false] at hc
    simp [accessStop, hc]

/-! ### Readiness and operands (70_reset_and_hazards.md R172) -/

theorem legUd_of_ready {c : Platform} (h : legReady c) : legUd c = false := by
  simp [legUd, h.1, h.2.1, h.2.2.1]

theorem avxStateEnabled_iff (e : Env) : avxStateEnabled e = true ↔ e.xcr0.getLsbD 1 = true ∧ e.xcr0.getLsbD 2 = true := by
  simp only [avxStateEnabled, beq_iff_eq]
  constructor
  · intro h
    have h0 := congrArg (·.getLsbD 0) h
    have h1 := congrArg (·.getLsbD 1) h
    simpa using And.intro h0 h1
  · rintro ⟨h1, h2⟩
    apply BitVec.eq_of_getLsbD_eq
    intro i hi
    interval_cases i <;> simp_all

theorem avx512StateEnabled_iff (e : Env) :
    avx512StateEnabled e = true ↔ e.xcr0.getLsbD 5 = true ∧ e.xcr0.getLsbD 6 = true ∧ e.xcr0.getLsbD 7 = true := by
  simp only [avx512StateEnabled, beq_iff_eq]
  constructor
  · intro h
    have h0 := congrArg (·.getLsbD 0) h
    have h1 := congrArg (·.getLsbD 1) h
    have h2 := congrArg (·.getLsbD 2) h
    simpa using And.intro h0 (And.intro h1 h2)
  · rintro ⟨h1, h2, h3⟩
    apply BitVec.eq_of_getLsbD_eq
    intro i hi
    interval_cases i <;> simp_all

theorem vexUd_of_ready {c : Platform} {present : Bool} {vl : Nat} (h : vexReady c present) (hvl : vl ≤ c.maxvl.bits) :
    vexUd c present vl = false := by
  obtain ⟨hp, ⟨hos, hx⟩, -⟩ := h
  have := (avxStateEnabled_iff c.env).2 hx
  simp [vexUd, hp, hos, this, hvl]

theorem evexUd_of_ready {c : Platform} {vl : Nat} (h : evexReady c vl) (hvl : vl ≤ c.maxvl.bits) : evexUd c vl = false := by
  obtain ⟨hf, hl, ⟨hos, hx⟩, hz, -⟩ := h
  have h1 := (avxStateEnabled_iff c.env).2 hx
  have h2 := (avx512StateEnabled_iff c.env).2 hz
  have h3 : evexPresent c.feat vl = true := by
    simp only [evexPresent, hf, Bool.true_and, Bool.or_eq_true, beq_iff_eq]; exact hl
  simp [evexUd, h1, h2, h3, hos, hvl]

theorem legStop_eq_none_iff (s : State) (o : LegOperands) : legStop s o = none ↔ legOperandOk s o := by
  unfold legStop legOperandOk
  split
  · split
    · simp_all
    · rw [accessStop_eq_none_iff]; simp_all
  · simp_all

theorem vexStop_eq_none_iff (s : State) (o : VexOperands) (n : Nat) : vexStop s o n = none ↔ vexOperandOk s o n := by
  unfold vexStop vexOperandOk
  split
  · rw [accessStop_eq_none_iff]; simp_all
  · simp_all

theorem evexStop_eq_none_iff (s : State) (o : EvexOperands) (w vl : Nat) :
    evexStop s o w vl = none ↔ evexOperandOk s o w vl := by
  unfold evexStop evexOperandOk
  split
  · rw [accessStop_eq_none_iff]; simp_all
  · simp_all

theorem evexReserved_eq_false_iff (o : EvexOperands) : evexReserved o = false ↔ evexLegal o := by
  unfold evexReserved evexLegal
  cases o.z <;> cases o.bc <;> simp

/-- Everything the access check can answer (60_exceptions.md R148; 20_memory.md R50). -/
theorem accessStop_cases (c : Platform) (seg : Seg) (ea : Addr) (n : Nat) (needed : Nat → Bool) :
    accessStop c seg ea n needed = none ∨ accessStop c seg ea n needed = some (.exc (segExc seg))
      ∨ (∃ code a, accessStop c seg ea n needed = some (.exc (.pf code a)))
      ∨ accessStop c seg ea n needed = some (.refuse .deviceOperand) := by
  unfold accessStop
  split
  · simp
  · split
    · simp
    · simp
    · split <;> simp

/-- The bits of a page-fault code (60_exceptions.md R143, R147). -/
theorem pfCode_bits (e : Env) (p r k : Bool) :
    (pfCode e p r k).getLsbD 0 = p ∧ (pfCode e p r k).getLsbD 1 = false ∧ (pfCode e p r k).getLsbD 2 = (e.cpl == 3)
      ∧ (pfCode e p r k).getLsbD 3 = r ∧ (pfCode e p r k).getLsbD 4 = false ∧ (pfCode e p r k).getLsbD 5 = k
      ∧ ∀ b, 6 ≤ b → (pfCode e p r k).getLsbD b = false := by
  unfold pfCode
  refine ⟨?_, ?_, ?_, ?_, ?_, ?_, fun b hb => ?_⟩
  iterate 6 cases p <;> cases r <;> cases k <;> cases (e.cpl == 3) <;> decide
  rw [BitVec.getLsbD_setWidth, BitVec.getLsbD_of_ge _ _ (by omega)]
  simp

theorem pageFaultAt_eq_some {c : Platform} {a : Addr} {code : BitVec 32} (h : pageFaultAt c a = some code) :
    ∃ p r k, code = pfCode c.env p r k := by
  unfold pageFaultAt at h
  obtain ⟨g, -, hg⟩ := List.exists_of_findSome?_eq_some h
  split at hg
  · split_ifs at hg
    cases hg
    exact ⟨_, _, _, rfl⟩
  · simp at hg

/-- Byte `k` of a memory operand (20_memory.md R43). -/
theorem lane_memRead (s : State) (ea : Addr) {n k : Nat} (hn : n ≤ 64) (hk : k < n) :
    lane 8 (s.memRead ea n) k = s.mem.read (byteAddr s.cfg.mode ea k).toNat :=
  lane_pack _ hk (by omega)

/-- When a VEX form raises `#UD`, for a vector length the processor has (60_exceptions.md R141, R144). -/
theorem vexUd_iff (c : Platform) {present : Bool} {vl : Nat} (hle : present = true → vl ≤ c.maxvl.bits) :
    vexUd c present vl = true ↔ present = false ∨ ¬avxEnabled c.env := by
  simp only [avxEnabled, ← avxStateEnabled_iff]
  cases present
  · simp [vexUd]
  · simp only [vexUd, Nat.not_lt.2 (hle rfl)]
    cases c.env.osxsave <;> cases avxStateEnabled c.env <;> simp

/-- When an EVEX form raises `#UD`, for a vector length the processor has (60_exceptions.md R142, R144). -/
theorem evexUd_iff (c : Platform) (o : EvexOperands) {vl : Nat} (hle : evexPresent c.feat vl = true → vl ≤ c.maxvl.bits) :
    (evexUd c vl || evexReserved o) = true
      ↔ evexPresent c.feat vl = false ∨ (¬avxEnabled c.env ∨ ¬avx512Enabled c.env) ∨ ¬evexLegal o := by
  simp only [avxEnabled, avx512Enabled, ← avxStateEnabled_iff, ← avx512StateEnabled_iff, ← evexReserved_eq_false_iff]
  cases hp : evexPresent c.feat vl
  · simp [evexUd, hp]
  · simp only [evexUd, hp, Nat.not_lt.2 (hle hp)]
    cases c.env.osxsave <;> cases avxStateEnabled c.env <;> cases avx512StateEnabled c.env <;> cases evexReserved o <;> simp

end Sys2Proof.Machine
end

