-- ==== Sys2Proof/Laws/Exec.lean ====
section
/-! SUPPORT. What an instruction can do: one inversion lemma for exec, one for a fault of exec. -/

namespace Sys2Proof.Machine

/-- An instruction that answers next has written its destination register and moved `pc` by its length (10_state.md R25, R32). -/
theorem exec_next {i : Instr} {s t : State} (h : exec i s = .next t) : ∃ v, t = s.complete (destOf i) v i.len := by
  cases i <;> exact ⟨_, (runForm_next h).2.2.2⟩

/-- A fault of an instruction names the instruction's own address (60_exceptions.md R149). -/
theorem exec_fault {i : Instr} {s : State} {f : Fault} (h : exec i s = .fault f) : f.savedPc = s.pc := by
  cases i <;> exact runForm_fault h

/-! ### The one shape of exec -/

/-- The `#UD` test of the form. -/
def formUd (s : State) : Instr → Bool
  | .pminudSse128 _ => legUd s.cfg
  | .vpminudVex128 _ => vexUd s.cfg s.cfg.feat.avx 128
  | .vpminudVex256 _ => vexUd s.cfg s.cfg.feat.avx2 256
  | .vpminudEvex128 o => evexUd s.cfg 128 || evexReserved o
  | .vpminudEvex256 o => evexUd s.cfg 256 || evexReserved o
  | .vpminudEvex512 o => evexUd s.cfg 512 || evexReserved o
  | .vpminuqEvex128 o => evexUd s.cfg 128 || evexReserved o
  | .vpminuqEvex256 o => evexUd s.cfg 256 || evexReserved o
  | .vpminuqEvex512 o => evexUd s.cfg 512 || evexReserved o

/-- What stops the operand read of the form. -/
def formStop (s : State) (i : Instr) : Option Stop :=
  if hasMem i = true then
    if isLegacy i = true ∧ (opAddr s i).toNat % 16 ≠ 0 then some (.exc .gp)
    else accessStop s.cfg (operandSeg (pfxOf i) (rmOf i)) (opAddr s i) (opBytes i) (opNeeded s i)
  else none

/-- The value the form writes to its destination register. -/
def formValue (s : State) (i : Instr) : Vec :=
  match evexParts i with
  | some (o, w, vl) => maskedMinLanes w (vl / w) (laneActive s o.aaa) o.z (s.vec o.d) (s.vec o.s1) (evexSource2 s o w vl)
  | none =>
    if isLegacy i then keepUpper128 (s.vec (destOf i)) (minLanes 32 4 (s.vec (destOf i)) (secondSource s i))
    else minLanes 32 (vlOf i / 32) (s.vec (s1Of i)) (secondSource s i)

/-- Every instruction is the shared shape of R148 with its own test, stop and value. -/
theorem exec_eq_runForm (i : Instr) (s : State) :
    exec i s = runForm s (formUd s i) (formStop s i) (destOf i) (formValue s i) i.len := by
  have hstop : formStop s i = match i with
      | .pminudSse128 o => legStop s o
      | .vpminudVex128 o => vexStop s o 16
      | .vpminudVex256 o => vexStop s o 32
      | .vpminudEvex128 o => evexStop s o 32 128
      | .vpminudEvex256 o => evexStop s o 32 256
      | .vpminudEvex512 o => evexStop s o 32 512
      | .vpminuqEvex128 o => evexStop s o 64 128
      | .vpminuqEvex256 o => evexStop s o 64 256
      | .vpminuqEvex512 o => evexStop s o 64 512 := by
    cases i <;>
      simp only [formStop, legStop, vexStop, evexStop, hasMem, isLegacy, opAddr, opBytes, pfxOf, rmOf, evexParts, disp8Scale, vlOf,
        Instr.len, evexAddr, Bool.false_eq_true, false_and, true_and, if_false] <;>
      rfl
  rw [hstop]
  cases i <;>
    first
      | rfl
      | simp only [exec, execPminudSse128, execVpminudVex128, execVpminudVex256, vexMin, formValue, evexParts, isLegacy, if_true, if_false,
          Bool.false_eq_true, secondSource, pfxOf, rmOf, vlOf, Instr.len, destOf, s1Of, formUd]

end Sys2Proof.Machine
end

