-- ==== Sys2Proof/Laws/Memory.lean ====
section
/-! SUPPORT. Read after write, and that every memory operation keeps the canonical form. -/

namespace Sys2Proof.Machine

@[simp] theorem Memory.read_nil (a : Nat) : Memory.read [] a = 0 := rfl

theorem Memory.wf_nil : Memory.wf [] := by simp [Memory.wf]

/-- A canonical list's tail is canonical, and its head stands strictly below the tail's addresses. -/
theorem Memory.wf_cons {c : Host.Cell} {m : Memory} :
    Memory.wf (c :: m) ↔ (∀ e ∈ m, c.1 < e.1) ∧ c.2 ≠ 0 ∧ c.1 < 2 ^ 64 ∧ Memory.wf m := by
  constructor
  · rintro ⟨hp, he⟩
    rw [List.pairwise_cons] at hp
    exact ⟨hp.1, (he c (by simp)).1, (he c (by simp)).2, hp.2, fun e h => he e (by simp [h])⟩
  · rintro ⟨hlt, hv, ha, hp, he⟩
    exact ⟨List.pairwise_cons.2 ⟨hlt, hp⟩, by rintro e (_ | ⟨_, h⟩); exacts [⟨hv, ha⟩, he e h]⟩

/-- An address below every listed one reads 0. -/
theorem Memory.read_below {m : Memory} {a : Nat} (h : ∀ e ∈ m, a < e.1) : m.read a = 0 := by
  induction m with
  | nil => rfl
  | cons c m ih =>
    have hc : c.1 ≠ a := Nat.ne_of_gt (h c (by simp))
    simp only [Memory.read, hc, if_false]
    exact ih fun e he => h e (by simp [he])

theorem Memory.mem_write {m : Memory} {a : Nat} {v : Byte} {e : Host.Cell} (h : e ∈ m.write a v) :
    e = (a, v) ∧ v ≠ 0 ∨ e ∈ m := by
  induction m with
  | nil =>
    by_cases hv : v = 0 <;> simp_all [Memory.write]
  | cons c m ih =>
    obtain ⟨b, u⟩ := c
    simp only [Memory.write] at h
    split at h
    · split at h <;> simp_all
    · split at h
      · split at h <;> simp_all
        tauto
      · simp only [List.mem_cons] at h ⊢
        rcases h with rfl | h
        · simp
        · rcases ih h with h | h
          exacts [.inl h, .inr (.inr h)]

/-- A write keeps the canonical form. -/
theorem Memory.write_wf {m : Memory} {a : Nat} {v : Byte} (hm : m.wf) (ha : a < 2 ^ 64) : (m.write a v).wf := by
  induction m with
  | nil => by_cases hv : v = 0 <;> simp_all [Memory.write, Memory.wf]
  | cons c m ih =>
    obtain ⟨b, u⟩ := c
    obtain ⟨hlt, hu, hb, hm⟩ := Memory.wf_cons.1 hm
    simp only [Memory.write]
    split_ifs with h1 h2 h3 h4
    · exact Memory.wf_cons.2 ⟨hlt, hu, hb, hm⟩
    · refine Memory.wf_cons.2 ⟨?_, h2, ha, Memory.wf_cons.2 ⟨hlt, hu, hb, hm⟩⟩
      rintro e (_ | ⟨_, he⟩)
      exacts [h1, Nat.lt_trans h1 (hlt e he)]
    · assumption
    · subst h3
      exact Memory.wf_cons.2 ⟨hlt, h4, ha, by assumption⟩
    · refine Memory.wf_cons.2 ⟨fun e he => ?_, hu, hb, ih hm⟩
      rcases Memory.mem_write he with ⟨rfl, -⟩ | he
      exacts [by dsimp only at *; omega, hlt e he]

/-- Placing bytes keeps the canonical form while they lie below 2^64. -/
theorem Memory.writeBytes_wf {m : Memory} {a : Nat} {bs : List Byte} (hm : m.wf) (ha : a + bs.length ≤ 2 ^ 64) :
    (m.writeBytes a bs).wf := by
  induction bs generalizing m a with
  | nil => exact hm
  | cons b bs ih =>
    simp only [List.length_cons] at ha
    exact ih (Memory.write_wf hm (by omega)) (by omega)

/-- Reading the byte just written gives the value written. -/
theorem Memory.read_write_same {m : Memory} (hm : m.wf) (a : Nat) (v : Byte) : (m.write a v).read a = v := by
  induction m with
  | nil => simp only [Memory.write]; split_ifs with hv <;> simp [Memory.read, hv]
  | cons c m ih =>
    obtain ⟨b, u⟩ := c
    obtain ⟨hlt, hu, hb, hm⟩ := Memory.wf_cons.1 hm
    simp only [Memory.write]
    split_ifs with h1 h2 h3 h4
    · rw [Memory.read_below, h2]
      rintro e (_ | ⟨_, he⟩)
      exacts [h1, Nat.lt_trans h1 (hlt e he)]
    · simp [Memory.read]
    · subst h3
      rw [Memory.read_below hlt, h4]
    · simp [Memory.read]
    · simp [Memory.read, Ne.symm h3, ih hm]

/-- A write leaves every other byte alone. -/
theorem Memory.read_write_other {m : Memory} {a a' : Nat} (v : Byte) (h : a' ≠ a) : (m.write a v).read a' = m.read a' := by
  induction m with
  | nil => simp only [Memory.write]; split_ifs <;> simp [Memory.read, h.symm]
  | cons c m ih =>
    obtain ⟨b, u⟩ := c
    simp only [Memory.write]
    split_ifs with h1 h2 h3 h4
    · rfl
    · simp [Memory.read, h.symm]
    · subst h3; simp [Memory.read, h.symm]
    · subst h3; simp [Memory.read, h.symm]
    · simp only [Memory.read, ih]

@[simp] theorem Memory.readBytes_length (m : Memory) (a n : Nat) : (m.readBytes a n).length = n := by
  induction n generalizing a with
  | zero => rfl
  | succ n ih => simp [Memory.readBytes, ih]

theorem Memory.read_writeBytes_below (m : Memory) (bs : List Byte) {a b : Nat} (h : b < a) : (m.writeBytes a bs).read b = m.read b := by
  induction bs generalizing m a with
  | nil => rfl
  | cons c cs ih => simp only [Memory.writeBytes]; rw [ih _ (by omega), Memory.read_write_other _ (by omega)]

/-- Bytes that were stored are read back, whatever follows them. -/
theorem Memory.readBytes_writeBytes {m : Memory} {a n : Nat} {bs : List Byte} (hm : m.wf) (ha : a + bs.length ≤ 2 ^ 64)
    (hn : bs.length ≤ n) : ∃ rest, (m.writeBytes a bs).readBytes a n = bs ++ rest := by
  induction bs generalizing m a n with
  | nil => exact ⟨_, rfl⟩
  | cons c cs ih =>
    cases n with
    | zero => simp at hn
    | succ n =>
      simp only [List.length_cons] at ha hn
      obtain ⟨rest, hr⟩ := ih (n := n) (m := m.write a c) (a := a + 1) (Memory.write_wf hm (by omega)) (by omega) (by omega)
      refine ⟨rest, ?_⟩
      simp only [Memory.writeBytes, Memory.readBytes, hr]
      rw [Memory.read_writeBytes_below _ _ (by omega), Memory.read_write_same hm, List.cons_append]

theorem Memory.getElem?_readBytes (m : Memory) (a : Nat) {n k : Nat} (hk : k < n) : (m.readBytes a n)[k]? = some (m.read (a + k)) := by
  induction n generalizing a k with
  | zero => omega
  | succ n ih =>
    cases k with
    | zero => rfl
    | succ k => simp only [Memory.readBytes, List.getElem?_cons_succ]; rw [ih _ (by omega)]; congr 2; omega

end Sys2Proof.Machine
end

