-- ==== Sys2Proof/Laws/PerInstr.lean ====
section
/-! SUPPORT. Families of statements made once per instruction. -/

namespace Sys2Proof.Laws

/-- The length `ilen` of an instruction is the number of its bytes, prefixes included (30_encoding.md R83). -/
def EncodedLength.Statement (i : Instr) : Prop := (encode i).length = i.len

theorem EncodedLength.pminudSse128 (o : LegOperands) : EncodedLength.Statement (.pminudSse128 o) := encodeLeg_length o
theorem EncodedLength.vpminudVex128 (o : VexOperands) : EncodedLength.Statement (.vpminudVex128 o) := encodeVex_length _ o
theorem EncodedLength.vpminudVex256 (o : VexOperands) : EncodedLength.Statement (.vpminudVex256 o) := encodeVex_length _ o
theorem EncodedLength.vpminudEvex128 (o : EvexOperands) : EncodedLength.Statement (.vpminudEvex128 o) := encodeEvex_length _ _ o
theorem EncodedLength.vpminudEvex256 (o : EvexOperands) : EncodedLength.Statement (.vpminudEvex256 o) := encodeEvex_length _ _ o
theorem EncodedLength.vpminudEvex512 (o : EvexOperands) : EncodedLength.Statement (.vpminudEvex512 o) := encodeEvex_length _ _ o
theorem EncodedLength.vpminuqEvex128 (o : EvexOperands) : EncodedLength.Statement (.vpminuqEvex128 o) := encodeEvex_length _ _ o
theorem EncodedLength.vpminuqEvex256 (o : EvexOperands) : EncodedLength.Statement (.vpminuqEvex256 o) := encodeEvex_length _ _ o
theorem EncodedLength.vpminuqEvex512 (o : EvexOperands) : EncodedLength.Statement (.vpminuqEvex512 o) := encodeEvex_length _ _ o

end Sys2Proof.Laws
end

