-- ==== Sys2Proof/Laws/Step.lean ====
section
/-! SUPPORT. What a step and a run can do. -/

namespace Sys2Proof.Machine

/-- A step that answers next ran a decoded instruction (30_encoding.md R83). -/
theorem step_next {s t : State} (h : step s = .next t) :
    ∃ i rest, decode s.cfg.mode (fetchBytes s) = .instr i rest ∧ exec i s = .next t := by
  unfold step at h
  split at h
  · rename_i i rest hd
    exact ⟨i, rest, hd, h⟩
  · exact absurd h (raise_ne_next _ _ _)
  · simp at h

/-- A fault of a step names the `pc` it was taken at (60_exceptions.md R149). -/
theorem step_fault {s : State} {f : Fault} (h : step s = .fault f) : f.savedPc = s.pc := by
  unfold step at h
  split at h
  · exact exec_fault h
  · exact raise_fault h
  · simp at h

@[simp] theorem fetchBytes_length (s : State) : (fetchBytes s).length = min (s.mem.length + 15) (fetchLimit s.cfg - s.pc.toNat) := by
  simp [fetchBytes, ilenMax]

/-- The state a run ended or stands in. -/
def RunEnd.state : RunEnd → State
  | .finished t => t
  | .unfinished t => t
  | .faulted _ t => t
  | .refused _ t => t

theorem runReaches_iff (top n : Nat) (s t : State) : runReaches top n s t ↔ (runTo top n s).state = t := by
  unfold runReaches
  cases h : runTo top n s <;> simp [RunEnd.state]

/-- A property that every completed step keeps holds wherever a run ends. -/
theorem runTo_induction (p : State → Prop) (top : Nat) (hstep : ∀ s t, p s → step s = .next t → p t) (n : Nat) {s : State} (h : p s) :
    p (runTo top n s).state := by
  induction n generalizing s with
  | zero => simp only [runTo]; split_ifs <;> exact h
  | succ n ih =>
    simp only [runTo]
    split_ifs
    · exact h
    · cases hs : step s with
      | next t => exact ih (hstep s t h hs)
      | fault f => exact h
      | refused r => exact h

end Sys2Proof.Machine
end

