-- ==== Sys2Proof/Tests/Slice0.lean ====
section
/-! SUPPORT. The model's own tests: ill-formed instructions, decoded words, one step per vector of 95_test_vectors.md, and for every
obligation with hypotheses a state and operands that meet them. -/

namespace Sys2Proof.Tests

/- One theorem after the other: each kernel evaluation below waits for the kernel's check of everything before it, so elaborated side by
side they would hold one thread, with its stack, each. -/
set_option Elab.async false

open Sys2Proof Sys2Proof.Machine

/-! ### WellFormed refuses (30_encoding.md R61 to R66, R69, R73, R81, R83) -/

def regRm (n : BitVec 3) : Rm := ⟨false, false, .reg n⟩
def raxRm : Rm := ⟨false, false, .base 0 .none⟩

/-- `PMINUD xmm1, xmm2`. -/
def legR : LegOperands := ⟨[.opSize], none, 1, regRm 2⟩
/-- `PMINUD xmm1, [rax]`. -/
def legM : LegOperands := ⟨[.opSize], none, 1, raxRm⟩
/-- `VPMINUD xmm1, xmm2, xmm3`, or ymm. -/
def vexR : VexOperands := ⟨[], false, 1, 2, regRm 3⟩
/-- `VPMINUD xmm1, xmm2, [rax]`, or ymm. -/
def vexM : VexOperands := ⟨[], false, 1, 2, raxRm⟩
/-- `xmm1, xmm2, xmm3`, or ymm, zmm, without a writemask. -/
def evexR : EvexOperands := ⟨[], 1, 2, false, false, 0, regRm 3⟩
/-- `xmm1 {k1}, xmm2, [rax]`, or ymm, zmm. -/
def evexM : EvexOperands := ⟨[], 1, 2, false, false, 1, raxRm⟩
/-- `xmm1 {k1}{z}, xmm2, [rax]{1toN}`, or ymm, zmm. -/
def evexB : EvexOperands := ⟨[], 1, 2, true, true, 1, raxRm⟩

theorem test_wf_accepts :
    legR.wf .m64 = true ∧ legM.wf .m32 = true ∧ vexR.wf .m32 = true ∧ vexM.wf .m64 = true ∧ evexR.wf .m32 = true ∧ evexB.wf .m64 = true := by decide
theorem test_wf_rm_announces_sib : (RmForm.base 4 .none).wf = false ∧ (RmForm.base 4 (.d8 0)).wf = false := by decide
theorem test_wf_rm_base5 : (RmForm.base 5 .none).wf = false ∧ (RmForm.sib 0 0 5 .none).wf = false := by decide
theorem test_wf_leg_needs_66 : ({ legR with pfx := [] } : LegOperands).wf .m64 = false := by decide
theorem test_wf_leg_high_register_needs_rex :
    ({ legR with d := 8 } : LegOperands).wf .m64 = false ∧ ({ legR with rm := ⟨false, true, .reg 2⟩ } : LegOperands).wf .m64 = false
      ∧ ({ legR with rm := ⟨true, false, .reg 2⟩ } : LegOperands).wf .m64 = false := by decide
theorem test_wf_leg_m32 :
    ({ legR with rexW := some false } : LegOperands).wf .m32 = false
      ∧ ({ legM with pfx := [.addrSize, .opSize] } : LegOperands).wf .m32 = false := by decide
theorem test_wf_leg_form : ({ legR with rm := ⟨false, false, .base 4 .none⟩ } : LegOperands).wf .m64 = false := by decide
theorem test_wf_leg_length : ({ legR with pfx := List.replicate 12 .opSize } : LegOperands).wf .m64 = false := by decide
theorem test_wf_vex_no_66 : ({ vexR with pfx := [.opSize] } : VexOperands).wf .m64 = false := by decide
theorem test_wf_vex_m32 :
    ({ vexR with d := 8 } : VexOperands).wf .m32 = false ∧ ({ vexR with s1 := 8 } : VexOperands).wf .m32 = false
      ∧ ({ vexR with rm := ⟨true, false, .reg 3⟩ } : VexOperands).wf .m32 = false
      ∧ ({ vexR with rm := ⟨false, true, .reg 3⟩ } : VexOperands).wf .m32 = false
      ∧ ({ vexM with pfx := [.addrSize] } : VexOperands).wf .m32 = false := by decide
theorem test_wf_vex_form : ({ vexR with rm := ⟨false, false, .sib 0 0 5 .none⟩ } : VexOperands).wf .m64 = false := by decide
theorem test_wf_vex_length : ({ vexR with pfx := List.replicate 11 (.seg .fs) } : VexOperands).wf .m64 = false := by decide
theorem test_wf_evex_no_66 : ({ evexR with pfx := [.opSize] } : EvexOperands).wf .m64 = false := by decide
theorem test_wf_evex_m32 :
    ({ evexR with d := 8 } : EvexOperands).wf .m32 = false ∧ ({ evexR with s1 := 16 } : EvexOperands).wf .m32 = false
      ∧ ({ evexR with rm := ⟨true, false, .reg 3⟩ } : EvexOperands).wf .m32 = false
      ∧ ({ evexR with rm := ⟨false, true, .reg 3⟩ } : EvexOperands).wf .m32 = false
      ∧ ({ evexM with pfx := [.addrSize] } : EvexOperands).wf .m32 = false := by decide
theorem test_wf_evex_reserved_combinations :
    ({ evexR with z := true } : EvexOperands).wf .m64 = false ∧ ({ evexR with bc := true } : EvexOperands).wf .m64 = false
      ∧ ({ evexM with z := true, bc := true } : EvexOperands).wf .m64 = true := by decide
theorem test_wf_evex_form : ({ evexR with rm := ⟨false, false, .base 5 .none⟩ } : EvexOperands).wf .m64 = false := by decide
theorem test_wf_evex_length : ({ evexR with pfx := List.replicate 10 (.seg .gs) } : EvexOperands).wf .m64 = false := by decide

/-! ### Words written out from the encodings, decoded (95_test_vectors.md section 4) -/

theorem test_decode_pminudSse128 :
    decode .m64 [0x66, 0x0F, 0x38, 0x3B, 0xCA] = .instr (.pminudSse128 legR) []
      ∧ decode .m64 [0x66, 0x0F, 0x38, 0x3B, 0x44, 0x8B, 0x10]
        = .instr (.pminudSse128 ⟨[.opSize], none, 0, ⟨false, false, .sib 2 1 3 (.d8 0x10)⟩⟩) [] := by decide
theorem test_decode_vpminudVex128 :
    decode .m64 [0xC4, 0xE2, 0x69, 0x3B, 0xCB] = .instr (.vpminudVex128 vexR) []
      ∧ decode .m64 [0xC4, 0xE2, 0xE9, 0x3B, 0xCB] = .instr (.vpminudVex128 { vexR with w := true }) [] := by decide
theorem test_decode_vpminudVex256 :
    decode .m64 [0xC4, 0xE2, 0x6D, 0x3B, 0x48, 0x20]
      = .instr (.vpminudVex256 ⟨[], false, 1, 2, ⟨false, false, .base 0 (.d8 0x20)⟩⟩) [] := by decide
theorem test_decode_vpminudEvex128 :
    decode .m64 [0x62, 0xF2, 0x6D, 0x89, 0x3B, 0xCB] = .instr (.vpminudEvex128 ⟨[], 1, 2, true, false, 1, regRm 3⟩) []
      ∧ decode .m64 [0x62, 0xF2, 0x6D, 0x18, 0x3B, 0x08] = .instr (.vpminudEvex128 ⟨[], 1, 2, false, true, 0, raxRm⟩) [] := by decide
theorem test_decode_vpminudEvex256 :
    decode .m64 [0x62, 0xF2, 0x6D, 0x2A, 0x3B, 0xCB] = .instr (.vpminudEvex256 ⟨[], 1, 2, false, false, 2, regRm 3⟩) [] := by decide
theorem test_decode_vpminudEvex512 :
    decode .m64 [0x62, 0xA2, 0x6D, 0x43, 0x3B, 0xCB]
      = .instr (.vpminudEvex512 ⟨[], 17, 18, false, false, 3, ⟨true, false, .reg 3⟩⟩) [] := by decide
theorem test_decode_vpminuqEvex128 :
    decode .m64 [0x62, 0xF2, 0xED, 0x08, 0x3B, 0xCB] = .instr (.vpminuqEvex128 evexR) [] := by decide
theorem test_decode_vpminuqEvex256 :
    decode .m64 [0x62, 0xF2, 0xED, 0x28, 0x3B, 0xCB] = .instr (.vpminuqEvex256 evexR) [] := by decide
theorem test_decode_vpminuqEvex512 :
    decode .m64 [0x62, 0xF2, 0xED, 0xD9, 0x3B, 0x48, 0x01]
      = .instr (.vpminuqEvex512 ⟨[], 1, 2, true, true, 1, ⟨false, false, .base 0 (.d8 1)⟩⟩) [] := by decide

/-- Encodings that R90 refuses by name, and those that raise `#UD` (probes P5 to P7). -/
theorem test_decode_rejects :
    decode .m64 [0x0F, 0x38, 0x3B, 0xCA] = .refused .noMandatoryPrefix
      ∧ decode .m64 [0xF3, 0x66, 0x0F, 0x38, 0x3B, 0xCA] = .refused .repPrefixOnLegacy
      ∧ decode .m64 [0x41, 0x66, 0x0F, 0x38, 0x3B, 0xCA] = .refused .misplacedRex
      ∧ decode .m32 [0x67, 0xC4, 0xE2, 0x69, 0x3B, 0x08] = .refused .addressSize16
      ∧ decode .m32 [0xC4, 0xC2, 0x69, 0x3B, 0xCB] = .refused .extensionBitsInM32
      ∧ decode .m32 [0xC4, 0x62, 0x69, 0x3B, 0xCB] = .refused .notInScope
      ∧ decode .m64 (List.replicate 11 0x66 ++ [0x0F, 0x38, 0x3B, 0xCA, 0x00]) = .instr (.pminudSse128 { legR with pfx := List.replicate 11 .opSize }) [0x00]
      ∧ decode .m64 (List.replicate 12 0x66 ++ [0x0F, 0x38, 0x3B, 0xCA]) = .refused .tooLong
      ∧ decode .m64 [0x66, 0xC4, 0xE2, 0x69, 0x3B, 0xCB] = .undefined .badPrefixBeforeVex
      ∧ decode .m64 [0x62, 0xFA, 0x6D, 0x48, 0x3B, 0xCB] = .undefined .evexReservedBits
      ∧ decode .m64 [0x62, 0xF2, 0x6D, 0x68, 0x3B, 0xCB] = .undefined .evexLength11 := by decide

/-- R83's order: what the bytes up to the opcode decide comes before the length (R82, R90). -/
theorem test_decode_order :
    decode .m64 (0x66 :: List.replicate 13 0x2E ++ [0xC4]) = .undefined .badPrefixBeforeVex
      ∧ decode .m64 (List.replicate 12 0x2E ++ [0xF3, 0x62, 0xF2]) = .undefined .badPrefixBeforeVex
      ∧ decode .m64 (List.replicate 10 0x2E ++ [0xF0, 0xC4, 0xE2, 0x69, 0x3B]) = .undefined .lockPrefix
      ∧ decode .m64 (List.replicate 10 0x2E ++ [0x62, 0xF2, 0x6D, 0x88, 0x3B]) = .undefined .evexReservedCombination
      ∧ decode .m64 (List.replicate 10 0x2E ++ [0x62, 0xF2, 0x6D, 0x08, 0x3B]) = .refused .truncated
      ∧ decode .m32 [0x62, 0xD2, 0x6D, 0x88, 0x3B, 0xCB] = .undefined .evexReservedCombination
      ∧ decode .m32 [0x66, 0xC4, 0x42] = .refused .notInScope := by decide

/-! ### One step on a small state (95_test_vectors.md sections 2 and 3; V<n> names the vector) -/

def dwords (l : List Nat) : Vec := pack 32 (fun j => BitVec.ofNat 32 (l.getD j 0)) 16
def qwords (l : List Nat) : Vec := pack 64 (fun j => BitVec.ofNat 64 (l.getD j 0)) 8
/-- `lo` with every byte from bit `n` on equal to A5. -/
def a5Above (n : Nat) (lo : Vec) : Vec := ((pack 8 (fun _ => 0xA5) 64 >>> n) <<< n) ||| lo

def setVec (n : Nat) (v : Vec) (s : State) : State := { s with z := s.z.setIfInBounds n v }
def setMask (n v : Nat) (s : State) : State := { s with k := s.k.setIfInBounds n (BitVec.ofNat 64 v) }
def setGpr (n v : Nat) (s : State) : State := { s with x := s.x.setIfInBounds n (BitVec.ofNat 64 v) }
def setMem (a : Nat) (bs : List Byte) (s : State) : State := { s with mem := s.mem.writeBytes a bs }
def setEntries (es : List AccessEntry) (s : State) : State := { s with cfg := { s.cfg with accessEntries := es } }
def setRegions (rs : List Region) (s : State) : State := { s with cfg := { s.cfg with regions := rs } }

/-- The step's `Z[1]` and `pc`. -/
def z1After (code : List Byte) (s : State) : Option (Vec × Addr) :=
  match step (placeAtPc s code) with
  | .next t => some (t.vec 1, t.pc)
  | _ => none

def faultAfter (code : List Byte) (s : State) : Option Fault :=
  match step (placeAtPc s code) with
  | .fault f => some f
  | _ => none

/-- V1 -/
theorem test_pminudSse128 :
    z1After [0x66, 0x0F, 0x38, 0x3B, 0xCA] (setVec 1 (a5Above 128 (dwords [0x1, 0x80000000, 0xFFFFFFFF, 0x12345678]))
      (setVec 2 (dwords [0x2, 0x7FFFFFFF, 0x0, 0x12345678]) State.reset))
      = some (a5Above 128 (dwords [0x1, 0x7FFFFFFF, 0x0, 0x12345678]), 0x400005) := by decide +kernel
/-- V14 -/
theorem test_pminudSse128_misaligned :
    faultAfter [0x66, 0x0F, 0x38, 0x3B, 0x08] (setGpr 0 0x10000048 State.reset) = some (.gp 0x400000) := by decide +kernel
/-- V2 -/
theorem test_vpminudVex128 :
    z1After [0xC4, 0xE2, 0x69, 0x3B, 0xCB] (setVec 1 (a5Above 0 0) (setVec 2 (a5Above 128 (dwords [0x1, 0x80000000, 0xFFFFFFFF, 0x12345678]))
      (setVec 3 (dwords [0x2, 0x7FFFFFFF, 0x0, 0x12345678]) State.reset)))
      = some (dwords [0x1, 0x7FFFFFFF, 0x0, 0x12345678], 0x400005) := by decide +kernel
/-- V18 -/
theorem test_vpminudVex128_unaligned :
    z1After [0xC4, 0xE2, 0x69, 0x3B, 0x08] (setVec 2 (dwords [0x04030201, 0x08070604, 0x0, 0xFFFFFFFF])
      (setMem 0x10000001 [1, 2, 3, 4, 5, 6, 7, 8, 9, 10, 11, 12, 13, 14, 15, 16] (setGpr 0 0x10000001 State.reset)))
      = some (dwords [0x04030201, 0x08070604, 0x0, 0x100F0E0D], 0x400005) := by decide +kernel
/-- V3 -/
theorem test_vpminudVex256 :
    z1After [0xC4, 0xE2, 0x6D, 0x3B, 0xCB]
      (setVec 2 (a5Above 256 (dwords [0x0, 0x1, 0xFFFFFFFF, 0x80000000, 0x7FFFFFFF, 0x5, 0xDEADBEEF, 0x10000]))
        (setVec 3 (dwords [0xFFFFFFFF, 0x1, 0xFFFFFFFE, 0x7FFFFFFF, 0x80000000, 0x4, 0xDEADBEF0, 0xFFFF]) State.reset))
      = some (dwords [0x0, 0x1, 0xFFFFFFFE, 0x7FFFFFFF, 0x7FFFFFFF, 0x4, 0xDEADBEEF, 0xFFFF], 0x400005) := by decide +kernel
/-- V20 -/
theorem test_vpminudVex256_overlap :
    z1After [0xC4, 0xE2, 0x6D, 0x3B, 0xC9]
      (setVec 1 (a5Above 256 (dwords [8, 7, 6, 5, 4, 3, 2, 1])) (setVec 2 (a5Above 256 (dwords [1, 2, 3, 4, 5, 6, 7, 8])) State.reset))
      = some (dwords [1, 2, 3, 4, 4, 3, 2, 1], 0x400005) := by decide +kernel
/-- V4 -/
theorem test_vpminudEvex128 :
    z1After [0x62, 0xF2, 0x6D, 0x09, 0x3B, 0xCB]
      (setMask 1 0b0101 (setVec 1 (a5Above 128 (dwords [0x11111111, 0x22222222, 0x33333333, 0x44444444]))
        (setVec 2 (dwords [0x1, 0x80000000, 0xFFFFFFFF, 0x12345678]) (setVec 3 (dwords [0x2, 0x7FFFFFFF, 0x0, 0x12345678]) State.reset))))
      = some (dwords [0x1, 0x22222222, 0x0, 0x44444444], 0x400006) := by decide +kernel
/-- V35 -/
theorem test_vpminudEvex128_reserved : faultAfter [0x62, 0xF2, 0x6D, 0x88, 0x3B, 0xCB] State.reset = some (.ud 0x400000) := by decide +kernel
/-- V5 -/
theorem test_vpminudEvex256 :
    z1After [0x62, 0xF2, 0x6D, 0xB9, 0x3B, 0x08]
      (setMask 1 0xA5 (setGpr 0 0x10000001 (setMem 0x10000001 [0, 0, 0, 0x80] (setVec 1 (a5Above 0 0)
        (setVec 2 (dwords [0x0, 0x1, 0xFFFFFFFF, 0x80000000, 0x7FFFFFFF, 0x5, 0xDEADBEEF, 0x10000]) State.reset)))))
      = some (dwords [0x0, 0x0, 0x80000000, 0x0, 0x0, 0x5, 0x0, 0x10000], 0x400006) := by decide +kernel
/-- V6 -/
theorem test_vpminudEvex512 :
    z1After [0x62, 0xF2, 0x6D, 0x48, 0x3B, 0xCB]
      (setVec 2 (pack 32 (fun j => BitVec.ofNat 32 (j * 0x11111111)) 16)
        (setVec 3 (pack 32 (fun j => BitVec.ofNat 32 ((15 - j) * 0x11111111)) 16) State.reset))
      = some (dwords [0x0, 0x11111111, 0x22222222, 0x33333333, 0x44444444, 0x55555555, 0x66666666, 0x77777777, 0x77777777, 0x66666666,
          0x55555555, 0x44444444, 0x33333333, 0x22222222, 0x11111111, 0x0], 0x400006) := by decide +kernel
/-- V42 -/
theorem test_vpminudEvex512_page_fault :
    faultAfter [0x62, 0xF2, 0x6D, 0x49, 0x3B, 0x08]
      (setRegions [⟨0x10002000, 0x1000, .page false false false⟩] (setGpr 0 0x10001FE0 (setMask 1 0xFF State.reset)))
      = some (.pf 0x400000 4 0x10002000) := by decide +kernel
/-- V7 -/
theorem test_vpminuqEvex128 :
    z1After [0x62, 0xF2, 0xED, 0x08, 0x3B, 0xCB]
      (setVec 2 (qwords [0x8000000000000000, 0x1FFFFFFFF]) (setVec 3 (qwords [0x7FFFFFFFFFFFFFFF, 0x200000000]) State.reset))
      = some (qwords [0x7FFFFFFFFFFFFFFF, 0x1FFFFFFFF], 0x400006) := by decide +kernel
/-- V29 -/
theorem test_vpminuqEvex128_mask :
    z1After [0x62, 0xF2, 0xED, 0x09, 0x3B, 0xCB]
      (setMask 1 0xFFFE (setVec 1 (qwords [0xAAAAAAAAAAAAAAAA, 0xBBBBBBBBBBBBBBBB])
        (setVec 2 (qwords [0x1FFFFFFFF, 0xFFFFFFFF00000000]) (setVec 3 (qwords [0x200000000, 0xFFFFFFFF]) State.reset))))
      = some (qwords [0xAAAAAAAAAAAAAAAA, 0xFFFFFFFF], 0x400006) := by decide +kernel
/-- V8 -/
theorem test_vpminuqEvex256 :
    z1After [0x62, 0xF2, 0xED, 0x29, 0x3B, 0xCB]
      (setMask 1 0b0110 (setVec 1 (a5Above 256 (qwords [0xAAAAAAAAAAAAAAAA, 0xBBBBBBBBBBBBBBBB, 0xCCCCCCCCCCCCCCCC, 0xDDDDDDDDDDDDDDDD]))
        (setVec 2 (qwords [0x1, 0x2, 0xFFFFFFFFFFFFFFFF, 0x4]) (setVec 3 (qwords [0x0, 0x3, 0xFFFFFFFF00000000, 0x5]) State.reset))))
      = some (qwords [0xAAAAAAAAAAAAAAAA, 0x2, 0xFFFFFFFF00000000, 0xDDDDDDDDDDDDDDDD], 0x400006) := by decide +kernel
/-- V33: `disp8` of 1 is 32 bytes -/
theorem test_vpminuqEvex256_disp8 :
    z1After [0x62, 0xF2, 0xED, 0x28, 0x3B, 0x48, 0x01]
      (setGpr 0 0x10000000 (setMem 0x10000020 [9] (setMem 0x10000028 [1] (setMem 0x10000030 [7] (setMem 0x10000038 (List.replicate 8 0xFF)
        (setVec 2 (qwords [5, 6, 7, 8]) State.reset))))))
      = some (qwords [5, 1, 7, 8], 0x400007) := by decide +kernel
/-- V9 -/
theorem test_vpminuqEvex512 :
    z1After [0x62, 0xF2, 0xED, 0xD9, 0x3B, 0x08]
      (setMask 1 0x0F (setGpr 0 0x10000000 (setMem 0x10000000 [0, 0, 0, 0, 1, 0, 0, 0]
        (setVec 2 (qwords [0x0, 0x100000000, 0x100000001, 0xFFFFFFFF, 0xFFFFFFFFFFFFFFFF, 0x7, 0x8, 0x9]) State.reset))))
      = some (qwords [0x0, 0x100000000, 0x100000000, 0xFFFFFFFF], 0x400006) := by decide +kernel

/-- A row of opcode_table.json through the host's numbering (log 19): core bytes `0F 38 3B` and ModRM 0. -/
theorem test_decodeTableWord : decodeTableWord 32 0x0F383B00 = some (.pminudSse128 ⟨[.opSize], none, 0, raxRm⟩) := by decide

/-! ### Witnesses: for each obligation with hypotheses, a state and operands that meet them -/

def completes : Outcome → Bool
  | .next _ => true
  | _ => false

def faultIs (f : Fault) : Outcome → Bool
  | .fault g => g == f
  | _ => false

theorem exists_next {o : Outcome} (h : completes o = true) : ∃ t, o = .next t := by
  cases o with
  | next t => exact ⟨t, rfl⟩
  | fault f => simp [completes] at h
  | refused r => simp [completes] at h

theorem eq_fault {o : Outcome} {f : Fault} (h : faultIs f o = true) : o = .fault f := by
  cases o with
  | next t => simp [faultIs] at h
  | fault g => simp only [faultIs, beq_iff_eq] at h; rw [h]
  | refused r => simp [faultIs] at h

/-- Data at RAX = 0x10000000, mask K[1] = 5, registers 1 to 3 set. -/
def busy : State :=
  setGpr 0 0x10000000 (setMask 1 5 (setMem 0x10000000 [1, 2, 3, 4] (setVec 1 (a5Above 0 0) (setVec 2 (dwords [7, 8]) (setVec 3 (dwords [9]) State.reset)))))

def withCfg (f : Platform → Platform) (s : State) : State := { s with cfg := f s.cfg }
def withEnv (f : Env → Env) : State → State := withCfg fun c => { c with env := f c.env }
def inM32 : State → State := withCfg fun c => { c with mode := .m32 }
/-- The operand at RAX reaches 8 bytes into a page that is not present, and the mask has only its first lanes. -/
def pageEdge : State := setGpr 0 0x10000FF8 (setRegions [⟨0x10001000, 0x1000, .page false false false⟩] busy)

/-- StepKeepsInvariant, StepChangesOnlyDestination, PcMovesByLength (first clause). -/
theorem witness_step : stateInv (placeAtPc busy [0x66, 0x0F, 0x38, 0x3B, 0x08])
    ∧ ∃ t, step (placeAtPc busy [0x66, 0x0F, 0x38, 0x3B, 0x08]) = .next t :=
  ⟨by decide +kernel, exists_next (by decide +kernel)⟩

/-- PcMovesByLength at the top of the range: the last byte of the instruction is the last byte in range; a fault; `pc` at the limit. -/
theorem witness_pcMovesByLength :
    (∃ t, step (placeAtPc { busy with pc := 0x7FFFFFFFFFFB } [0xC4, 0xE2, 0x69, 0x3B, 0xCB]) = .next t)
      ∧ (∃ t, step (placeAtPc (inM32 { busy with pc := 0xFFFFFFFB }) [0xC4, 0xE2, 0x69, 0x3B, 0xCB]) = .next t)
      ∧ step (placeAtPc (setGpr 0 1 busy) [0x66, 0x0F, 0x38, 0x3B, 0x08]) = .fault (.gp 0x400000)
      ∧ fetchLimit busy.cfg ≤ ({ busy with pc := 0x800000000000 } : State).pc.toNat
      ∧ fetchLimit (inM32 busy).cfg ≤ ({ inM32 busy with pc := 0x100000000 } : State).pc.toNat :=
  ⟨exists_next (by decide +kernel), exists_next (by decide +kernel), eq_fault (by decide +kernel), by decide +kernel, by decide +kernel⟩

/-- DecodeOfEncode, PlacedInstructionRuns: well-formed instructions of each format, at the 15-byte limit and in both modes. -/
theorem witness_decodeOfEncode :
    (Instr.pminudSse128 { legR with pfx := List.replicate 11 .opSize }).wf .m64 = true ∧ (Instr.vpminudVex256 vexM).wf .m32 = true
      ∧ (Instr.vpminuqEvex512 evexB).wf .m32 = true
      ∧ (Instr.vpminudEvex128 ⟨[.seg .gs, .addrSize], 31, 31, true, true, 7, ⟨true, true, .sib 3 7 7 (.d32 0x80000000)⟩⟩).wf .m64 = true := by
  decide

/-- EncodeOfDecode and M32NamesEightRegisters: bytes that decode in M32, every register number 7. -/
theorem witness_decodes :
    decode .m32 [0x62, 0xF2, 0x45, 0x48, 0x3B, 0x7C, 0xFF, 0x01]
      = .instr (.vpminudEvex512 ⟨[], 7, 7, false, false, 0, ⟨false, false, .sib 3 7 7 (.d8 1)⟩⟩) [] := by decide

/-- StepRunsDecodedInstruction, FetchRunsOutOnlyAtAddressLimit: the bytes at `pc` decode to an instruction; are `#UD`, the `C4` that decides it being
the 21st byte; are refused; end at the last address of the range. -/
theorem witness_stepRunsDecodedInstruction :
    decode busy.cfg.mode (fetchBytes (placeAtPc busy [0xC4, 0xE2, 0x69, 0x3B, 0xCB])) = .instr (.vpminudVex128 vexR) (List.replicate 19 0)
      ∧ decode busy.cfg.mode (fetchBytes (placeAtPc busy [0x62, 0xF2, 0x6D, 0x68, 0x3B, 0xCB])) = .undefined .evexLength11
      ∧ decode busy.cfg.mode (fetchBytes (placeAtPc busy (List.replicate 20 0x66 ++ [0xC4]))) = .undefined .badPrefixBeforeVex
      ∧ decode busy.cfg.mode (fetchBytes (placeAtPc busy (List.replicate 12 0x66 ++ [0x0F, 0x38, 0x3B, 0xCA]))) = .refused .tooLong
      ∧ decode busy.cfg.mode (fetchBytes busy) = .refused .notInScope
      ∧ decode busy.cfg.mode (fetchBytes (placeAtPc { busy with pc := 0x7FFFFFFFFFFF } [0xC4])) = .refused .truncated
      ∧ 0 < (fetchBytes (placeAtPc { busy with pc := 0x7FFFFFFFFFFF } [0xC4])).length := by decide +kernel

/-- PlacedInstructionRuns: the last byte of the instruction is the last in range. -/
theorem witness_placedInstructionRuns :
    busy.mem.wf ∧ (Instr.vpminudVex128 vexR).wf busy.cfg.mode = true
      ∧ ({ busy with pc := 0x7FFFFFFFFFFB } : State).pc.toNat + (Instr.vpminudVex128 vexR).len = fetchLimit busy.cfg := by decide +kernel

/-- LockPrefixIsUndefined and PrefixBeforeVexIsUndefined: a form of each kind at the longest length, the first and last REX byte. -/
theorem witness_badPrefix :
    (Instr.pminudSse128 { legR with pfx := List.replicate 11 .opSize }).wf .m64 = true
      ∧ (Instr.pminudSse128 { legR with pfx := List.replicate 11 .opSize }).len = 15
      ∧ (Instr.vpminudVex128 { vexR with pfx := List.replicate 10 (.seg .fs) }).wf .m64 = true
      ∧ (Instr.vpminudVex128 { vexR with pfx := List.replicate 10 (.seg .fs) }).len = 15
      ∧ isLegacy (.vpminudVex128 vexR) = false
      ∧ (0x40 ≤ (0x40 : Byte).toNat ∧ (0x40 : Byte).toNat ≤ 0x4F) ∧ (0x40 ≤ (0x4F : Byte).toNat ∧ (0x4F : Byte).toNat ≤ 0x4F) := by decide

/-- EvexReservedBitsAreUndefined: each reserved field at a forbidden value beside `mm = 10`, `pp = 01`, `P0[7:6] = 11`; another map; another prefix
class. -/
theorem witness_evexReservedBits :
    Pfx.opSize ∉ List.replicate 14 Pfx.addrSize
      ∧ (0xF6 : Byte).extractLsb' 6 2 = 3 ∧ (0xFA : Byte).extractLsb' 6 2 = 3 ∧ (0xF2 : Byte).extractLsb' 6 2 = 3
      ∧ ((0xF6 : Byte).extractLsb' 0 2 = 2 ∧ (0xF6 : Byte).extractLsb' 2 2 ≠ 0)
      ∧ ((0xFA : Byte).extractLsb' 0 2 = 2 ∧ (0xFA : Byte).extractLsb' 2 2 ≠ 0)
      ∧ ((0x69 : Byte).extractLsb' 0 2 = 1 ∧ (0x69 : Byte).getLsbD 2 = false)
      ∧ ((0xF2 : Byte).extractLsb' 0 2 = 2 ∧ (0x6D : Byte).extractLsb' 0 2 = 1 ∧ (0x68 : Byte).extractLsb' 5 2 = 3)
      ∧ ((0x88 : Byte).getLsbD 7 = true ∧ (0x88 : Byte).extractLsb' 0 3 = 0)
      ∧ ((0x18 : Byte).getLsbD 4 = true ∧ (0xC0 : Byte).extractLsb' 6 2 = 3)
      ∧ (0xF1 : Byte).extractLsb' 0 2 ≠ 2 ∧ (0x6C : Byte).extractLsb' 0 2 ≠ 1 := by decide

/-- PminudSse128Result: a register operand, and the highest aligned memory operand of the lower canonical half. -/
theorem witness_pminudSse128Result :
    legReady busy.cfg ∧ legOperandOk busy legR ∧ legOperandOk busy legM ∧ legOperandOk (setGpr 0 0x7FFFFFFFFFF0 busy) legM := by
  refine ⟨?_, ?_, ?_, ?_⟩ <;> (try simp only [legReady, legOperandOk, readable, accessOk, canonicalOperand]) <;> decide +kernel

/-- VpminudVexResult, both clauses: register and unaligned memory operands. -/
theorem witness_vpminudVexResult :
    platformWf busy.cfg ∧ vexReady busy.cfg busy.cfg.feat.avx ∧ vexReady busy.cfg busy.cfg.feat.avx2 ∧ vexOperandOk busy vexR 16
      ∧ vexOperandOk (setGpr 0 0x10000001 busy) vexM 16 ∧ vexOperandOk (setGpr 0 0x1000001F busy) vexM 32 := by
  refine ⟨?_, ?_, ?_, ?_, ?_, ?_⟩ <;> (try simp only [vexReady, avxEnabled, vexOperandOk, readable, accessOk, canonicalOperand]) <;> decide +kernel

/-- VpminudEvexResult and VpminuqEvexResult, every vector length: register, masked memory and broadcast operands; with FaultSuppression an operand
whose masked-off bytes are not present. -/
theorem witness_evexResult :
    platformWf busy.cfg ∧ (evexReady busy.cfg 128 ∧ evexReady busy.cfg 256 ∧ evexReady busy.cfg 512)
      ∧ (evexLegal evexR ∧ evexLegal evexM ∧ evexLegal evexB)
      ∧ (evexOperandOk busy evexR 32 128 ∧ evexOperandOk busy evexM 32 256 ∧ evexOperandOk busy evexB 32 512)
      ∧ (evexOperandOk busy evexB 64 128 ∧ evexOperandOk busy evexM 64 256 ∧ evexOperandOk busy evexM 64 512)
      ∧ evexOperandOk (withCfg (fun c => { c with faultSuppression := true }) (setMask 1 1 pageEdge)) evexM 64 512 := by
  refine ⟨?_, ⟨?_, ?_, ?_⟩, ⟨?_, ?_, ?_⟩, ⟨?_, ?_, ?_⟩, ⟨?_, ?_, ?_⟩, ?_⟩ <;>
    (try simp only [evexReady, avxEnabled, avx512Enabled, evexLegal, evexOperandOk, readable, accessOk, canonicalOperand]) <;> decide +kernel

/-- `zmm1 {k1}, zmm31, zmm31`. -/
def evexHigh : EvexOperands := ⟨[], 1, 31, false, false, 1, ⟨true, true, .reg 7⟩⟩

/-- WriteDisciplines, FlagsNeitherReadNorWritten (second clause), EqualSourcesAreCopied: forms of every format that complete with equal sources. -/
theorem witness_completes :
    (∃ t, exec (.pminudSse128 { legR with rm := regRm 1 }) busy = .next t)
      ∧ (∃ t, exec (.vpminudVex256 { vexR with s1 := 15, rm := ⟨false, true, .reg 7⟩ }) busy = .next t)
      ∧ (∃ t, exec (.vpminuqEvex512 evexHigh) busy = .next t)
      ∧ vexParts (.vpminudVex256 { vexR with s1 := 15, rm := ⟨false, true, .reg 7⟩ }) = some ({ vexR with s1 := 15, rm := ⟨false, true, .reg 7⟩ }, 256)
      ∧ evexParts (.vpminuqEvex512 evexHigh) = some (evexHigh, 64, 512)
      ∧ (1 : BitVec 4).toNat = 8 * false.toNat + (1 : BitVec 3).toNat ∧ (15 : BitVec 4).toNat = 8 * true.toNat + (7 : BitVec 3).toNat
      ∧ (31 : BitVec 5).toNat = 16 * true.toNat + 8 * true.toNat + (7 : BitVec 3).toNat :=
  ⟨exists_next (by decide +kernel), exists_next (by decide +kernel), exists_next (by decide +kernel), rfl, rfl, by decide, by decide, by decide⟩

/-- RegisterOperandResult: register 31 in the EVEX format with an active and an inactive lane, and register 15 in the VEX format, whose X bit
has no part in the number. -/
theorem witness_registerOperand :
    (∃ t, exec (.vpminuqEvex512 evexHigh) busy = .next t) ∧ (busy.opmask evexHigh.aaa).getLsbD 2 = true
      ∧ 2 < vlOf (.vpminuqEvex512 evexHigh) / widthOf (.vpminuqEvex512 evexHigh)
      ∧ (31 : BitVec 5).toNat = (if (evexParts (.vpminuqEvex512 evexHigh)).isSome then 16 * true.toNat else 0) + 8 * true.toNat + (7 : BitVec 3).toNat
      ∧ (∃ t, exec (.vpminudVex128 { vexR with rm := ⟨true, true, .reg 7⟩ }) busy = .next t)
      ∧ (15 : BitVec 5).toNat = (if (evexParts (.vpminudVex128 vexR)).isSome then 16 * true.toNat else 0) + 8 * true.toNat + (7 : BitVec 3).toNat :=
  ⟨exists_next (by decide +kernel), by decide +kernel, by decide, by decide, exists_next (by decide +kernel), by decide⟩

/-- FullyMaskedOff: merging and zeroing, with mask bits set just above the lanes. -/
theorem witness_fullyMaskedOff :
    evexParts (.vpminudEvex256 evexM) = some (evexM, 32, 256) ∧ evexM.aaa ≠ 0
      ∧ (∀ j, j < 256 / 32 → ((setMask 1 0x100 busy).opmask evexM.aaa).getLsbD j = false)
      ∧ (∃ t, exec (.vpminudEvex256 evexM) (setMask 1 0x100 busy) = .next t)
      ∧ (∃ t, exec (.vpminudEvex256 { evexM with z := true }) (setMask 1 0x100 busy) = .next t) :=
  ⟨rfl, by decide, by decide +kernel, exists_next (by decide +kernel), exists_next (by decide +kernel)⟩

/-- LegacyAndVexAgreeBelow128 and UnmaskedEvexAgreesWithVex: the same registers in two formats, both of which complete. -/
theorem witness_sameOperation :
    (∃ t, exec (.pminudSse128 legR) busy = .next t) ∧ (∃ t, exec (.vpminudVex128 { vexR with s1 := 1, rm := regRm 2 }) busy = .next t)
      ∧ (∃ t, exec (.vpminudEvex256 evexR) busy = .next t) ∧ (∃ t, exec (.vpminudVex256 vexR) busy = .next t)
      ∧ evexParts (.vpminudEvex256 evexR) = some (evexR, 32, 256) ∧ vexParts (.vpminudVex256 vexR) = some (vexR, 256)
      ∧ evexR.aaa = 0 ∧ evexR.d = vecNum4 vexR.d ∧ evexR.s1 = vecNum4 vexR.s1 :=
  ⟨exists_next (by decide +kernel), exists_next (by decide +kernel), exists_next (by decide +kernel), exists_next (by decide +kernel),
    rfl, rfl, rfl, by decide, by decide⟩

/-- RunLeavesReadOnlyState and RunEndings: a run of one instruction that finishes, one that faults, one that is refused, one cut short. -/
theorem witness_runs :
    (match runTo 0x400005 1 (placeAtPc busy [0xC4, 0xE2, 0x69, 0x3B, 0xCB]) with | .finished _ => true | _ => false) = true
      ∧ (match runTo 0x400005 1 (placeAtPc (setGpr 0 1 busy) [0x66, 0x0F, 0x38, 0x3B, 0x08]) with | .faulted _ _ => true | _ => false) = true
      ∧ (match runTo 0x400005 1 busy with | .refused _ _ => true | _ => false) = true
      ∧ (match runTo 0x400005 0 busy with | .unfinished _ => true | _ => false) = true := by decide +kernel

theorem witness_runReaches : runReaches 0x400005 0 busy busy := Or.inr (Or.inl (by decide +kernel))

/-- MaskBitsAboveLanesIgnored: masks that agree below bit 8, the lanes of the form, and differ at it. -/
theorem witness_maskBitsAboveLanes :
    (∀ (n : Fin 8) (j : Nat), j < vlOf (.vpminudEvex256 evexM) / widthOf (.vpminudEvex256 evexM) →
        ((setMask 1 0x105 busy).k[n.val]'n.isLt).getLsbD j = (busy.k[n.val]'n.isLt).getLsbD j)
      ∧ (setMask 1 0x105 busy).k ≠ busy.k := by decide +kernel

/-- PrivilegeOnlyInPageFaultCode: an outcome that is no page fault, and one that is. -/
theorem witness_privilege :
    (∀ pc code a, exec (.vpminudVex128 vexR) busy ≠ .fault (.pf pc code a))
      ∧ exec (.vpminudVex128 vexM) pageEdge = .fault (.pf 0x400000 4 0x10001000) := by
  refine ⟨fun pc code a h => ?_, eq_fault (by decide +kernel)⟩
  obtain ⟨t, ht⟩ : ∃ t, exec (.vpminudVex128 vexR) busy = .next t := exists_next (by decide +kernel)
  rw [ht] at h
  cases h

/-- LittleEndian and MemoryOperandKinds: the first and last byte and lane of the widest operand; a full and a broadcast operand. -/
theorem witness_operands :
    (0 < 64 ∧ 63 < 64 ∧ 4 * 0 + 4 ≤ 64 ∧ 4 * 15 + 4 ≤ 64)
      ∧ hasMem (.vpminudEvex512 evexM) = true ∧ broadcasts (.vpminudEvex512 evexM) = false ∧ 63 < vlOf (.vpminudEvex512 evexM) / 8
      ∧ hasMem (.vpminuqEvex512 evexB) = true ∧ broadcasts (.vpminuqEvex512 evexB) = true
      ∧ 7 < vlOf (.vpminuqEvex512 evexB) / widthOf (.vpminuqEvex512 evexB) ∧ 7 < widthOf (.vpminuqEvex512 evexB) / 8 := by decide

/-- EffectiveAddressIsModularSum: the width is 64, or 32 with prefix `67` and in M32. -/
theorem witness_width :
    (64 = if busy.cfg.mode = .m32 ∨ .addrSize ∈ vexM.pfx then 32 else 64)
      ∧ (32 = if busy.cfg.mode = .m32 ∨ .addrSize ∈ [Pfx.addrSize] then 32 else 64)
      ∧ (32 = if (inM32 busy).cfg.mode = .m32 ∨ .addrSize ∈ vexM.pfx then 32 else 64) := by decide +kernel

/-- SegmentSelection: an override after which no other follows; no override with base 4, 5 and another; M64 and DS. -/
theorem witness_segmentSelection :
    (∀ q ∈ [Pfx.addrSize], ∀ h, q ≠ .seg h) ∧ (∀ p ∈ [Pfx.opSize], ∀ h, p ≠ .seg h)
      ∧ baseOf ⟨false, false, .sib 0 4 4 .none⟩ = some 4 ∧ baseOf ⟨false, false, .base 5 (.d8 0)⟩ = some 5
      ∧ (baseOf ⟨false, true, .base 5 (.d8 0)⟩ ≠ some 4 ∧ baseOf ⟨false, true, .base 5 (.d8 0)⟩ ≠ some 5)
      ∧ busy.cfg.mode = .m64 ∧ Seg.ds ≠ .fs ∧ Seg.ds ≠ .gs := by
  refine ⟨by simp, by simp, by decide, by decide, by decide, rfl, by decide, by decide⟩

/-- Disp8IsScaled: an operand for each kind of displacement, without and with an index; each width of the offset. -/
theorem witness_disp8IsScaled :
    (64 = if busy.cfg.mode = .m32 ∨ .addrSize ∈ pfxOf (.vpminuqEvex256 evexB) then 32 else 64)
      ∧ (32 = if busy.cfg.mode = .m32 ∨ .addrSize ∈ pfxOf (.vpminuqEvex256 { evexB with pfx := [.addrSize] }) then 32 else 64)
      ∧ (32 = if (inM32 busy).cfg.mode = .m32 ∨ .addrSize ∈ pfxOf (.vpminuqEvex256 evexB) then 32 else 64)
      ∧ (rmOf (.vpminuqEvex256 { evexB with rm := ⟨false, false, .base 0 (.d8 0x80)⟩ })).form = .base 0 (.d8 0x80)
      ∧ (rmOf (.vpminuqEvex256 { evexB with rm := ⟨false, false, .base 0 (.d32 0x80000000)⟩ })).form = .base 0 (.d32 0x80000000)
      ∧ (rmOf (.vpminuqEvex256 evexB)).form = .base 0 .none
      ∧ ∃ scale ix, (rmOf (.vpminuqEvex256 { evexB with rm := ⟨false, false, .sib 3 1 0 (.d8 0x80)⟩ })).form = .sib scale ix 0 (.d8 0x80)
        ∧ (0 : Int) = indexInt 64 busy (rmOf (.vpminuqEvex256 { evexB with rm := ⟨false, false, .sib 3 1 0 (.d8 0x80)⟩ })) scale ix :=
  ⟨by decide +kernel, by decide +kernel, by decide +kernel, rfl, rfl, rfl, 3, 1, rfl, by decide +kernel⟩

/-- ClearFeatureFlagRaisesUd, FormWiderThanMaxvlRaisesUd: processors without a flag; of 128 and of 256 bits. -/
theorem witness_missingFlag :
    present ⟨true, true, true, true, false⟩ (.vpminudEvex256 evexR) = false ∧ present ⟨true, true, true, false, true⟩ (.vpminudEvex256 evexR) = false
      ∧ present ⟨false, true, true, true, true⟩ (.pminudSse128 legR) = false ∧ present ⟨true, false, true, true, true⟩ (.vpminudVex128 vexR) = false
      ∧ present ⟨true, true, false, true, true⟩ (.vpminudVex256 vexR) = false
      ∧ platformWf { resetPlatform with maxvl := .v128, feat := ⟨true, false, false, false, false⟩ } ∧ MaxVl.v128.bits < vlOf (.vpminudVex256 vexR)
      ∧ platformWf { resetPlatform with maxvl := .v256, feat := ⟨true, true, true, false, false⟩ }
      ∧ MaxVl.v256.bits < vlOf (.vpminudEvex512 evexR) := by decide

/-- UdExactlyWhen, NmExactlyWhen: `#UD` because XCR0 disables AVX-512 state; `#NM`; neither. -/
theorem witness_udNm :
    platformWf busy.cfg ∧ exec (.vpminudEvex128 evexR) (withEnv (fun e => { e with xcr0 := 7 }) busy) = .fault (.ud 0x400000)
      ∧ exec (.vpminudEvex128 evexR) (withEnv (fun e => { e with ts := true }) busy) = .fault (.nm 0x400000)
      ∧ ∃ t, exec (.vpminudEvex128 evexR) busy = .next t :=
  ⟨by decide +kernel, eq_fault (by decide +kernel), eq_fault (by decide +kernel), exists_next (by decide +kernel)⟩

/-- ReservedCombinationRaisesUd: each of the two combinations. -/
theorem witness_reservedCombination :
    reservedCombination (.vpminudEvex128 { evexR with z := true }) ∧ reservedCombination (.vpminuqEvex512 { evexR with bc := true }) := by
  simp only [reservedCombination, evexParts, evexLegal]; decide

/-- MisalignedLegacyRaisesGp: addresses one past and one below a multiple of 16. -/
theorem witness_misaligned :
    legReady busy.cfg ∧ RmForm.isMem legM.rm.form = true
      ∧ (operandAddr (setGpr 0 0x10000001 busy) legM.pfx legM.rm legM.len 1).toNat % 16 = 1
      ∧ (operandAddr (setGpr 0 0x1000000F busy) legM.pfx legM.rm legM.len 1).toNat % 16 = 15 := by
  simp only [legReady]; decide +kernel

/-- What the statements on memory faults assume before they look at the operand. -/
theorem no_udCondition {s : State} {i : Instr} (hp : present s.cfg.feat i = true) (hd : ¬stateDisabled s.cfg.env i) (hr : ¬reservedCombination i) :
    ¬udCondition s i := by
  rintro (h | h | h)
  · rw [hp] at h; cases h
  · exact hd h
  · exact hr h

/-- The premises on the machine and the form that the memory-fault statements share. -/
def faultPremises (s : State) (i : Instr) : Prop :=
  platformWf s.cfg ∧ ¬udCondition s i ∧ s.cfg.env.ts = false ∧ hasMem i = true ∧ ¬misaligned s i

theorem faultPremises_busy (s : State) (h : s.cfg.env = busy.cfg.env ∧ s.cfg.feat = busy.cfg.feat ∧ s.cfg.maxvl = busy.cfg.maxvl) :
    faultPremises s (.vpminudVex128 vexM) ∧ faultPremises s (.vpminudVex256 vexM) ∧ faultPremises s (.vpminuqEvex512 evexM)
      ∧ faultPremises s (.vpminuqEvex512 evexB) := by
  obtain ⟨he, hf, hm⟩ := h
  have hw : platformWf s.cfg := by
    have hb : platformWf busy.cfg := by decide +kernel
    unfold platformWf at hb ⊢
    rw [hf, hm]
    exact hb
  have ht : s.cfg.env.ts = false := by rw [he]; decide +kernel
  refine ⟨⟨hw, no_udCondition ?_ ?_ ?_, ht, rfl, fun h => by simp [misaligned, isLegacy] at h⟩,
    ⟨hw, no_udCondition ?_ ?_ ?_, ht, rfl, fun h => by simp [misaligned, isLegacy] at h⟩,
    ⟨hw, no_udCondition ?_ ?_ ?_, ht, rfl, fun h => by simp [misaligned, isLegacy] at h⟩,
    ⟨hw, no_udCondition ?_ ?_ ?_, ht, rfl, fun h => by simp [misaligned, isLegacy] at h⟩⟩
  all_goals
    (try rw [he])
    (try rw [hf])
    (try simp only [stateDisabled, avxEnabled, avx512Enabled, reservedCombination, evexParts, evexLegal])
    decide +kernel

/-- SegmentationFaultKind: the first byte non-canonical through DS; the last byte in a segmentation region through SS. -/
theorem witness_segmentationFaultKind :
    (let s := setGpr 0 0x800000000000 busy
     faultPremises s (.vpminudVex128 vexM) ∧ opNeeded s (.vpminudVex128 vexM) 0 = true
      ∧ canonical s.cfg (byteAddr s.cfg.mode (opAddr s (.vpminudVex128 vexM)) 0) = false)
      ∧ (let s := setRegions [⟨0x1000000F, 1, .segmentation⟩] busy
         faultPremises s (.vpminudVex128 vexM)
           ∧ 15 < opBytes (.vpminudVex128 vexM)
           ∧ accessWhole s.cfg (opAddr s (.vpminudVex128 vexM)) (opBytes (.vpminudVex128 vexM)) (opNeeded s (.vpminudVex128 vexM)) = none
           ∧ opNeeded s (.vpminudVex128 vexM) 15 = true
           ∧ segFaultAt s.cfg (byteAddr s.cfg.mode (opAddr s (.vpminudVex128 vexM)) 15) = true)
      ∧ operandSeg [.seg .ss] vexM.rm = .ss :=
  ⟨⟨(faultPremises_busy _ (by exact ⟨rfl, rfl, rfl⟩)).1, by decide +kernel, by decide +kernel⟩,
    ⟨(faultPremises_busy _ (by exact ⟨rfl, rfl, rfl⟩)).1, by decide +kernel⟩, by decide⟩

/-- PageFaultCodeAndAddress: the operand's first present bytes, and byte 8 and the last byte on a page that is not present. -/
theorem witness_pageFault :
    let i := Instr.vpminudVex128 vexM
    faultPremises pageEdge i ∧ accessWhole pageEdge.cfg (opAddr pageEdge i) (opBytes i) (opNeeded pageEdge i) = none
      ∧ (∀ j, j < opBytes i → opNeeded pageEdge i j = true → segFaultAt pageEdge.cfg (byteAddr pageEdge.cfg.mode (opAddr pageEdge i) j) = false)
      ∧ pageFaultAt pageEdge.cfg (byteAddr pageEdge.cfg.mode (opAddr pageEdge i) 7) = none
      ∧ pageFaultAt pageEdge.cfg (byteAddr pageEdge.cfg.mode (opAddr pageEdge i) 8) = some 4
      ∧ (15 < opBytes i ∧ opNeeded pageEdge i 15 = true
        ∧ pageFaultAt pageEdge.cfg (byteAddr pageEdge.cfg.mode (opAddr pageEdge i) 15) = some 4) :=
  ⟨(faultPremises_busy _ (by exact ⟨rfl, rfl, rfl⟩)).1, by decide +kernel, by decide +kernel, by decide +kernel, by decide +kernel, by decide +kernel⟩

/-- The operand at RAX, which the regions let through, with a value of `Access` of its own. -/
def ownAccess (r : AccessResult) : State := setEntries [⟨0x10000000, 16, r⟩] busy

/-- AccessDecidesWholeOperands: each of the three values; ReadFaultsNowhereExactlyWhen: a value, none, and a byte that is not needed. -/
theorem witness_accessDecides :
    (let i := Instr.vpminudVex128 vexM
     faultPremises (ownAccess .ok) i ∧ faultPremises (ownAccess .segmentation) i ∧ faultPremises (ownAccess (.page true false false 17)) i
      ∧ (∀ k, k < opBytes i → opNeeded (ownAccess .ok) i k = true
        ∧ canonical (ownAccess .ok).cfg (byteAddr (ownAccess .ok).cfg.mode (opAddr (ownAccess .ok) i) k) = true)
      ∧ accessEntry (ownAccess .ok).cfg (opAddr (ownAccess .ok) i) (opBytes i) = some .ok
      ∧ (∀ k, k < opBytes i → deviceAt (ownAccess .ok).cfg (byteAddr (ownAccess .ok).cfg.mode (opAddr (ownAccess .ok) i) k) = false)
      ∧ faultIs (.gp 0x400000) (exec i (ownAccess .segmentation)) = true
      ∧ faultIs (.pf 0x400000 5 0x10000001) (exec i (ownAccess (.page true false false 17))) = true)
      ∧ accessWhole (ownAccess .ok).cfg 0x10000000 16 (fun _ => true) = some .ok
      ∧ accessWhole busy.cfg 0x10000000 16 (fun _ => true) = none
      ∧ accessWhole (ownAccess .ok).cfg 0x10000000 16 (fun k => k != 15) = none :=
  ⟨⟨(faultPremises_busy _ (by exact ⟨rfl, rfl, rfl⟩)).1, (faultPremises_busy _ (by exact ⟨rfl, rfl, rfl⟩)).1,
    (faultPremises_busy _ (by exact ⟨rfl, rfl, rfl⟩)).1, by decide +kernel, by decide +kernel, by decide +kernel, by decide +kernel,
    by decide +kernel⟩, by decide +kernel, by decide +kernel, by decide +kernel⟩

/-- DeviceOperandRefused: a device window of one byte, the operand's last. -/
theorem witness_deviceOperand :
    let i := Instr.vpminudVex256 vexM
    let s := setRegions [⟨0x1000001F, 1, .device⟩] busy
    faultPremises s i
      ∧ accessOk s.cfg (opAddr s i) (opBytes i) (opNeeded s i)
      ∧ 31 < opBytes i ∧ deviceAt s.cfg (byteAddr s.cfg.mode (opAddr s i) 31) = true :=
  ⟨(faultPremises_busy _ (by exact ⟨rfl, rfl, rfl⟩)).2.1, by simp only [accessOk, canonicalOperand]; decide +kernel, by decide +kernel⟩

/-- FaultSuppressionDecides: an operand with a byte that is not present, without and with FaultSuppression, full and broadcast. -/
theorem witness_faultSuppression :
    let on := withCfg (fun c => { c with faultSuppression := true }) (setMask 1 1 pageEdge)
    let ownOk := setEntries [⟨0x10000FF8, 64, .ok⟩] pageEdge
    faultPremises on (.vpminuqEvex512 evexM) ∧ faultPremises on (.vpminuqEvex512 evexB) ∧ faultPremises pageEdge (.vpminuqEvex512 evexM)
      ∧ evexParts (.vpminuqEvex512 evexM) = some (evexM, 64, 512)
      ∧ (∀ k, k < opBytes (.vpminuqEvex512 evexM) → deviceAt on.cfg (byteAddr on.cfg.mode (opAddr on (.vpminuqEvex512 evexM)) k) = false)
      ∧ accessWhole pageEdge.cfg (opAddr pageEdge (.vpminuqEvex512 evexM)) (opBytes (.vpminuqEvex512 evexM)) (opNeeded pageEdge (.vpminuqEvex512 evexM)) = none
      ∧ faultIs (.pf 0x400000 4 0x10001000) (exec (.vpminuqEvex512 evexM) pageEdge) = true
      ∧ completes (exec (.vpminuqEvex512 evexM) on) = true
      ∧ faultIs (.pf 0x400000 4 0x10001000) (exec (.vpminuqEvex512 evexM) (setMask 1 3 on)) = true
      ∧ completes (exec (.vpminuqEvex512 evexB) (setGpr 0 0x10001000 (setMask 1 0x100 on))) = true
      ∧ accessWhole ownOk.cfg (opAddr ownOk (.vpminuqEvex512 evexM)) (opBytes (.vpminuqEvex512 evexM)) (opNeeded ownOk (.vpminuqEvex512 evexM)) = some .ok
      ∧ completes (exec (.vpminuqEvex512 evexM) ownOk) = true :=
  ⟨(faultPremises_busy _ (by exact ⟨rfl, rfl, rfl⟩)).2.2.1, (faultPremises_busy _ (by exact ⟨rfl, rfl, rfl⟩)).2.2.2, (faultPremises_busy _ (by exact ⟨rfl, rfl, rfl⟩)).2.2.1, rfl,
    by decide +kernel, by decide +kernel, by decide +kernel, by decide +kernel, by decide +kernel, by decide +kernel, by decide +kernel, by decide +kernel⟩

/-- VexAndEvexNeedNoAlignment: a VEX form that raises `#GP(0)`, an EVEX form that raises `#SS(0)`. -/
theorem witness_vexGp :
    exec (.vpminudVex128 vexM) (setGpr 0 0x7FFFFFFFFFFF busy) = .fault (.gp 0x400000)
      ∧ exec (.vpminudEvex128 { evexM with pfx := [.seg .ss] }) (setGpr 0 0xFFFF7FFFFFFFFFFF busy) = .fault (.ss 0x400000) :=
  ⟨eq_fault (by decide +kernel), eq_fault (by decide +kernel)⟩

end Sys2Proof.Tests
end

section
/-! PROOFS. The bits a form writes, the vector length a form may have, and the invariant of a step (00_scope.md R7; 10_state.md R20, R22, R27). -/

namespace Sys2Proof.Machine

/-! ### The value a form writes (10_state.md R22) -/

theorem formValue_of_legacy (s : State) {i : Instr} (h : isLegacy i = true) :
    formValue s i = keepUpper128 (s.vec (destOf i)) (minLanes 32 4 (s.vec (destOf i)) (secondSource s i)) := by
  cases i
  case pminudSse128 => rfl
  all_goals simp [isLegacy] at h

/-- The legacy form keeps every bit of its destination from 128 on. -/
theorem formValue_getLsbD_legacy (s : State) {i : Instr} (h : isLegacy i = true) {b : Nat} (hb : 128 ≤ b) :
    (formValue s i).getLsbD b = (s.vec (destOf i)).getLsbD b := by
  rw [formValue_of_legacy s h, keepUpper128_getLsbD, if_neg (by omega)]

/-- The operands of an EVEX form come with its own lane width and vector length. -/
theorem evexParts_eq_some {i : Instr} {o : EvexOperands} {w vl : Nat} (h : evexParts i = some (o, w, vl)) :
    w = widthOf i ∧ vl = vlOf i := by
  cases i <;> cases h <;> exact ⟨rfl, rfl⟩

theorem widthOf_pos (i : Instr) : 0 < widthOf i := by cases i <;> simp [widthOf]

theorem formValue_of_evex (s : State) {i : Instr} {o : EvexOperands} {w vl : Nat} (h : evexParts i = some (o, w, vl)) :
    formValue s i = maskedMinLanes w (vl / w) (laneActive s o.aaa) o.z (s.vec o.d) (s.vec o.s1) (evexSource2 s o w vl) := by
  simp only [formValue, h]

theorem formValue_of_vex (s : State) {i : Instr} (hleg : isLegacy i = false) (h : evexParts i = none) :
    formValue s i = minLanes 32 (vlOf i / 32) (s.vec (s1Of i)) (secondSource s i) := by
  simp only [formValue, h, hleg, Bool.false_eq_true, if_false]

/-- Every form but the legacy one writes 0 to each bit from its vector length on, whatever its writemask holds. -/
theorem formValue_getLsbD_high (s : State) {i : Instr} (h : isLegacy i = false) {b : Nat} (hb : vlOf i ≤ b) :
    (formValue s i).getLsbD b = false := by
  have hlanes (w : Nat) : vlOf i / w * w ≤ b := (Nat.div_mul_le_self _ w).trans hb
  cases he : evexParts i with
  | none =>
    rw [formValue_of_vex s h he]
    exact pack_getLsbD_high _ (by decide) (hlanes 32)
  | some parts =>
    obtain ⟨o, w, vl⟩ := parts
    obtain ⟨rfl, rfl⟩ := evexParts_eq_some he
    rw [formValue_of_evex s he]
    exact pack_getLsbD_high _ (widthOf_pos i) (hlanes _)

/-! ### MAXVL and the vector length of a form (00_scope.md R7; 10_state.md R27) -/

theorem le_maxVl_bits (m : MaxVl) : 128 ≤ m.bits := by cases m <;> decide

theorem le_bits_of_avx {c : Platform} (hc : platformWf c) (h : c.feat.avx = true ∨ c.feat.avx2 = true) : 256 ≤ c.maxvl.bits := by
  obtain ⟨-, havx, -⟩ := hc
  have hne := havx h
  cases hm : c.maxvl
  case v128 => exact absurd hm hne
  all_goals decide

theorem bits_of_avx512f {c : Platform} (hc : platformWf c) (h : c.feat.avx512f = true) : c.maxvl.bits = 512 := by
  obtain ⟨h512, -, -⟩ := hc
  rw [h512 h, MaxVl.bits]

theorem vlOf_le_512 (i : Instr) : vlOf i ≤ 512 := by cases i <;> simp [vlOf]

/-- A form of more than 128 bits needs AVX2 and has 256, or needs AVX512F (60_exceptions.md R144). -/
theorem vlOf_cases_of_present {f : Feat} {i : Instr} (h : present f i = true) :
    vlOf i = 128 ∨ (vlOf i = 256 ∧ f.avx2 = true) ∨ f.avx512f = true := by
  cases i
  case pminudSse128 => exact .inl rfl
  case vpminudVex128 => exact .inl rfl
  case vpminudVex256 => exact .inr (.inl ⟨rfl, h⟩)
  all_goals exact .inr (.inr (by simp_all [present]))

/-- A form whose feature flags are reported is no wider than MAXVL (R7, R144). -/
theorem vlOf_le_bits_of_present {c : Platform} (hc : platformWf c) {i : Instr} (h : present c.feat i = true) :
    vlOf i ≤ c.maxvl.bits := by
  obtain hvl | ⟨hvl, hf⟩ | hf := vlOf_cases_of_present h
  · exact hvl ▸ le_maxVl_bits c.maxvl
  · exact hvl ▸ le_bits_of_avx hc (.inr hf)
  · exact bits_of_avx512f hc hf ▸ vlOf_le_512 i

theorem le_bits_of_vexUd {c : Platform} {present : Bool} {vl : Nat} (h : vexUd c present vl = false) : vl ≤ c.maxvl.bits := by
  simp only [vexUd, Bool.or_eq_false_iff, decide_eq_false_iff_not, Nat.not_lt] at h
  obtain ⟨⟨⟨-, hvl⟩, -⟩, -⟩ := h
  exact hvl

theorem le_bits_of_evexUd {c : Platform} {vl : Nat} {reserved : Bool} (h : (evexUd c vl || reserved) = false) :
    vl ≤ c.maxvl.bits := by
  simp only [evexUd, Bool.or_eq_false_iff, decide_eq_false_iff_not, Nat.not_lt] at h
  obtain ⟨⟨⟨⟨⟨-, hvl⟩, -⟩, -⟩, -⟩, -⟩ := h
  exact hvl

/-- A form that passes its `#UD` test is no wider than MAXVL, in every state (R27). -/
theorem vlOf_le_bits_of_formUd {s : State} {i : Instr} (h : formUd s i = false) : vlOf i ≤ s.cfg.maxvl.bits := by
  cases i
  case pminudSse128 => exact le_maxVl_bits s.cfg.maxvl
  case vpminudVex128 => exact le_bits_of_vexUd h
  case vpminudVex256 => exact le_bits_of_vexUd h
  all_goals exact le_bits_of_evexUd h

/-- An instruction whose `#UD` test holds raises `#UD` at its own address (60_exceptions.md R148). -/
theorem exec_of_formUd {s : State} {i : Instr} (h : formUd s i = true) : exec i s = .fault (.ud s.pc) := by
  rw [exec_eq_runForm, runForm_ud h]

/-! ### Registers of MAXVL bits (10_state.md R20) -/

theorem vecFits_iff (c : Platform) (v : Vec) : vecFits c v ↔ ∀ b, c.maxvl.bits ≤ b → v.getLsbD b = false :=
  ⟨fun h _ hb => Nat.testBit_lt_two_pow (h.trans_le (Nat.pow_le_pow_right (by decide) hb)), Nat.lt_pow_two_of_testBit _⟩

/-- The registers of the invariant, read by their number `Z[n]`. -/
theorem allFit_iff (s : State) :
    (∀ n : Fin 32, vecFits s.cfg (s.z[n.val]'n.isLt)) ↔ ∀ n : BitVec 5, vecFits s.cfg (s.vec n) :=
  ⟨fun h n => h n.toFin, fun h n => h (.ofFin n)⟩

/-- A form that passes its `#UD` test writes a value of MAXVL bits. -/
theorem vecFits_formValue {s : State} {i : Instr} (hud : formUd s i = false) (hd : vecFits s.cfg (s.vec (destOf i))) :
    vecFits s.cfg (formValue s i) := by
  rw [vecFits_iff] at hd ⊢
  intro b hb
  cases h : isLegacy i with
  | true => rw [formValue_getLsbD_legacy s h ((le_maxVl_bits s.cfg.maxvl).trans hb), hd b hb]
  | false => exact formValue_getLsbD_high s h ((vlOf_le_bits_of_formUd hud).trans hb)

/-! ### The invariant -/

/-- Writing a value of MAXVL bits keeps the invariant. -/
theorem stateInv_complete {s : State} (hs : stateInv s) (d : BitVec 5) {v : Vec} (hv : vecFits s.cfg v) (len : Nat) :
    stateInv (s.complete d v len) := by
  obtain ⟨hcfg, hmem, hz⟩ := hs
  refine ⟨hcfg, hmem, (allFit_iff _).2 fun n => ?_⟩
  rw [State.complete_cfg]
  by_cases hn : n = d
  · rwa [hn, State.complete_vec_same]
  · rw [State.complete_vec_other s d n v len hn]
    exact (allFit_iff s).1 hz n

/-- An instruction that completes keeps the invariant. -/
theorem exec_keeps_stateInv {i : Instr} {s t : State} (hs : stateInv s) (h : exec i s = .next t) : stateInv t := by
  rw [exec_eq_runForm] at h
  obtain ⟨hud, -, -, rfl⟩ := runForm_next h
  have ⟨_, _, hz⟩ := hs
  exact stateInv_complete hs _ (vecFits_formValue hud ((allFit_iff s).1 hz _)) _

/-- Settles O2: a step that answers next ran a decoded instruction, whose `#UD` test bounds what it wrote by MAXVL. -/
theorem stepKeepsInvariant : Obligations.StepKeepsInvariant := by
  intro s t hs h
  obtain ⟨i, _, _, hexec⟩ := step_next h
  exact exec_keeps_stateInv hs hexec

/-- Settles O38: the flags would make MAXVL reach the form's vector length, and so would its `#UD` test if it failed. -/
theorem formWiderThanMaxvlRaisesUd : Obligations.FormWiderThanMaxvlRaisesUd := by
  intro i s hwf hlt
  have hflag : present s.cfg.feat i ≠ true := fun h => absurd (vlOf_le_bits_of_present hwf h) (Nat.not_le.2 hlt)
  have hud : formUd s i ≠ false := fun h => absurd (vlOf_le_bits_of_formUd h) (Nat.not_le.2 hlt)
  exact ⟨Bool.eq_false_of_not_eq_true hflag, exec_of_formUd (Bool.eq_true_of_not_eq_false hud)⟩

/-- Settles O1: the reset parameters satisfy R7, memory is empty, and every register holds 0. -/
theorem resetMeetsInvariant : Obligations.ResetMeetsInvariant := by
  refine ⟨by decide, Memory.wf_nil, fun n => ?_⟩
  have hzero : State.reset.z[n.val] = 0 := Vector.getElem_replicate n.isLt
  rw [hzero, vecFits_iff]
  exact fun b _ => BitVec.getLsbD_zero

end Sys2Proof.Machine
end

section
/-! PROOFS. The laws of the lane minimum, read off the minimum of the unsigned numbers (00_scope.md R14). -/

namespace Sys2Proof.Machine

variable {w : Nat}

theorem umin_eq_ite (a b : BitVec w) : umin a b = if a.toNat < b.toNat then a else b := by
  simp only [umin, BitVec.ult, decide_eq_true_eq]

theorem umin_comm (a b : BitVec w) : umin a b = umin b a :=
  BitVec.eq_of_toNat_eq (by rw [umin_toNat, umin_toNat, Nat.min_comm])

theorem umin_assoc (a b c : BitVec w) : umin (umin a b) c = umin a (umin b c) :=
  BitVec.eq_of_toNat_eq (by simp only [umin_toNat, Nat.min_assoc])

theorem umin_self (a : BitVec w) : umin a a = a := (umin_eq_or a a).elim id id

theorem umin_of_le {a b : BitVec w} (h : a.toNat ≤ b.toNat) : umin a b = a :=
  BitVec.eq_of_toNat_eq (by rw [umin_toNat, Nat.min_eq_left h])

theorem umin_zero (a : BitVec w) : umin a 0 = 0 := by
  rw [umin_comm]
  exact umin_of_le (by simp)

theorem umin_allOnes (a : BitVec w) : umin a (BitVec.allOnes w) = a :=
  umin_of_le (by rw [BitVec.toNat_allOnes]; exact Nat.le_pred_of_lt a.isLt)

theorem umin_toNat_le_left (a b : BitVec w) : (umin a b).toNat ≤ a.toNat := umin_toNat a b ▸ Nat.min_le_left _ _

theorem umin_toNat_le_right (a b : BitVec w) : (umin a b).toNat ≤ b.toNat := umin_toNat a b ▸ Nat.min_le_right _ _

/-- Settles O16: the definition over unsigned numbers and each law of R14. -/
theorem laneMinimumLaws : Obligations.LaneMinimumLaws := by
  intro w a b c
  exact ⟨umin_eq_ite a b, umin_comm a b, umin_self a, umin_zero a, umin_allOnes a, umin_assoc a b c, umin_eq_or a b,
    umin_toNat_le_left a b, umin_toNat_le_right a b, by decide⟩

end Sys2Proof.Machine
end

section
/-! PROOFS. What a completed instruction wrote, and equal sources (10_state.md R22, R26, R73). -/

namespace Sys2Proof.Machine

/-- An instruction that answers next has written its form's value. -/
theorem exec_next_formValue {i : Instr} {s t : State} (h : exec i s = .next t) : t = s.complete (destOf i) (formValue s i) i.len := by
  rw [exec_eq_runForm] at h
  obtain ⟨-, -, -, ht⟩ := runForm_next h
  exact ht

theorem vec_destOf_of_next {i : Instr} {s t : State} (h : exec i s = .next t) : t.vec (destOf i) = formValue s i := by
  rw [exec_next_formValue h, State.complete_vec_same]

/-- Settles O17: the bits of the value written, below and from the form's own limit. -/
theorem writeDisciplines : Obligations.WriteDisciplines := by
  intro i s t h
  rw [vec_destOf_of_next h]
  exact ⟨fun hleg _ hb => formValue_getLsbD_legacy s hleg hb, fun hleg _ hb => formValue_getLsbD_high s hleg hb⟩

/-! ### Register numbers and register sources (30_encoding.md R73) -/

theorem rmNum4_toNat (rm : Rm) (n : BitVec 3) : (rmNum4 rm n).toNat = 8 * rm.b.toNat + n.toNat := by
  obtain ⟨x, b, form⟩ := rm
  revert b n
  simp only [rmNum4, vecNum4]
  decide

theorem rmNum5_toNat (rm : Rm) (n : BitVec 3) : (rmNum5 rm n).toNat = 16 * rm.x.toNat + 8 * rm.b.toNat + n.toNat := by
  obtain ⟨x, b, form⟩ := rm
  revert x b n
  simp only [rmNum5]
  decide

/-- A four-bit register number that equals `8 B + rm` names the r/m register. -/
theorem rmNum4_eq_vecNum4 {rm : Rm} {n : BitVec 3} {r : BitVec 4} (h : r.toNat = 8 * rm.b.toNat + n.toNat) :
    rmNum4 rm n = vecNum4 r := by
  apply BitVec.eq_of_toNat_eq
  rw [rmNum4_toNat, ← h, vecNum4, BitVec.toNat_setWidth_of_le (by decide)]

/-- A five-bit register number that equals `16 X + 8 B + rm` names the r/m register of an EVEX form. -/
theorem rmNum5_eq {rm : Rm} {n : BitVec 3} {r : BitVec 5} (h : r.toNat = 16 * rm.x.toNat + 8 * rm.b.toNat + n.toNat) :
    rmNum5 rm n = r :=
  BitVec.eq_of_toNat_eq (by rw [rmNum5_toNat, h])

theorem source2_reg (s : State) (pfx : List Pfx) {rm : Rm} {n : BitVec 3} (len bytes : Nat) (h : rm.form = .reg n) :
    source2 s pfx rm len bytes = s.vec (rmNum4 rm n) := by
  simp only [source2, h]

theorem evexSource2_reg (s : State) {o : EvexOperands} {n : BitVec 3} (w vl : Nat) (h : o.rm.form = .reg n) :
    evexSource2 s o w vl = s.vec (rmNum5 o.rm n) := by
  simp only [evexSource2, h]

/-! ### The lane minimum of a value with itself (10_state.md R26) -/

section
variable {w : Nat}

theorem lane_getLsbD_mod (hw : 0 < w) (v : Vec) (b : Nat) : (lane w v (b / w)).getLsbD (b % w) = v.getLsbD b := by
  rw [lane, BitVec.getLsbD_extractLsb', Nat.div_add_mod', decide_eq_true (Nat.mod_lt b hw), Bool.true_and]

/-- With equal sources an active lane is copied, an inactive one is kept or becomes 0, and what is above the lanes is 0. -/
theorem maskedMinLanes_self_getLsbD (hw : 0 < w) (n : Nat) (active : Nat → Bool) (z : Bool) (d a : Vec) (b : Nat) :
    (maskedMinLanes w n active z d a a).getLsbD b
      = (decide (b < n * w) && (if active (b / w) then a.getLsbD b else !z && d.getLsbD b)) := by
  rw [maskedMinLanes, pack_getLsbD _ _ _ hw]
  by_cases hb : b < 512
  · simp only [hb, decide_true, Bool.true_and, umin_self]
    congr 1
    split
    · exact lane_getLsbD_mod hw a b
    · cases z
      · exact lane_getLsbD_mod hw d b
      · simp
  · simp [hb, BitVec.getLsbD_of_ge _ _ (Nat.not_lt.1 hb)]

/-- The lane-wise minimum is the masked one with every lane active. -/
theorem minLanes_eq_maskedMinLanes (w n : Nat) (z : Bool) (d a b : Vec) :
    minLanes w n a b = maskedMinLanes w n (fun _ => true) z d a b := rfl

/-- With equal sources the lane-wise minimum copies the lanes and zeroes the rest. -/
theorem minLanes_self_getLsbD (hw : 0 < w) (n : Nat) (a : Vec) (b : Nat) :
    (minLanes w n a a).getLsbD b = (decide (b < n * w) && a.getLsbD b) := by
  rw [minLanes_eq_maskedMinLanes w n false a, maskedMinLanes_self_getLsbD hw, if_pos rfl]

theorem keepUpper128_minLanes_self (a : Vec) : keepUpper128 a (minLanes 32 4 a a) = a := by
  apply BitVec.eq_of_getLsbD_eq
  intro b _
  rw [keepUpper128_getLsbD, minLanes_self_getLsbD (by decide)]
  split <;> simp_all

end

/-! ### The parts of a form -/

/-- What the statements on VEX forms need of a form's parts. -/
theorem vexParts_eq_some {i : Instr} {o : VexOperands} {vl : Nat} (h : vexParts i = some (o, vl)) :
    destOf i = vecNum4 o.d ∧ vl / 32 * 32 = vl
      ∧ ∀ s, formValue s i = minLanes 32 (vl / 32) (s.vec (vecNum4 o.s1)) (source2 s o.pfx o.rm i.len (vl / 8)) := by
  cases i <;> cases h <;> exact ⟨rfl, rfl, fun s => formValue_of_vex s rfl rfl⟩

theorem destOf_of_evexParts {i : Instr} {o : EvexOperands} {w vl : Nat} (h : evexParts i = some (o, w, vl)) : destOf i = o.d := by
  cases i <;> cases h <;> rfl

/-- The lanes of an EVEX form fill its vector length. -/
theorem lanes_mul_width {i : Instr} {o : EvexOperands} {w vl : Nat} (h : evexParts i = some (o, w, vl)) : vl / w * w = vl := by
  cases i <;> cases h <;> rfl

theorem laneActive_eq_true_iff (s : State) (aaa : BitVec 3) (j : Nat) :
    laneActive s aaa j = true ↔ aaa = 0 ∨ (s.opmask aaa).getLsbD j = true := by
  simp [laneActive]

/-- Settles O18: the encodings name one register, so each form takes the minimum of a value with itself. -/
theorem equalSourcesAreCopied : Obligations.EqualSourcesAreCopied := by
  refine ⟨fun i o vl n s t hparts hreg hnum hnext b => ?_, fun i o w vl n s t hparts hreg hnum hnext b => ?_,
    fun o n s t hreg hnum hnext => ?_⟩
  · obtain ⟨hd, hvl, hvalue⟩ := vexParts_eq_some hparts
    rw [← hd, vec_destOf_of_next hnext, hvalue, source2_reg s o.pfx _ _ hreg, rmNum4_eq_vecNum4 hnum,
      minLanes_self_getLsbD (by decide), hvl]
  · obtain ⟨hw, -⟩ := evexParts_eq_some hparts
    rw [← destOf_of_evexParts hparts, vec_destOf_of_next hnext, formValue_of_evex s hparts, evexSource2_reg s w vl hreg,
      rmNum5_eq hnum, maskedMinLanes_self_getLsbD (hw ▸ widthOf_pos i), lanes_mul_width hparts, destOf_of_evexParts hparts]
    simp only [laneActive_eq_true_iff]
  · have hsource : secondSource s (.pminudSse128 o) = s.vec (vecNum4 o.d) :=
      (source2_reg s o.pfx _ _ hreg).trans (congrArg s.vec (rmNum4_eq_vecNum4 hnum))
    have hvalue := vec_destOf_of_next hnext
    rw [formValue_of_legacy s rfl, hsource] at hvalue
    exact hvalue.trans (keepUpper128_minLanes_self _)

end Sys2Proof.Machine
end

section
/-! PROOFS. The frame of a step, and what no form reads: RFLAGS and MXCSR, `K[0]`, mask bits above the lanes (10_state.md R23 to R25, R33). -/

namespace Sys2Proof.Machine

theorem exec_sameButDest {i : Instr} {s t : State} (h : exec i s = .next t) : sameButDest (destOf i) s t := by
  obtain ⟨v, rfl⟩ := exec_next h
  exact complete_sameButDest s (destOf i) v i.len

/-- Settles O22: a step that answers next ran a decoded instruction, which keeps its frame. -/
theorem stepChangesOnlyDestination : Obligations.StepChangesOnlyDestination := by
  intro s t h
  obtain ⟨i, rest, hdecode, hexec⟩ := step_next h
  exact ⟨i, rest, hdecode, exec_sameButDest hexec⟩

/-! ### Changing what a form does not read -/

/-- `g` changes nothing that the order of checks of R148 looks at, and nothing that completing writes. -/
def leavesRunForm (g : State → State) : Prop :=
  ∀ s, (g s).cfg = s.cfg ∧ (g s).pc = s.pc ∧ ∀ d v len, (g s).complete d v len = g (s.complete d v len)

theorem raise_congr_pc (e : Exc) {s t : State} (h : s.pc = t.pc) : raise e s = raise e t := by
  cases e <;> simp only [raise, h]

theorem onNext_raise (g : State → State) (e : Exc) (s : State) : onNext g (raise e s) = raise e s := by
  cases e <;> rfl

theorem stopOutcome_onNext {g : State → State} (hg : leavesRunForm g) (st : Stop) (s : State) :
    stopOutcome st (g s) = onNext g (stopOutcome st s) := by
  obtain ⟨-, hpc, -⟩ := hg s
  cases st with
  | exc e => exact (raise_congr_pc e hpc).trans (onNext_raise g e s).symm
  | refuse r => rfl

/-- Such a change commutes with the shape of every form. -/
theorem runForm_onNext {g : State → State} (hg : leavesRunForm g) (s : State) (ud : Bool) (stop : Option Stop) (d : BitVec 5) (v : Vec)
    (len : Nat) : runForm (g s) ud stop d v len = onNext g (runForm s ud stop d v len) := by
  obtain ⟨hcfg, hpc, hcomplete⟩ := hg s
  have hraise (e : Exc) : raise e (g s) = onNext g (raise e s) := (raise_congr_pc e hpc).trans (onNext_raise g e s).symm
  unfold runForm
  rw [hcfg]
  split
  · exact hraise .ud
  · split
    · exact hraise .nm
    · cases stop with
      | none => simp only [onNext, hcomplete]
      | some st => exact stopOutcome_onNext hg st s

/-- A form whose test, stop and value do not see such a change has the same outcome after it. -/
theorem exec_onNext {g : State → State} (hg : leavesRunForm g) {i : Instr} {s : State} (hud : formUd (g s) i = formUd s i)
    (hstop : formStop (g s) i = formStop s i) (hvalue : formValue (g s) i = formValue s i) :
    exec i (g s) = onNext g (exec i s) := by
  rw [exec_eq_runForm, exec_eq_runForm, hud, hstop, hvalue, runForm_onNext hg]

/-! ### RFLAGS and MXCSR (R33) -/

/-- Other values in RFLAGS and MXCSR. -/
def withFlags (r : BitVec 64) (m : BitVec 32) (t : State) : State := { t with rflags := r, mxcsr := m }

theorem withFlags_leavesRunForm (r : BitVec 64) (m : BitVec 32) : leavesRunForm (withFlags r m) :=
  fun _ => ⟨rfl, rfl, fun _ _ _ => rfl⟩

theorem exec_withFlags (i : Instr) (s : State) (r : BitVec 64) (m : BitVec 32) :
    exec i (withFlags r m s) = onNext (withFlags r m) (exec i s) :=
  exec_onNext (withFlags_leavesRunForm r m) rfl rfl rfl

/-- Settles O25: the test, the stop and the value of a form look at neither register, and completing keeps both. -/
theorem flagsNeitherReadNorWritten : Obligations.FlagsNeitherReadNorWritten := by
  intro i s r m
  refine ⟨exec_withFlags i s r m, fun t h => ?_⟩
  obtain ⟨v, rfl⟩ := exec_next h
  exact ⟨State.complete_rflags .., State.complete_mxcsr ..⟩

/-! ### Opmask registers (R23, R24) -/

/-- Other opmask registers. -/
def withOpmasks (k : Vector Mask 8) (t : State) : State := { t with k := k }

theorem withOpmasks_leavesRunForm (k : Vector Mask 8) : leavesRunForm (withOpmasks k) :=
  fun _ => ⟨rfl, rfl, fun _ _ _ => rfl⟩

/-- With the opmask registers `k` the form has the active lanes it has in `s`; a form without a writemask operand asks for nothing. -/
def sameActiveLanes (s : State) (k : Vector Mask 8) (i : Instr) : Prop :=
  ∀ o w vl, evexParts i = some (o, w, vl) → ∀ j < vl / w, laneActive (withOpmasks k s) o.aaa j = laneActive s o.aaa j

/-- Lanes are the same where the mask bits are, for the one register a writemask names. -/
theorem laneActive_withOpmasks (s : State) (k : Vector Mask 8) (aaa : BitVec 3) (j : Nat)
    (h : aaa ≠ 0 → (k[aaa.toNat]'aaa.isLt).getLsbD j = (s.opmask aaa).getLsbD j) :
    laneActive (withOpmasks k s) aaa j = laneActive s aaa j := by
  have hmask : (withOpmasks k s).opmask aaa = k[aaa.toNat]'aaa.isLt := rfl
  by_cases haaa : aaa = 0
  · simp [laneActive, haaa]
  · rw [laneActive, laneActive, hmask, h haaa]

/-- A byte of a full EVEX operand belongs to one of its lanes. -/
theorem laneOfByte_lt {i : Instr} {o : EvexOperands} {w vl k : Nat} (h : evexParts i = some (o, w, vl)) (hk : k < vl / 8) :
    k / (w / 8) < vl / w := by
  cases i <;> cases h <;> omega

/-- Which bytes of an operand are needed depends on the active lanes only (20_memory.md R49). -/
theorem opNeeded_withOpmasks {s : State} {k : Vector Mask 8} {i : Instr} (h : sameActiveLanes s k i) {b : Nat} (hb : b < opBytes i) :
    opNeeded (withOpmasks k s) i b = opNeeded s i b := by
  cases hparts : evexParts i with
  | none => simp only [opNeeded, hparts]
  | some parts =>
    obtain ⟨o, w, vl⟩ := parts
    have hlanes := h o w vl hparts
    simp only [opNeeded, hparts, evexNeeded]
    congr 1
    simp only [opBytes, hparts, evexBytes] at hb
    split_ifs at hb ⊢ with hbc
    · rw [Bool.eq_iff_iff, List.any_eq_true, List.any_eq_true]
      exact exists_congr fun j => and_congr_right fun hj => by rw [hlanes j (List.mem_range.1 hj)]
    · exact hlanes _ (laneOfByte_lt hparts hb)

theorem formStop_withOpmasks {s : State} {k : Vector Mask 8} {i : Instr} (h : sameActiveLanes s k i) :
    formStop (withOpmasks k s) i = formStop s i := by
  have haddr : opAddr (withOpmasks k s) i = opAddr s i := rfl
  have hcfg : (withOpmasks k s).cfg = s.cfg := rfl
  simp only [formStop, haddr, hcfg, accessStop_congr s.cfg _ _ fun b hb => opNeeded_withOpmasks h hb]

/-- The masked minimum depends on the active lanes among the first `n` only. -/
theorem maskedMinLanes_congr {w n : Nat} {active active' : Nat → Bool} (h : ∀ j < n, active j = active' j) (z : Bool) (d a b : Vec) :
    maskedMinLanes w n active z d a b = maskedMinLanes w n active' z d a b :=
  pack_congr fun j hj => by rw [h j hj]

theorem formValue_withOpmasks {s : State} {k : Vector Mask 8} {i : Instr} (h : sameActiveLanes s k i) :
    formValue (withOpmasks k s) i = formValue s i := by
  cases hparts : evexParts i with
  | none =>
    simp only [formValue, hparts]
    rfl
  | some parts =>
    obtain ⟨o, w, vl⟩ := parts
    rw [formValue_of_evex _ hparts, formValue_of_evex _ hparts]
    exact maskedMinLanes_congr (h o w vl hparts) _ _ _ _

/-- Opmask registers matter to a form only through its active lanes. -/
theorem exec_withOpmasks {s : State} {k : Vector Mask 8} {i : Instr} (h : sameActiveLanes s k i) :
    exec i (withOpmasks k s) = onNext (withOpmasks k) (exec i s) :=
  exec_onNext (withOpmasks_leavesRunForm k) rfl (formStop_withOpmasks h) (formValue_withOpmasks h)

/-- Settles O26: a writemask operand names `K[0]` only to say that there is no writemask (30_encoding.md R77). -/
theorem opmaskZeroNeverRead : Obligations.OpmaskZeroNeverRead := by
  intro i s v
  refine exec_withOpmasks fun o _ _ _ j _ => laneActive_withOpmasks s _ o.aaa j fun haaa => ?_
  have hne : 0 ≠ o.aaa.toNat := fun h => haaa (BitVec.eq_of_toNat_eq h.symm)
  rw [Vector.getElem_set_ne _ _ hne]
  rfl

/-- Settles O27: the active lanes of a form are among its first `KL`. -/
theorem maskBitsAboveLanesIgnored : Obligations.MaskBitsAboveLanesIgnored := by
  intro i s k' h
  refine exec_withOpmasks fun o w vl hparts j hj => laneActive_withOpmasks s k' o.aaa j fun _ => ?_
  obtain ⟨rfl, rfl⟩ := evexParts_eq_some hparts
  exact h o.aaa.toFin j hj

end Sys2Proof.Machine
end

section
/-! PROOFS. The segment of a memory operand (10_state.md R36; 30_encoding.md R67, R68). -/

namespace Sys2Proof.Machine

theorem segOverride_eq_none {ps : List Pfx} (h : ∀ p ∈ ps, ∀ g, p ≠ .seg g) : segOverride ps = none := by
  induction ps with
  | nil => rfl
  | cons p ps ih =>
    have htail := ih fun q hq => h q (List.mem_cons_of_mem _ hq)
    cases p with
    | seg g => exact absurd rfl (h (.seg g) List.mem_cons_self g)
    | addrSize => exact htail
    | opSize => exact htail

/-- The segment override with none after it is the one that counts. -/
theorem segOverride_append_seg (ps : List Pfx) {qs : List Pfx} (g : Seg) (h : ∀ q ∈ qs, ∀ f, q ≠ .seg f) :
    segOverride (ps ++ .seg g :: qs) = some g := by
  induction ps with
  | nil => simp [segOverride, segOverride_eq_none h]
  | cons p ps ih =>
    cases p with
    | seg f => simp [segOverride, ih]
    | addrSize => exact ih
    | opSize => exact ih

theorem operandSeg_of_override {ps : List Pfx} {g : Seg} (rm : Rm) (h : segOverride ps = some g) : operandSeg ps rm = g := by
  simp only [operandSeg, h]

theorem operandSeg_of_no_override {ps : List Pfx} (rm : Rm) (h : segOverride ps = none) :
    operandSeg ps rm = if baseOf rm = some 4 ∨ baseOf rm = some 5 then .ss else .ds := by
  simp only [operandSeg, h]

/-- In M64 only FS and GS have a base of their own (30_encoding.md R67). -/
theorem segBaseOf_m64 {c : Platform} (hm : c.mode = .m64) {g : Seg} (hfs : g ≠ .fs) (hgs : g ≠ .gs) : segBaseOf c g = 0 := by
  cases g
  case fs => exact absurd rfl hfs
  case gs => exact absurd rfl hgs
  all_goals exact if_pos hm

/-- Settles O33: the override found last, and the default that the base register gives where there is none. -/
theorem segmentSelection : Obligations.SegmentSelection := by
  refine ⟨fun ps qs g rm h => operandSeg_of_override rm (segOverride_append_seg ps g h), fun ps rm h => ?_,
    fun c g hm hfs hgs => segBaseOf_m64 hm hfs hgs⟩
  rw [operandSeg_of_no_override rm (segOverride_eq_none h)]
  exact ⟨fun hbase => if_pos hbase, fun h4 h5 => if_neg (not_or.2 ⟨h4, h5⟩)⟩

end Sys2Proof.Machine
end

section
/-! PROOFS. How many bytes decoding consumes, and when it runs out of them (30_encoding.md R60 to R66, R83). -/

namespace Sys2Proof

/-! ### Bytes consumed -/

theorem finishDecode_length {m : Mode} {n : Nat} {pre : List PreByte} {bs rest : List Byte} {instr : BitVec 3 → RmForm → Instr} {i : Instr}
    (h : finishDecode m n pre bs instr = .instr i rest) :
    ∃ reg form, i = instr reg form ∧ bs.length = form.len + rest.length := by
  obtain ⟨reg, form, hi, -, rfl, -, -⟩ := finishDecode_sound h
  exact ⟨reg, form, hi, by rw [List.length_append, encodeRm_length]⟩

theorem scanPre_length (m : Mode) (bs : List Byte) : bs.length = (scanPre m bs).1.length + (scanPre m bs).2.length := by
  obtain ⟨hbs, -⟩ := scanPre_sound (m := m) (bs := bs) rfl
  conv_lhs => rw [hbs]
  rw [List.length_append, List.length_map]

/-- The plain prefixes are all the bytes that stand before `C4` or `62` of a form. -/
theorem plainPfx_length {pre : List PreByte} (h : pre.any PreByte.badBeforeVex = false) (hl : .lock ∉ pre) :
    (plainPfx pre).length = pre.length := by
  obtain ⟨hpre, -⟩ := plainPfx_sound h hl
  conv_rhs => rw [hpre]
  rw [List.length_map]

theorem vexRow_len (l : Bool) (o : VexOperands) : (vexRow l o).len = o.len := by cases l <;> rfl

theorem evexRow_len {w : Bool} {ll : BitVec 2} {row : EvexOperands → Instr} (h : evexRow w ll = some row) (o : EvexOperands) :
    (row o).len = o.len := by
  unfold evexRow at h
  split_ifs at h <;> cases h <;> rfl

/-! ### Where the bytes run out -/

theorem length_of_take32_none {bs : List Byte} (h : take32 bs = none) : bs.length < 4 := by
  unfold take32 at h
  split at h
  · cases h
  · rename_i hne
    rcases bs with _ | ⟨b0, _ | ⟨b1, _ | ⟨b2, _ | ⟨b3, tl⟩⟩⟩⟩
    case cons.cons.cons.cons => exact absurd rfl (hne b0 b1 b2 b3 tl)
    all_goals simp

theorem length_of_takeDisp_none {mod : BitVec 2} {bs : List Byte} (h : takeDisp mod bs = none) : bs.length < 4 := by
  unfold takeDisp at h
  split_ifs at h
  · split at h
    · cases h
    · simp
  · exact length_of_take32_none (Option.map_eq_none_iff.1 h)

/-- ModRM, SIB and displacement are at most six bytes (R64 to R66). -/
theorem length_of_takeRm_none {bs : List Byte} (h : takeRm bs = none) : bs.length < 6 := by
  unfold takeRm at h
  split at h
  · simp
  · rw [List.length_cons]
    split_ifs at h
    · split at h
      · simp
      · rw [List.length_cons]
        split_ifs at h
        · have := length_of_take32_none (Option.map_eq_none_iff.1 h)
          omega
        · have := length_of_takeDisp_none (Option.map_eq_none_iff.1 h)
          omega
    · have := length_of_take32_none (Option.map_eq_none_iff.1 h)
      omega
    · have := length_of_takeDisp_none (Option.map_eq_none_iff.1 h)
      omega

theorem length_of_finishDecode_truncated {m : Mode} {n : Nat} {pre : List PreByte} {bs : List Byte} {instr : BitVec 3 → RmForm → Instr}
    (h : finishDecode m n pre bs instr = .refused .truncated) : bs.length < 6 := by
  unfold finishDecode at h
  split at h
  · cases h
  · split at h
    · rename_i hrm
      exact length_of_takeRm_none hrm
    · split at h <;> cases h

/-! ### What the three formats answer, from the byte after `0F`, `C4` or `62` on -/

/-- A format whose ModRM stands after `k` of the bytes `bs` decides before it, or lacks one of the `k`, or reads its operand with `finishDecode`;
then the bytes in `pre`, the one before `bs`, the `k` bytes and the operand make up `ilen` (R83). -/
inductive FormatDecodes (m : Mode) (n : Nat) (pre : List PreByte) (bs : List Byte) (k : Nat) : Decoded → Prop
  | undefined (why : UdReason) : FormatDecodes m n pre bs k (.undefined why)
  | refused (why : DecodeRefusal) (h : why ≠ .truncated) : FormatDecodes m n pre bs k (.refused why)
  | short (h : bs.length < k) : FormatDecodes m n pre bs k (.refused .truncated)
  | operand (tl : List Byte) (instr : BitVec 3 → RmForm → Instr) (hbs : bs.length = k + tl.length)
      (hlen : ∀ reg form, (instr reg form).len = pre.length + 1 + k + form.len) :
      FormatDecodes m n pre bs k (finishDecode m n pre tl instr)

section
variable {m : Mode} {n k : Nat} {pre : List PreByte} {bs rest : List Byte} {d : Decoded} {i : Instr}

theorem FormatDecodes.length_of_instr (hd : FormatDecodes m n pre bs k d) (h : d = .instr i rest) :
    pre.length + 1 + bs.length = i.len + rest.length := by
  cases hd with
  | undefined why => cases h
  | refused why hwhy => cases h
  | short hk => cases h
  | operand tl instr hbs hlen =>
    obtain ⟨reg, form, rfl, htl⟩ := finishDecode_length h
    rw [hlen, hbs, htl]
    omega

theorem FormatDecodes.length_of_truncated (hd : FormatDecodes m n pre bs k d) (h : d = .refused .truncated) : bs.length < k + 6 := by
  cases hd with
  | undefined why => cases h
  | refused why hwhy => exact absurd (Decoded.refused.inj h) hwhy
  | short hk => omega
  | operand tl instr hbs hlen =>
    have := length_of_finishDecode_truncated h
    omega

end

/-- Format `LEG` (R61, R90). -/
theorem decodeLeg_formatDecodes (m : Mode) (n : Nat) (pre : List PreByte) (bs : List Byte) :
    FormatDecodes m n pre bs 2 (decodeLeg m n pre bs) := by
  unfold decodeLeg
  split
  · rename_i b1 b2 tl
    split
    · split
      · exact .refused _ (by decide)
      · split
        · exact .undefined _
        · split
          · exact .refused _ (by decide)
          · split
            · exact .refused _ (by decide)
            · rename_i ps hpre
              refine .operand tl _ (by simp only [List.length_cons]; omega) fun reg form => ?_
              simp [legacyPre_sound hpre, rexPre, Instr.len, LegOperands.len]
            · rename_i ps w r x b hpre
              refine .operand tl _ (by simp only [List.length_cons]; omega) fun reg form => ?_
              simp [legacyPre_sound hpre, rexPre, Instr.len, LegOperands.len]
    · exact .refused _ (by decide)
  · rename_i hne
    refine .short ?_
    rcases bs with _ | ⟨b1, _ | ⟨b2, tl⟩⟩
    case cons.cons => exact absurd rfl (hne b1 b2 tl)
    all_goals simp

/-- Format `VEX3` behind prefixes that may stand there (R62, R90). -/
theorem decodeVex_formatDecodes (m : Mode) (n : Nat) {pre : List PreByte} (bs : List Byte) (hpre : pre.any PreByte.badBeforeVex = false) :
    FormatDecodes m n pre bs 3 (decodeVex m n pre bs) := by
  unfold decodeVex
  split
  · rename_i p1 p2 op tl
    split
    · split
      · exact .undefined _
      · rename_i hlock
        split
        · exact .refused _ (by decide)
        · refine .operand tl _ (by simp only [List.length_cons]; omega) fun reg form => ?_
          rw [vexRow_len, VexOperands.len, plainPfx_length hpre hlock]
    · exact .refused _ (by decide)
  · rename_i hne
    refine .short ?_
    rcases bs with _ | ⟨p1, _ | ⟨p2, _ | ⟨op, tl⟩⟩⟩
    case cons.cons.cons => exact absurd rfl (hne p1 p2 op tl)
    all_goals simp

/-- Format `EVEX` behind prefixes that may stand there (R63, R90). -/
theorem decodeEvex_formatDecodes (m : Mode) (n : Nat) {pre : List PreByte} (bs : List Byte) (hpre : pre.any PreByte.badBeforeVex = false) :
    FormatDecodes m n pre bs 4 (decodeEvex m n pre bs) := by
  unfold decodeEvex
  split
  · rename_i p0 p1 p2 op tl
    split
    · split
      · exact .undefined _
      · rename_i hlock
        split
        · exact .undefined _
        · split
          · exact .undefined _
          · rename_i row hrow
            split
            · exact .undefined _
            · split
              · exact .refused _ (by decide)
              · refine .operand tl _ (by simp only [List.length_cons]; omega) fun reg form => ?_
                rw [evexRow_len hrow, EvexOperands.len, plainPfx_length hpre hlock]
    · exact .refused _ (by decide)
  · rename_i hne
    refine .short ?_
    rcases bs with _ | ⟨p0, _ | ⟨p1, _ | ⟨p2, _ | ⟨op, tl⟩⟩⟩⟩
    case cons.cons.cons.cons => exact absurd rfl (hne p0 p1 p2 op tl)
    all_goals simp

/-- What is decided right after `C4` or `62` leaves only the format behind good prefixes (R81, R83). -/
theorem afterEscape_formatDecodes {m : Mode} {n k : Nat} {pre : List PreByte} {bs : List Byte} {body : Decoded} (hk : 0 < k)
    (h : pre.any PreByte.badBeforeVex = false → FormatDecodes m n pre bs k body) :
    FormatDecodes m n pre bs k (afterEscape m pre bs body) := by
  unfold afterEscape
  split
  · rename_i hnil
    obtain ⟨-, rfl⟩ := hnil
    exact .short hk
  · split
    · exact .refused _ (by decide)
    · split
      · exact .undefined _
      · rename_i hbad
        exact h (Bool.eq_false_of_not_eq_true hbad)

/-- Decoding is that of one of the formats after the prefixes and one more byte, or lacks that byte, or knows no format for it. -/
theorem decode_cases (m : Mode) (bs : List Byte) :
    ((scanPre m bs).2 = [] ∧ decode m bs = .refused .truncated) ∨ decode m bs = .refused .notInScope
      ∨ ∃ c tl k, (scanPre m bs).2 = c :: tl ∧ k ≤ 4 ∧ FormatDecodes m bs.length (scanPre m bs).1 tl k (decode m bs) := by
  unfold decode
  split
  · rename_i hcore
    exact .inl ⟨hcore, rfl⟩
  · rename_i c tl hcore
    split
    · exact .inr (.inr ⟨c, tl, 2, hcore, by decide, decodeLeg_formatDecodes _ _ _ _⟩)
    · split
      · exact .inr (.inr ⟨c, tl, 3, hcore, by decide, afterEscape_formatDecodes (by decide) (decodeVex_formatDecodes _ _ _)⟩)
      · split
        · exact .inr (.inr ⟨c, tl, 4, hcore, by decide, afterEscape_formatDecodes (by decide) (decodeEvex_formatDecodes _ _ _)⟩)
        · exact .inr (.inl rfl)

/-- Decoding an instruction consumes `ilen` bytes (R83). -/
theorem decode_length {m : Mode} {bs rest : List Byte} {i : Instr} (h : decode m bs = .instr i rest) :
    bs.length = i.len + rest.length := by
  obtain ⟨-, hd⟩ | hd | ⟨c, tl, k, hcore, -, hformat⟩ := decode_cases m bs
  · simp [hd] at h
  · simp [hd] at h
  · rw [scanPre_length m bs, hcore, List.length_cons, ← hformat.length_of_instr h]
    omega

/-- Decoding runs out of bytes only where at most ten stand after the prefixes (R61 to R66). -/
theorem length_of_decode_truncated {m : Mode} {bs : List Byte} (h : decode m bs = .refused .truncated) :
    (scanPre m bs).2.length < 11 := by
  obtain ⟨hcore, -⟩ | hd | ⟨c, tl, k, hcore, hk, hformat⟩ := decode_cases m bs
  · simp [hcore]
  · simp [hd] at h
  · have := hformat.length_of_truncated h
    rw [hcore, List.length_cons]
    omega

/-! ### Bytes before the form -/

/-- No byte that may stand before a form is 0 (R61, R90). -/
theorem PreByte.byte_ne_zero (p : PreByte) : p.byte ≠ 0 := by
  cases p with
  | pfx p =>
    rcases p with g | _ | _
    · cases g <;> decide
    all_goals decide
  | lock => decide
  | repne => decide
  | rep => decide
  | rex w r x b =>
    revert w r x b
    simp only [PreByte.byte]
    decide

/-- The bytes scanned as prefixes are not 0. -/
theorem getElem?_scanPre_ne_zero {m : Mode} {bs : List Byte} {k : Nat} (hk : k < (scanPre m bs).1.length) :
    ∃ b, bs[k]? = some b ∧ b ≠ 0 := by
  obtain ⟨hbs, -⟩ := scanPre_sound (m := m) (bs := bs) rfl
  refine ⟨((scanPre m bs).1[k]).byte, ?_, PreByte.byte_ne_zero _⟩
  calc bs[k]? = ((scanPre m bs).1.map PreByte.byte ++ (scanPre m bs).2)[k]? := congrArg (·[k]?) hbs
    _ = some ((scanPre m bs).1[k]).byte := by
      rw [List.getElem?_append_left (by rwa [List.length_map]), List.getElem?_map, List.getElem?_eq_getElem hk, Option.map_some]

end Sys2Proof
end

section
/-! PROOFS. The bytes a step fetches, and how `pc` moves (10_state.md R31, R32; 92_eei_decisions.md D19). -/

namespace Sys2Proof.Machine

/-! ### Bytes that are not 0 -/

theorem Memory.mem_of_read_ne_zero {m : Memory} {a : Nat} (h : m.read a ≠ 0) : a ∈ m.map Prod.fst := by
  induction m with
  | nil => exact absurd rfl h
  | cons c m ih =>
    obtain ⟨b, u⟩ := c
    simp only [Memory.read] at h
    split_ifs at h with hb
    · exact hb ▸ List.mem_cons_self
    · exact List.mem_cons_of_mem _ (ih h)

/-- Memory lists every byte that is not 0, so a run of them is no longer than the list. -/
theorem Memory.run_le_length {m : Memory} {a n : Nat} (h : ∀ k < n, m.read (a + k) ≠ 0) : n ≤ m.length := by
  have hsub : List.range' a n ⊆ m.map Prod.fst := fun b hb => by
    obtain ⟨k, hk, rfl⟩ := List.mem_range'.1 hb
    rw [Nat.one_mul]
    exact Memory.mem_of_read_ne_zero (h k hk)
  simpa using ((List.nodup_range' (step := 1)).subperm hsub).length_le

/-! ### Fetched bytes -/

theorem getElem?_fetchBytes (s : State) {k : Nat} (hk : k < (fetchBytes s).length) :
    (fetchBytes s)[k]? = some (s.mem.read (s.pc.toNat + k)) := by
  rw [fetchBytes, Memory.readBytes_length] at hk
  exact Memory.getElem?_readBytes _ _ hk

theorem fetchBytes_eq_nil {s : State} (h : fetchLimit s.cfg ≤ s.pc.toNat) : fetchBytes s = [] := by
  rw [← List.length_eq_zero_iff, fetchBytes_length]
  omega

theorem fetchBytes_in_range {s : State} (h : s.pc.toNat < fetchLimit s.cfg) :
    s.pc.toNat + (fetchBytes s).length ≤ fetchLimit s.cfg := by
  rw [fetchBytes_length]
  omega

/-- However many prefixes stand at `pc`, memory lists each of them (30_encoding.md R83; log 9). -/
theorem scanPre_fetchBytes_le (s : State) : (scanPre s.cfg.mode (fetchBytes s)).1.length ≤ s.mem.length := by
  refine Memory.run_le_length (a := s.pc.toNat) fun k hk => ?_
  have hlen := scanPre_length s.cfg.mode (fetchBytes s)
  obtain ⟨b, hb, hne⟩ := getElem?_scanPre_ne_zero hk
  rw [getElem?_fetchBytes s (by omega)] at hb
  exact Option.some.inj hb ▸ hne

/-- Settles O52: the fetch takes 15 bytes more than memory can list as prefixes, and what follows the prefixes needs no more than eleven. -/
theorem fetchRunsOutOnlyAtAddressLimit : Obligations.FetchRunsOutOnlyAtAddressLimit := by
  intro s
  refine ⟨fun k hk => getElem?_fetchBytes s hk, ?_, fun htrunc => ?_⟩
  · rcases Nat.lt_or_ge s.pc.toNat (fetchLimit s.cfg) with hlt | hge
    · exact .inl (fetchBytes_in_range hlt)
    · exact .inr (fetchBytes_eq_nil hge)
  · have hcore := length_of_decode_truncated htrunc
    have hpre := scanPre_fetchBytes_le s
    have hsplit := scanPre_length s.cfg.mode (fetchBytes s)
    have hlen := fetchBytes_length s
    omega

/-! ### How `pc` moves -/

theorem fetchLimit_lt (c : Platform) : fetchLimit c < 2 ^ 64 := by
  unfold fetchLimit
  split
  · decide
  · split <;> decide

theorem step_of_pc_out_of_range {s : State} (h : fetchLimit s.cfg ≤ s.pc.toNat) : step s = .refused .pcOutOfRange := by
  simp only [step, fetchBytes_eq_nil h]
  rfl

/-- The bytes of the instruction at `pc` all lie below the fetch limit. -/
theorem pc_add_len_le {s : State} {i : Instr} {rest : List Byte} (h : decode s.cfg.mode (fetchBytes s) = .instr i rest) :
    s.pc.toNat + i.len ≤ fetchLimit s.cfg := by
  have hlen := decode_length h
  rcases Nat.lt_or_ge s.pc.toNat (fetchLimit s.cfg) with hlt | hge
  · have := fetchBytes_in_range hlt
    omega
  · rw [fetchBytes_eq_nil hge] at h
    cases h

/-- Settles O24: the instruction's bytes end at or below the fetch limit, so adding its length to `pc` does not wrap. -/
theorem pcMovesByLength : Obligations.PcMovesByLength := by
  refine fun s => ⟨fun t h => ?_, fun f h => step_fault h, step_of_pc_out_of_range⟩
  obtain ⟨i, rest, hdecode, hexec⟩ := step_next h
  obtain ⟨v, rfl⟩ := exec_next hexec
  have hrange := pc_add_len_le hdecode
  have hlimit := fetchLimit_lt s.cfg
  have hpc : (s.complete (destOf i) v i.len).pc.toNat = s.pc.toNat + i.len := by
    rw [State.complete_pc, BitVec.toNat_add, BitVec.toNat_ofNat, Nat.add_mod_mod, Nat.mod_eq_of_lt (hrange.trans_lt hlimit)]
  exact ⟨i, rest, hdecode, State.complete_pc .., hpc, hpc.le.trans hrange⟩

end Sys2Proof.Machine
end

section
/-! PROOFS. What every run leaves unchanged (10_state.md R23, R25, R30, R33, R37; 20_memory.md R42). -/

namespace Sys2Proof.Machine

/-- The parts of the state that no instruction writes. -/
def sameReadOnly (s t : State) : Prop :=
  t.cfg = s.cfg ∧ t.mem = s.mem ∧ t.k = s.k ∧ t.x = s.x ∧ t.rflags = s.rflags ∧ t.mxcsr = s.mxcsr ∧ t.cr2 = s.cr2

theorem sameReadOnly_refl (s : State) : sameReadOnly s s := ⟨rfl, rfl, rfl, rfl, rfl, rfl, rfl⟩

theorem complete_sameReadOnly (s : State) (d : BitVec 5) (v : Vec) (len : Nat) : sameReadOnly s (s.complete d v len) :=
  ⟨State.complete_cfg .., State.complete_mem .., State.complete_k .., State.complete_x .., State.complete_rflags ..,
    State.complete_mxcsr .., State.complete_cr2 ..⟩

theorem sameReadOnly_trans {s t u : State} (hst : sameReadOnly s t) (htu : sameReadOnly t u) : sameReadOnly s u := by
  obtain ⟨hcfg, hmem, hk, hx, hrflags, hmxcsr, hcr2⟩ := hst
  obtain ⟨hcfg', hmem', hk', hx', hrflags', hmxcsr', hcr2'⟩ := htu
  exact ⟨hcfg'.trans hcfg, hmem'.trans hmem, hk'.trans hk, hx'.trans hx, hrflags'.trans hrflags, hmxcsr'.trans hmxcsr, hcr2'.trans hcr2⟩

theorem step_sameReadOnly {s t : State} (h : step s = .next t) : sameReadOnly s t := by
  obtain ⟨i, _, _, hexec⟩ := step_next h
  obtain ⟨v, rfl⟩ := exec_next hexec
  exact complete_sameReadOnly s (destOf i) v i.len

/-- Settles O23: every completed step keeps these parts, so they are those of the start state wherever a run ends. -/
theorem runLeavesReadOnlyState : Obligations.RunLeavesReadOnlyState := by
  intro top n s t h
  rw [runReaches_iff] at h
  subst h
  exact runTo_induction (sameReadOnly s) top (fun _ _ hst hstep => sameReadOnly_trans hst (step_sameReadOnly hstep)) n (sameReadOnly_refl s)

end Sys2Proof.Machine
end

section
/-! PROOFS. The bytes of a memory operand: their order, the full operand and the broadcast element (20_memory.md R41, R43; 30_encoding.md R66, R78). -/

namespace Sys2Proof.Machine

/-! ### The bytes of a lane -/

/-- Byte `b` of lane `j` is byte `j * (w / 8) + b` of the value, for lanes of whole bytes. -/
theorem lane_byte {w b : Nat} (hw : w / 8 * 8 = w) (v : Vec) (j : Nat) (hb : b < w / 8) :
    (lane w v j).extractLsb' (8 * b) 8 = lane 8 v (j * (w / 8) + b) := by
  have hstart (i : Nat) : j * w + (8 * b + i) = (j * (w / 8) + b) * 8 + i := by
    rw [Nat.add_mul, Nat.mul_assoc, hw, Nat.mul_comm b 8, Nat.add_assoc]
  apply BitVec.eq_of_getLsbD_eq
  intro i hi
  have hlt : 8 * b + i < w := by omega
  simp only [lane, BitVec.getLsbD_extractLsb', hi, hlt, decide_true, Bool.true_and, hstart]

/-- A dword lane is its four bytes, the lowest-numbered one least significant. -/
theorem lane32_eq_bytes (v : Vec) (j : Nat) :
    lane 32 v j = lane 8 v (4 * j + 3) ++ lane 8 v (4 * j + 2) ++ lane 8 v (4 * j + 1) ++ lane 8 v (4 * j) := by
  have hbyte {b : Nat} (hb : b < 4) : (lane 32 v j).extractLsb' (8 * b) 8 = lane 8 v (4 * j + b) :=
    Nat.mul_comm j 4 ▸ lane_byte (by decide) v j hb
  have hbyte0 : (lane 32 v j).extractLsb' 0 8 = lane 8 v (4 * j) := hbyte (b := 0) (by decide)
  rw [← hbyte (b := 3) (by decide), ← hbyte (b := 2) (by decide), ← hbyte (b := 1) (by decide), ← hbyte0]
  exact (le32_joined _).symm

/-- Settles O30: each lane of a read is the byte at its address, and fetching and displacements follow the same order. -/
theorem littleEndian : Obligations.LittleEndian := by
  refine ⟨fun s ea n k hn hk => lane_memRead s ea hn hk, fun s ea n j hn hj => ?_, fun m a n k hk => Memory.getElem?_readBytes m a hk,
    fun b0 b1 b2 b3 rest => rfl⟩
  rw [lane32_eq_bytes, lane_memRead s ea hn (by omega), lane_memRead s ea hn (by omega), lane_memRead s ea hn (by omega),
    lane_memRead s ea hn (by omega)]

/-! ### The second source of a memory form -/

theorem source2_mem (s : State) (pfx : List Pfx) {rm : Rm} (len n : Nat) (h : RmForm.isMem rm.form = true) :
    source2 s pfx rm len n = s.memRead (operandAddr s pfx rm len 1) n := by
  unfold source2
  split
  · rename_i r hr
    simp [hr, RmForm.isMem] at h
  · rfl

theorem evexSource2_mem (s : State) {o : EvexOperands} (w vl : Nat) (h : RmForm.isMem o.rm.form = true) :
    evexSource2 s o w vl =
      if o.bc then bcast w (lane w (s.memRead (evexAddr s o w vl) (w / 8)) 0) (vl / w) else s.memRead (evexAddr s o w vl) (vl / 8) := by
  unfold evexSource2
  split
  · rename_i r hr
    simp [hr, RmForm.isMem] at h
  · rfl

/-- What an EVEX form reads its memory operand with. -/
theorem opAddr_of_evex (s : State) {i : Instr} {o : EvexOperands} {w vl : Nat} (h : evexParts i = some (o, w, vl)) :
    opAddr s i = evexAddr s o w vl := by
  cases i <;> cases h <;> rfl

theorem rmOf_of_evex {i : Instr} {o : EvexOperands} {w vl : Nat} (h : evexParts i = some (o, w, vl)) : rmOf i = o.rm := by
  cases i <;> cases h <;> rfl

theorem opBytes_of_evex {i : Instr} {o : EvexOperands} {w vl : Nat} (h : evexParts i = some (o, w, vl)) :
    opBytes i = if o.bc then w / 8 else vl / 8 := by
  simp only [opBytes, h, evexBytes]

theorem opBytes_of_not_evex {i : Instr} (h : evexParts i = none) : opBytes i = vlOf i / 8 := by
  simp only [opBytes, h]

theorem broadcasts_of_evex {i : Instr} {o : EvexOperands} {w vl : Nat} (h : evexParts i = some (o, w, vl)) (hmem : hasMem i = true) :
    broadcasts i = o.bc := by
  simp only [broadcasts, h, hmem, Bool.and_true]

theorem secondSource_of_evex (s : State) {i : Instr} {o : EvexOperands} {w vl : Nat} (h : evexParts i = some (o, w, vl))
    (hmem : hasMem i = true) :
    secondSource s i = if o.bc then bcast w (lane w (s.memRead (opAddr s i) (w / 8)) 0) (vl / w) else s.memRead (opAddr s i) (vl / 8) := by
  rw [opAddr_of_evex s h]
  simp only [secondSource, h]
  exact evexSource2_mem s w vl (by rwa [hasMem, rmOf_of_evex h] at hmem)

theorem secondSource_of_not_evex (s : State) {i : Instr} (h : evexParts i = none) (hmem : hasMem i = true) :
    secondSource s i = s.memRead (opAddr s i) (vlOf i / 8) := by
  simp only [secondSource, h, opAddr, disp8Scale]
  exact source2_mem s _ _ _ hmem

/-- Without a broadcast the second source is the `VL / 8` bytes at `EA` (R41). -/
theorem secondSource_full (s : State) {i : Instr} (hmem : hasMem i = true) (hb : broadcasts i = false) :
    opBytes i = vlOf i / 8 ∧ secondSource s i = s.memRead (opAddr s i) (vlOf i / 8) := by
  cases h : evexParts i with
  | none => exact ⟨opBytes_of_not_evex h, secondSource_of_not_evex s h hmem⟩
  | some parts =>
    obtain ⟨o, w, vl⟩ := parts
    obtain ⟨rfl, rfl⟩ := evexParts_eq_some h
    rw [broadcasts_of_evex h hmem] at hb
    rw [opBytes_of_evex h, secondSource_of_evex s h hmem, hb]
    exact ⟨rfl, rfl⟩

/-- A broadcast fills every lane with the element at `EA` (R41, R78). -/
theorem secondSource_broadcast (s : State) {i : Instr} (hmem : hasMem i = true) (hb : broadcasts i = true) :
    opBytes i = widthOf i / 8
      ∧ secondSource s i = bcast (widthOf i) (lane (widthOf i) (s.memRead (opAddr s i) (widthOf i / 8)) 0) (vlOf i / widthOf i) := by
  cases h : evexParts i with
  | none => simp [broadcasts, h] at hb
  | some parts =>
    obtain ⟨o, w, vl⟩ := parts
    obtain ⟨rfl, rfl⟩ := evexParts_eq_some h
    rw [broadcasts_of_evex h hmem] at hb
    rw [opBytes_of_evex h, secondSource_of_evex s h hmem, hb]
    exact ⟨rfl, rfl⟩

theorem widthOf_eq (i : Instr) : widthOf i = 32 ∨ widthOf i = 64 := by cases i <;> simp [widthOf]

/-- Settles O31: the full operand is read byte by byte; every lane of a broadcast has the bytes of the one element. -/
theorem memoryOperandKinds : Obligations.MemoryOperandKinds := by
  intro i s hmem
  have hvl := vlOf_le_512 i
  refine ⟨fun hb => ?_, fun hb => ?_⟩
  · obtain ⟨hbytes, hsource⟩ := secondSource_full s hmem hb
    refine ⟨hbytes, fun k hk => ?_⟩
    rw [hsource, lane_memRead s _ (by omega) hk]
  · obtain ⟨hbytes, hsource⟩ := secondSource_broadcast s hmem hb
    have hwidth := widthOf_eq i
    have hw : widthOf i / 8 * 8 = widthOf i := by omega
    refine ⟨hbytes, fun j b hj hb => ?_⟩
    have hlanes : vlOf i / widthOf i * widthOf i ≤ 512 := (Nat.div_mul_le_self _ _).trans hvl
    rw [hsource, ← lane_byte hw _ j hb, lane_bcast _ hj hlanes, lane_byte hw _ 0 hb, lane_memRead s _ (by omega) (by omega),
      Nat.zero_mul, Nat.zero_add]

end Sys2Proof.Machine
end

section
/-! PROOFS. What stops the read of a memory operand, and when nothing does (20_memory.md R44, R45, R49 to R52; 60_exceptions.md R146 to R148). -/

namespace Sys2Proof.Machine

/-! ### `Access` of an operand -/

theorem allNeeded_iff (n : Nat) (needed : Nat → Bool) : (List.range n).all needed = true ↔ ∀ k < n, needed k = true := by
  simp

/-- An operand with a byte that is not needed has no value of `Access` of its own (log 5). -/
theorem accessWhole_of_not_needed (c : Platform) (ea : Addr) {n k : Nat} {needed : Nat → Bool} (hk : k < n) (h : needed k = false) :
    accessWhole c ea n needed = none := by
  unfold accessWhole
  rw [if_neg fun hall => Bool.false_ne_true (h.symm.trans ((allNeeded_iff n needed).1 hall k hk))]

/-- The value of `Access` that an entry's result gives its operand; the result `bytes` leaves it to the regions. -/
def ownValue (c : Platform) (ea : Addr) (n : Nat) : AccessResult → Option Access
  | .bytes _ => none
  | .ok => some .ok
  | .segmentation => some .segmentation
  | .page p rsvd pk byte => some (.page (pfCode c.env p rsvd pk) (byteAddr c.mode ea (byte % n)))

/-- For an operand read whole the value is that of its entry (R52). -/
theorem accessWhole_of_entry {c : Platform} {ea : Addr} {n : Nat} {needed : Nat → Bool} {r : AccessResult}
    (hall : ∀ k < n, needed k = true) (hentry : accessEntry c ea n = some r) : accessWhole c ea n needed = ownValue c ea n r := by
  unfold accessWhole
  rw [if_pos ((allNeeded_iff n needed).2 hall), hentry]
  cases r <;> rfl

theorem needed_of_accessWhole {c : Platform} {ea : Addr} {n : Nat} {needed : Nat → Bool} {r : Access} (h : accessWhole c ea n needed = some r) :
    ∀ k < n, needed k = true := by
  intro k hk
  by_contra hn
  rw [accessWhole_of_not_needed c ea hk (Bool.eq_false_of_not_eq_true hn)] at h
  cases h

/-- Where `Access` has a value of its own, it decides whether a canonical operand is read without a fault. -/
theorem accessOk_iff_of_whole {c : Platform} {ea : Addr} {n : Nat} {needed : Nat → Bool} {r : Access} (h : accessWhole c ea n needed = some r) :
    accessOk c ea n needed ↔ r = .ok ∧ canonicalOperand c ea n needed := by
  rw [accessOk, access_of_whole h, and_comm]

/-- Settles O51: without an entry the needed bytes decide, with one the entry does, and a byte that is not needed leaves no entry. -/
theorem readFaultsNowhereExactlyWhen : Obligations.ReadFaultsNowhereExactlyWhen := by
  intro c ea n needed
  refine ⟨accessOk_iff_of_bytes, fun _ => accessOk_iff_of_whole, ?_⟩
  rintro ⟨k, hk, hn⟩
  exact accessWhole_of_not_needed c ea hk hn

/-! ### Every function is an `Access` (R52) -/

/-- The entry of an operand, where every entry agrees with `f` and one is the operand's. -/
theorem accessEntry_of_agrees {c : Platform} {f : Addr → Nat → AccessResult} {ea : Addr} {n : Nat}
    (hagree : ∀ e ∈ c.accessEntries, e.result = f e.addr e.size) (hmem : ⟨ea, n, f ea n⟩ ∈ c.accessEntries) :
    accessEntry c ea n = some (f ea n) := by
  unfold accessEntry
  cases hfind : c.accessEntries.find? fun e => e.addr == ea && e.size == n with
  | none => simpa using List.find?_eq_none.1 hfind _ hmem
  | some e =>
    have hkey := List.find?_some hfind
    simp only [Bool.and_eq_true, beq_iff_eq] at hkey
    obtain ⟨rfl, rfl⟩ := hkey
    rw [Option.map_some, hagree e (List.mem_of_find?_eq_some hfind)]

/-- The values of `f` at every address for every count up to 64. -/
noncomputable def entriesOf (f : Addr → Nat → AccessResult) : List AccessEntry :=
  (Finset.univ : Finset (Addr × Fin 65)).toList.map fun p => ⟨p.1, p.2, f p.1 p.2⟩

theorem mem_entriesOf (f : Addr → Nat → AccessResult) (e : AccessEntry) :
    e ∈ entriesOf f ↔ e.size < 65 ∧ e.result = f e.addr e.size := by
  obtain ⟨addr, size, result⟩ := e
  simp only [entriesOf, List.mem_map, Finset.mem_toList, Finset.mem_univ, true_and, AccessEntry.mk.injEq]
  constructor
  · rintro ⟨⟨a, n⟩, rfl, rfl, rfl⟩
    exact ⟨n.isLt, rfl⟩
  · rintro ⟨hsize, rfl⟩
    exact ⟨(addr, ⟨size, hsize⟩), rfl, rfl, rfl⟩

/-- Settles O49: addresses and counts up to 64 are finitely many, so a list holds every value of the function. -/
theorem accessIsAnyFunction : Obligations.AccessIsAnyFunction := by
  intro c f
  refine ⟨entriesOf f, fun ea n hn => accessEntry_of_agrees (fun e he => ?_) ?_⟩
  · exact ((mem_entriesOf f e).1 he).2
  · exact (mem_entriesOf f _).2 ⟨Nat.lt_succ_of_le hn, rfl⟩

/-! ### An instruction that comes to reading its operand (60_exceptions.md R148) -/

theorem evexPresent_eq_true_iff (f : Feat) (vl : Nat) : evexPresent f vl = true ↔ f.avx512f = true ∧ (vl = 512 ∨ f.avx512vl = true) := by
  simp [evexPresent]

/-- The flags of an EVEX form are those its vector length asks for (60_exceptions.md R144). -/
theorem present_of_evex (f : Feat) {i : Instr} {o : EvexOperands} {w vl : Nat} (h : evexParts i = some (o, w, vl)) :
    present f i = evexPresent f vl := by
  rw [Bool.eq_iff_iff, evexPresent_eq_true_iff]
  cases i <;> cases h <;> simp [present, and_comm]

theorem formUd_of_evex (s : State) {i : Instr} {o : EvexOperands} {w vl : Nat} (h : evexParts i = some (o, w, vl)) :
    formUd s i = (evexUd s.cfg vl || evexReserved o) := by
  cases i <;> cases h <;> rfl

theorem isLegacy_of_evex {i : Instr} {o : EvexOperands} {w vl : Nat} (h : evexParts i = some (o, w, vl)) : isLegacy i = false := by
  cases i <;> cases h <;> rfl

theorem legUd_iff (c : Platform) : legUd c = true ↔ c.feat.sse41 = false ∨ c.env.em = true ∨ c.env.osfxsr = false := by
  simp [legUd, or_assoc]

/-- With R7's tie the `#UD` test of a form is the condition of R141, R142 and R144. -/
theorem formUd_iff_udCondition {s : State} (hwf : platformWf s.cfg) (i : Instr) : formUd s i = true ↔ udCondition s i := by
  have hle (hp : present s.cfg.feat i = true) : vlOf i ≤ s.cfg.maxvl.bits := vlOf_le_bits_of_present hwf hp
  cases h : evexParts i with
  | some parts =>
    obtain ⟨o, w, vl⟩ := parts
    obtain ⟨-, rfl⟩ := evexParts_eq_some h
    rw [present_of_evex s.cfg.feat h] at hle
    rw [formUd_of_evex s h, evexUd_iff s.cfg o hle]
    simp [udCondition, present_of_evex s.cfg.feat h, stateDisabled, isLegacy_of_evex h, reservedCombination, h]
  | none =>
    cases i
    case pminudSse128 o =>
      simp [formUd, legUd_iff, udCondition, present, stateDisabled, isLegacy, reservedCombination, evexParts]
    case vpminudVex128 o =>
      refine (vexUd_iff s.cfg hle).trans ?_
      simp [udCondition, present, stateDisabled, isLegacy, reservedCombination, evexParts]
    case vpminudVex256 o =>
      refine (vexUd_iff s.cfg hle).trans ?_
      simp [udCondition, present, stateDisabled, isLegacy, reservedCombination, evexParts]
    all_goals simp [evexParts] at h

/-- What stops the read of the instruction's memory operand. -/
def readStop (s : State) (i : Instr) : Option Stop :=
  accessStop s.cfg (operandSeg (pfxOf i) (rmOf i)) (opAddr s i) (opBytes i) (opNeeded s i)

/-- Only the read of its operand can still stop the instruction: it passes its `#UD` test and that of `#NM`, and its operand is memory, aligned
where that is asked for. -/
def comesToRead (s : State) (i : Instr) : Prop :=
  formUd s i = false ∧ s.cfg.env.ts = false ∧ hasMem i = true ∧ ¬misaligned s i

theorem comesToRead_of_no_ud {s : State} {i : Instr} (hwf : platformWf s.cfg) (hud : ¬udCondition s i) (hts : s.cfg.env.ts = false)
    (hmem : hasMem i = true) (halign : ¬misaligned s i) : comesToRead s i :=
  ⟨Bool.eq_false_of_not_eq_true fun h => hud ((formUd_iff_udCondition hwf i).1 h), hts, hmem, halign⟩

theorem not_misaligned_of_not_legacy (s : State) {i : Instr} (h : isLegacy i = false) : ¬misaligned s i := by
  rintro ⟨hleg, -⟩
  exact Bool.false_ne_true (h.symm.trans hleg)

theorem formStop_of_mem {s : State} {i : Instr} (hmem : hasMem i = true) (halign : ¬misaligned s i) : formStop s i = readStop s i := by
  unfold formStop
  rw [if_pos hmem, if_neg fun h => halign ⟨h.1, hmem, h.2⟩, readStop]

theorem formStop_of_misaligned {s : State} {i : Instr} (h : misaligned s i) : formStop s i = some (.exc .gp) := by
  obtain ⟨hleg, hmem, halign⟩ := h
  unfold formStop
  rw [if_pos hmem, if_pos ⟨hleg, halign⟩]

theorem exec_of_readStop {s : State} {i : Instr} {st : Stop} (h : comesToRead s i) (hstop : readStop s i = some st) :
    exec i s = stopOutcome st s := by
  obtain ⟨hud, hts, hmem, halign⟩ := h
  rw [exec_eq_runForm, runForm_stop hud hts ((formStop_of_mem hmem halign).trans hstop)]

/-- Such an instruction completes exactly when its operand is readable. -/
theorem exec_completes_iff_readable {s : State} {i : Instr} (h : comesToRead s i) :
    (∃ t, exec i s = .next t) ↔ readable s.cfg (opAddr s i) (opBytes i) (opNeeded s i) := by
  rw [← accessStop_eq_none_iff s.cfg (operandSeg (pfxOf i) (rmOf i)), ← readStop]
  cases hstop : readStop s i with
  | none =>
    obtain ⟨hud, hts, hmem, halign⟩ := h
    have hnone := (formStop_of_mem hmem halign).trans hstop
    exact iff_of_true ⟨_, (exec_eq_runForm i s).trans (runForm_completes hud hts hnone)⟩ rfl
  | some st =>
    refine iff_of_false ?_ (by simp)
    rintro ⟨t, ht⟩
    rw [exec_of_readStop h hstop] at ht
    exact stopOutcome_ne_next st s t ht

/-! ### Device memory (R50) and alignment (R44) -/

/-- A read that faults nowhere is refused where it touches device memory. -/
theorem accessStop_device {c : Platform} (seg : Seg) {ea : Addr} {n k : Nat} {needed : Nat → Bool} (hok : accessOk c ea n needed)
    (hk : k < n) (hdev : deviceAt c (byteAddr c.mode ea k) = true) : accessStop c seg ea n needed = some (.refuse .deviceOperand) := by
  obtain ⟨hcanonical, haccess⟩ := hok
  have hany : ((List.range n).any fun k => deviceAt c (byteAddr c.mode ea k)) = true :=
    List.any_eq_true.2 ⟨k, List.mem_range.2 hk, hdev⟩
  rw [accessStop_of_canonical seg hcanonical, haccess]
  exact if_pos hany

/-- Settles O43: the instruction comes to its read, which faults nowhere and is refused. -/
theorem deviceOperandRefused : Obligations.DeviceOperandRefused := by
  intro i s k hwf hud hts hmem halign hok hk hdev
  exact exec_of_readStop (comesToRead_of_no_ud hwf hud hts hmem halign) (accessStop_device _ hok hk hdev)

/-- Settles O40: alignment is looked at before `Access` is, and the exception does not depend on the segment. -/
theorem misalignedLegacyRaisesGp : Obligations.MisalignedLegacyRaisesGp := by
  intro o s hready hmem halign
  have hstop : formStop s (.pminudSse128 o) = some (.exc .gp) := formStop_of_misaligned ⟨rfl, hmem, halign⟩
  have ⟨_, _, _, hts⟩ := hready
  exact (exec_eq_runForm _ s).trans (runForm_stop (legUd_of_ready hready) hts hstop)

/-! ### A value of `Access` for the operand read whole (R52) -/

theorem stopOutcome_segExc (seg : Seg) (s : State) :
    stopOutcome (.exc (segExc seg)) s = if seg = .ss then .fault (.ss s.pc) else .fault (.gp s.pc) := by
  unfold segExc
  split <;> rfl

/-- Settles O50: the entry is the answer of `Access`, and the read does what that says. -/
theorem accessDecidesWholeOperands : Obligations.AccessDecidesWholeOperands := by
  intro i s hwf hud hts hmem halign hbytes
  have hread := comesToRead_of_no_ud hwf hud hts hmem halign
  have hcanonical : canonicalOperand s.cfg (opAddr s i) (opBytes i) (opNeeded s i) := fun k hk _ => (hbytes k hk).2
  have haccess {r : AccessResult} {v : Access} (hentry : accessEntry s.cfg (opAddr s i) (opBytes i) = some r)
      (hv : ownValue s.cfg (opAddr s i) (opBytes i) r = some v) : access s.cfg (opAddr s i) (opBytes i) (opNeeded s i) = v :=
    access_of_whole ((accessWhole_of_entry (fun k hk => (hbytes k hk).1) hentry).trans hv)
  have hstop := accessStop_of_canonical (operandSeg (pfxOf i) (rmOf i)) hcanonical
  refine ⟨fun hentry hdev => ?_, fun hentry => ?_, fun p rsvd pk byte hentry => ?_⟩
  · exact (exec_completes_iff_readable hread).2 ⟨⟨hcanonical, haccess hentry rfl⟩, hdev⟩
  · rw [haccess hentry rfl] at hstop
    rw [exec_of_readStop hread hstop, stopOutcome_segExc]
  · rw [haccess hentry rfl] at hstop
    obtain ⟨h0, h1, h2, h3, h4, h5, -⟩ := pfCode_bits s.cfg.env p rsvd pk
    exact ⟨_, exec_of_readStop hread hstop, h0, h1, h2, h3, h4, h5⟩

/-! ### FaultSuppression (R49) -/

/-- The bytes of a full operand of `lanes` lanes of `m` bytes are those of its lanes. -/
theorem forall_bytes_iff_lanes {m lanes : Nat} (hm : 0 < m) (p : Nat → Nat → Prop) :
    (∀ k < lanes * m, p (k / m) k) ↔ ∀ j b, j < lanes → b < m → p j (j * m + b) := by
  constructor
  · intro h j b hj hb
    have hdiv : (j * m + b) / m = j := by rw [Nat.div_eq_iff hm]; omega
    have hlt : j * m + b < lanes * m := by
      have := Nat.mul_le_mul_right m hj
      rw [Nat.succ_mul] at this
      omega
    simpa only [hdiv] using h (j * m + b) hlt
  · intro h k hk
    have := h (k / m) (k % m) (Nat.div_lt_of_lt_mul (Nat.mul_comm lanes m ▸ hk)) (Nat.mod_lt k hm)
    rwa [Nat.div_add_mod'] at this

theorem opNeeded_of_evex (s : State) {i : Instr} {o : EvexOperands} {w vl : Nat} (h : evexParts i = some (o, w, vl)) (k : Nat) :
    opNeeded s i k = evexNeeded s o w vl k := by
  simp only [opNeeded, h]

/-- Without FaultSuppression every byte is needed. -/
theorem evexNeeded_of_off {s : State} (h : s.cfg.faultSuppression = false) (o : EvexOperands) (w vl k : Nat) :
    evexNeeded s o w vl k = true := by
  simp [evexNeeded, h]

/-- With it, a byte of a full operand is needed when its lane is active. -/
theorem evexNeeded_full {s : State} (h : s.cfg.faultSuppression = true) {o : EvexOperands} (hbc : o.bc = false) (w vl k : Nat) :
    evexNeeded s o w vl k = laneActive s o.aaa (k / (w / 8)) := by
  simp [evexNeeded, h, hbc]

/-- With it, a byte of a broadcast element is needed when some lane is active. -/
theorem evexNeeded_broadcast {s : State} (h : s.cfg.faultSuppression = true) {o : EvexOperands} (hbc : o.bc = true) (w vl k : Nat) :
    evexNeeded s o w vl k = true ↔ ∃ j < vl / w, o.aaa = 0 ∨ (s.opmask o.aaa).getLsbD j = true := by
  simp [evexNeeded, h, hbc, laneActive_eq_true_iff]

/-- A full EVEX operand has the bytes of its lanes. -/
theorem opBytes_eq_lanes {i : Instr} {o : EvexOperands} {w vl : Nat} (h : evexParts i = some (o, w, vl)) (hbc : o.bc = false) :
    opBytes i = vl / w * (w / 8) ∧ 0 < w / 8 := by
  rw [opBytes_of_evex h, hbc]
  cases i <;> cases h <;> exact ⟨rfl, by decide⟩

/-- Settles O44: in ordinary memory completing is reading without a fault, and the needed bytes are those R49 names. -/
theorem faultSuppressionDecides : Obligations.FaultSuppressionDecides := by
  intro i o w vl s hparts hwf hud hts hmem hdev
  have hread := comesToRead_of_no_ud hwf hud hts hmem (not_misaligned_of_not_legacy s (isLegacy_of_evex hparts))
  have hnext : (∃ t, exec i s = .next t) ↔ accessOk s.cfg (opAddr s i) (opBytes i) (opNeeded s i) :=
    (exec_completes_iff_readable hread).trans (and_iff_left hdev)
  have hneeded := opNeeded_of_evex s hparts
  refine ⟨fun hnone => ?_, fun r hsome => ?_⟩ <;> rw [hnext]
  · rw [accessOk_iff_of_bytes hnone]
    simp only [hneeded]
    refine ⟨fun hoff => ?_, fun hon hbc => ?_, fun hon hbc => ?_⟩
    · simp only [evexNeeded_of_off hoff, forall_const]
    · obtain ⟨hbytes, hpos⟩ := opBytes_eq_lanes hparts hbc
      simp only [evexNeeded_full hon hbc, laneActive_eq_true_iff, hbytes]
      exact forall_bytes_iff_lanes hpos fun j k =>
        o.aaa = 0 ∨ (s.opmask o.aaa).getLsbD j = true → accessible s.cfg (byteAddr s.cfg.mode (opAddr s i) k)
    · simp only [evexNeeded_broadcast hon hbc, opBytes_of_evex hparts, hbc, if_true]
      exact ⟨fun h hactive k hk => h k hk hactive, fun h k hk hactive => h hactive k hk⟩
  · rw [accessOk_iff_of_whole hsome]
    have hall := needed_of_accessWhole hsome
    exact and_congr_right fun _ => forall₂_congr fun k hk => forall_prop_of_true (hall k hk)

/-! ### Where `#GP(0)` and `#SS(0)` come from (R45, R52) -/

/-- A fault of a form is `#UD`, `#NM` or an exception that stops it (R148). -/
theorem runForm_fault_cases {s : State} {ud : Bool} {stop : Option Stop} {d : BitVec 5} {v : Vec} {len : Nat} {f : Fault}
    (h : runForm s ud stop d v len = .fault f) : f = .ud s.pc ∨ f = .nm s.pc ∨ ∃ e, stop = some (.exc e) ∧ raise e s = .fault f := by
  unfold runForm at h
  split at h
  · cases h
    exact .inl rfl
  · split at h
    · cases h
      exact .inr (.inl rfl)
    · split at h
      · rename_i st
        cases st with
        | exc e => exact .inr (.inr ⟨e, rfl, h⟩)
        | refuse r => cases h
      · cases h

/-- `Access` from its bytes rejects only for a needed byte in a segmentation region. -/
theorem accessByBytes_segmentation {c : Platform} {ea : Addr} {n : Nat} {needed : Nat → Bool} (h : accessByBytes c ea n needed = .segmentation) :
    ∃ k < n, needed k = true ∧ segRegionAt c (byteAddr c.mode ea k) = true := by
  unfold accessByBytes at h
  split at h
  · rename_i hany
    simpa using hany
  · split at h <;> cases h

/-- An exception other than a page fault stops a read for a needed byte that the canonical check or segmentation rejects, or because `Access` has a
rejection as its own value. -/
theorem accessStop_exc_cases {c : Platform} {seg : Seg} {ea : Addr} {n : Nat} {needed : Nat → Bool} {e : Exc}
    (h : accessStop c seg ea n needed = some (.exc e)) :
    (∃ code a, e = .pf code a) ∨ (∃ k < n, needed k = true ∧ segFaultAt c (byteAddr c.mode ea k) = true)
      ∨ accessWhole c ea n needed = some .segmentation := by
  by_cases hcanonical : canonicalOperand c ea n needed
  · rw [accessStop_of_canonical seg hcanonical] at h
    cases haccess : access c ea n needed with
    | ok =>
      rw [haccess] at h
      dsimp only at h
      split at h <;> cases h
    | page code a =>
      rw [haccess] at h
      cases h
      exact .inl ⟨code, a, rfl⟩
    | segmentation =>
      cases hwhole : accessWhole c ea n needed with
      | some r => exact .inr (.inr (by rw [← haccess, access_of_whole hwhole]))
      | none =>
        rw [access_of_bytes hwhole] at haccess
        obtain ⟨k, hk, hn, hregion⟩ := accessByBytes_segmentation haccess
        exact .inr (.inl ⟨k, hk, hn, by simp [segFaultAt, hregion]⟩)
  · simp only [canonicalOperand, not_forall] at hcanonical
    obtain ⟨k, hk, hn, hnot⟩ := hcanonical
    exact .inr (.inl ⟨k, hk, hn, by simp [segFaultAt, hnot]⟩)

theorem hasMem_of_formStop {s : State} {i : Instr} {st : Stop} (h : formStop s i = some st) : hasMem i = true := by
  by_contra hmem
  rw [formStop, if_neg hmem] at h
  cases h

/-- Settles O45: such a fault comes from what stops the form, which without an alignment requirement is the read of its operand. -/
theorem vexAndEvexNeedNoAlignment : Obligations.VexAndEvexNeedNoAlignment := by
  intro i s hleg hfault
  obtain ⟨f, hexec, hf⟩ : ∃ f, exec i s = .fault f ∧ (f = .gp s.pc ∨ f = .ss s.pc) := by
    rcases hfault with h | h
    exacts [⟨_, h, .inl rfl⟩, ⟨_, h, .inr rfl⟩]
  rw [exec_eq_runForm] at hexec
  obtain rfl | rfl | ⟨e, hstop, hraise⟩ := runForm_fault_cases hexec
  · simp at hf
  · simp at hf
  · have hmem := hasMem_of_formStop hstop
    rw [formStop_of_mem hmem (not_misaligned_of_not_legacy s hleg)] at hstop
    obtain ⟨code, a, rfl⟩ | hreject := accessStop_exc_cases hstop
    · cases hraise
      simp at hf
    · exact ⟨hmem, hreject⟩

end Sys2Proof.Machine
end

section
/-! PROOFS. The decoder on encodings: an encoding decodes to its instruction, and behind LOCK to `#UD` (30_encoding.md R60 to R66, R73, R81 to R83, R90). -/

namespace Sys2Proof

/-! ### The formats of the instructions -/

/-- The format of an instruction, with the row that selects it among those of its format (30_encoding.md R82). -/
inductive HasFormat : Instr → Prop
  | leg (o : LegOperands) : HasFormat (.pminudSse128 o)
  | vex (l : Bool) (o : VexOperands) : HasFormat (vexRow l o)
  | evex {w : Bool} {ll : BitVec 2} {row : EvexOperands → Instr} (h : evexRow w ll = some row) (o : EvexOperands) : HasFormat (row o)

theorem hasFormat (i : Instr) : HasFormat i := by
  cases i with
  | pminudSse128 o => exact .leg o
  | vpminudVex128 o => exact .vex false o
  | vpminudVex256 o => exact .vex true o
  | vpminudEvex128 o => exact .evex (w := false) (ll := 0) rfl o
  | vpminudEvex256 o => exact .evex (w := false) (ll := 1) rfl o
  | vpminudEvex512 o => exact .evex (w := false) (ll := 2) rfl o
  | vpminuqEvex128 o => exact .evex (w := true) (ll := 0) rfl o
  | vpminuqEvex256 o => exact .evex (w := true) (ll := 1) rfl o
  | vpminuqEvex512 o => exact .evex (w := true) (ll := 2) rfl o

theorem encode_leg (o : LegOperands) : encode (.pminudSse128 o) = encodeLeg o := rfl

theorem encode_vexRow (l : Bool) (o : VexOperands) : encode (vexRow l o) = encodeVex l o := by cases l <;> rfl

theorem wf_vexRow (m : Mode) (l : Bool) (o : VexOperands) : (vexRow l o).wf m = o.wf m := by cases l <;> rfl

theorem encode_evexRow {w : Bool} {ll : BitVec 2} {row : EvexOperands → Instr} (h : evexRow w ll = some row) (o : EvexOperands) :
    encode (row o) = encodeEvex w ll o := by
  unfold evexRow at h
  split_ifs at h <;> cases h <;> simp_all [encode]

theorem wf_evexRow {w : Bool} {ll : BitVec 2} {row : EvexOperands → Instr} (h : evexRow w ll = some row) (m : Mode) (o : EvexOperands) :
    (row o).wf m = o.wf m := by
  unfold evexRow at h
  split_ifs at h <;> cases h <;> rfl

theorem encode_length (i : Instr) : (encode i).length = i.len := by
  cases hasFormat i with
  | leg o => exact encodeLeg_length o
  | vex l o => rw [encode_vexRow, encodeVex_length, vexRow_len]
  | evex h o => rw [encode_evexRow h, encodeEvex_length, evexRow_len h]

/-! ### What well-formedness says (30_encoding.md R61 to R63, R69, R73, R81 to R83) -/

theorem hasOpSize_iff (ps : List Pfx) : hasOpSize ps = true ↔ .opSize ∈ ps := by simp [hasOpSize]

theorem hasAddrSize_iff (ps : List Pfx) : hasAddrSize ps = true ↔ .addrSize ∈ ps := by simp [hasAddrSize]

theorem LegOperands.wf_iff (m : Mode) (o : LegOperands) :
    o.wf m = true ↔ .opSize ∈ o.pfx ∧ o.rm.form.wf = true
      ∧ (o.rexW = none → o.d.toNat < 8 ∧ o.rm.x = false ∧ o.rm.b = false)
      ∧ (m = .m32 → o.rexW = none ∧ .addrSize ∉ o.pfx) ∧ o.len ≤ ilenMax := by
  rw [← hasOpSize_iff, ← hasAddrSize_iff]
  cases m <;> cases hrex : o.rexW <;> simp [LegOperands.wf, hrex, and_assoc]

theorem VexOperands.wf_iff (m : Mode) (o : VexOperands) :
    o.wf m = true ↔ .opSize ∉ o.pfx ∧ o.rm.form.wf = true
      ∧ (m = .m32 → o.d.toNat < 8 ∧ o.s1.toNat < 8 ∧ o.rm.x = false ∧ o.rm.b = false ∧ .addrSize ∉ o.pfx) ∧ o.len ≤ ilenMax := by
  rw [← hasOpSize_iff, ← hasAddrSize_iff]
  cases m <;> simp [VexOperands.wf, and_assoc]

theorem EvexOperands.wf_iff (m : Mode) (o : EvexOperands) :
    o.wf m = true ↔ .opSize ∉ o.pfx ∧ o.rm.form.wf = true ∧ (o.z && o.aaa == 0) = false ∧ (o.bc && o.rm.form.isReg) = false
      ∧ (m = .m32 → o.d.toNat < 8 ∧ o.s1.toNat < 8 ∧ o.rm.x = false ∧ o.rm.b = false ∧ .addrSize ∉ o.pfx) ∧ o.len ≤ ilenMax := by
  rw [← hasOpSize_iff, ← hasAddrSize_iff, EvexOperands.wf]
  generalize (o.z && o.aaa == 0) = zeroing, (o.bc && o.rm.form.isReg) = broadcast
  cases m <;> simp [and_assoc]

/-- A well-formed instruction has at most 15 bytes (R83). -/
theorem len_le_of_wf {m : Mode} {i : Instr} (h : i.wf m = true) : i.len ≤ ilenMax := by
  cases hasFormat i with
  | leg o =>
    obtain ⟨-, -, -, -, hlen⟩ := (LegOperands.wf_iff m o).1 h
    exact hlen
  | vex l o =>
    obtain ⟨-, -, -, hlen⟩ := (VexOperands.wf_iff m o).1 (wf_vexRow m l o ▸ h)
    rwa [vexRow_len]
  | evex hrow o =>
    obtain ⟨-, -, -, -, -, hlen⟩ := (EvexOperands.wf_iff m o).1 (wf_evexRow hrow m o ▸ h)
    rwa [evexRow_len hrow]

/-- The extension bits of registers 0 to 7 are 0. -/
theorem getLsbD_of_lt_8 {n i : Nat} {v : BitVec n} (h : v.toNat < 8) (hi : 3 ≤ i) : v.getLsbD i = false :=
  Nat.testBit_lt_two_pow (h.trans_le (Nat.pow_le_pow_right (n := 2) (by decide) hi))

theorem pfx_mem_map (p : Pfx) (ps : List Pfx) : PreByte.pfx p ∈ ps.map PreByte.pfx ↔ p ∈ ps := by simp

theorem lock_not_mem_map (ps : List Pfx) : PreByte.lock ∉ ps.map PreByte.pfx := by simp

/-! ### Which format the byte after the prefixes starts -/

theorem decode_of_0F {m : Mode} {bs : List Byte} {pre : List PreByte} {tl : List Byte} (h : scanPre m bs = (pre, 0x0F :: tl)) :
    decode m bs = decodeLeg m bs.length pre tl := by
  simp [decode, h]

theorem decode_of_C4 {m : Mode} {bs : List Byte} {pre : List PreByte} {tl : List Byte} (h : scanPre m bs = (pre, 0xC4 :: tl)) :
    decode m bs = afterEscape m pre tl (decodeVex m bs.length pre tl) := by
  simp [decode, h]

theorem decode_of_62 {m : Mode} {bs : List Byte} {pre : List PreByte} {tl : List Byte} (h : scanPre m bs = (pre, 0x62 :: tl)) :
    decode m bs = afterEscape m pre tl (decodeEvex m bs.length pre tl) := by
  simp [decode, h]

/-- Where R81 takes `C4` or `62` for the start of a VEX or EVEX form, the bytes before it decide first (30_encoding.md R81, R83). -/
theorem afterEscape_cons {m : Mode} {b : Byte} (hm : m = .m32 → b.extractLsb' 6 2 = 3) (pre : List PreByte) (bs : List Byte) (body : Decoded) :
    afterEscape m pre (b :: bs) body = if pre.any PreByte.badBeforeVex then .undefined .badPrefixBeforeVex else body := by
  unfold afterEscape
  rw [if_neg (by simp), if_neg fun h => h.2 (hm h.1)]

/-- So it is `#UD` where the rest of the encoding is. -/
theorem afterEscape_undefined {m : Mode} {b : Byte} (hm : m = .m32 → b.extractLsb' 6 2 = 3) (pre : List PreByte) (bs : List Byte)
    {body : Decoded} {why : UdReason} (h : body = .undefined why) : ∃ why, afterEscape m pre (b :: bs) body = .undefined why := by
  rw [afterEscape_cons hm, h]
  split <;> exact ⟨_, rfl⟩

/-! ### Format `LEG` (30_encoding.md R61) -/

/-- The REX bits of an encoding that has a REX byte. -/
def LegOperands.rex (o : LegOperands) : Option (Bool × Bool × Bool × Bool) :=
  o.rexW.map fun w => (w, o.d.getLsbD 3, o.rm.x, o.rm.b)

/-- The bytes of an encoding before `0F`. -/
def LegOperands.pre (o : LegOperands) : List PreByte := o.pfx.map PreByte.pfx ++ rexPre o.rex

theorem encodeLeg_append (o : LegOperands) (rest : List Byte) :
    encodeLeg o ++ rest = o.pfx.map Pfx.byte
      ++ ((rexPre o.rex).map PreByte.byte ++ 0x0F :: 0x38 :: 0x3B :: (encodeRm (o.d.extractLsb' 0 3) o.rm.form ++ rest)) := by
  unfold encodeLeg LegOperands.rex
  cases o.rexW <;> simp [rexPre, PreByte.byte]

/-- A REX byte is read as one where there may be one, in M64. -/
theorem scanPre_rex {m : Mode} {rex : Option (Bool × Bool × Bool × Bool)} (hm : m = .m32 → rex = none) {c : Byte} (tl : List Byte)
    (hc : preByte? m c = none) : scanPre m ((rexPre rex).map PreByte.byte ++ c :: tl) = (rexPre rex, c :: tl) := by
  cases rex with
  | none => exact scanPre_core tl hc
  | some bits =>
    obtain ⟨w, r, x, b⟩ := bits
    cases m with
    | m64 => simp [rexPre, PreByte.byte, scanPre, preByte_rexByte, hc]
    | m32 => cases hm rfl

theorem scanPre_encodeLeg {m : Mode} {o : LegOperands} (h : o.wf m = true) (rest : List Byte) :
    scanPre m (encodeLeg o ++ rest) = (o.pre, 0x0F :: 0x38 :: 0x3B :: (encodeRm (o.d.extractLsb' 0 3) o.rm.form ++ rest)) := by
  obtain ⟨-, -, -, hm, -⟩ := (LegOperands.wf_iff m o).1 h
  have hrex : m = .m32 → o.rex = none := fun h32 => by rw [LegOperands.rex, (hm h32).1, Option.map_none]
  rw [encodeLeg_append]
  exact scanPre_pfx m o.pfx (scanPre_rex hrex _ (by cases m <;> rfl))

theorem LegOperands.mem_pre {p : Pfx} {o : LegOperands} : .pfx p ∈ o.pre ↔ p ∈ o.pfx := by
  unfold LegOperands.pre LegOperands.rex
  cases o.rexW <;> simp [rexPre]

theorem LegOperands.lock_not_mem_pre (o : LegOperands) : .lock ∉ o.pre := by
  unfold LegOperands.pre LegOperands.rex
  cases o.rexW <;> simp [rexPre]

theorem LegOperands.no_rep_pre (o : LegOperands) : o.pre.any PreByte.isRep = false := by
  unfold LegOperands.pre LegOperands.rex
  cases o.rexW <;> simp [rexPre, PreByte.isRep]

theorem LegOperands.legacyPre_pre (o : LegOperands) : legacyPre o.pre = some (o.pfx, o.rex) := by
  unfold LegOperands.pre
  cases o.rex with
  | none => rw [rexPre, List.append_nil, legacyPre_map]
  | some bits =>
    obtain ⟨w, r, x, b⟩ := bits
    exact legacyPre_map_rex o.pfx w r x b

theorem setWidth_extractLsb'_of_lt_8 (d : BitVec 4) (h : d.toNat < 8) : (d.extractLsb' 0 3).setWidth 4 = d := by
  revert d
  decide

theorem reg4_joined (d : BitVec 4) : BitVec.ofBool (d.getLsbD 3) ++ d.extractLsb' 0 3 = d := by
  revert d
  decide

/-- The bytes after `0F` of an encoding, behind the bytes before it, read back as the instruction. -/
theorem decodeLeg_encode {m : Mode} {o : LegOperands} (h : o.wf m = true) {n : Nat} {rest : List Byte} (hn : n - rest.length ≤ ilenMax) :
    decodeLeg m n o.pre (0x38 :: 0x3B :: (encodeRm (o.d.extractLsb' 0 3) o.rm.form ++ rest)) = .instr (.pminudSse128 o) rest := by
  obtain ⟨hop, hform, hlow, hm, -⟩ := (LegOperands.wf_iff m o).1 h
  have ha : m = .m32 → .pfx .addrSize ∉ o.pre := fun h32 => mt LegOperands.mem_pre.1 (hm h32).2
  simp only [decodeLeg, and_self, if_true, LegOperands.mem_pre.2 hop, not_true_eq_false, if_false, o.lock_not_mem_pre, o.no_rep_pre,
    Bool.false_eq_true, o.legacyPre_pre]
  obtain ⟨pfx, rexW, d, ⟨x, b, form⟩⟩ := o
  cases rexW with
  | none =>
    obtain ⟨hd, rfl, rfl⟩ := hlow rfl
    refine (finishDecode_encodeRm hform ha hn).trans ?_
    rw [setWidth_extractLsb'_of_lt_8 d hd]
  | some w =>
    refine (finishDecode_encodeRm hform ha hn).trans ?_
    rw [reg4_joined]

/-- LOCK before the form is `#UD` whatever else stands before it (30_encoding.md R90). -/
theorem decodeLeg_lock (m : Mode) (n : Nat) {pre : List PreByte} (tl : List Byte) (hop : .pfx .opSize ∈ pre) (hlock : .lock ∈ pre) :
    decodeLeg m n pre (0x38 :: 0x3B :: tl) = .undefined .lockPrefix := by
  simp [decodeLeg, hop, hlock]

/-! ### Format `VEX3` (30_encoding.md R62) -/

/-- The byte after `C4`. -/
def VexOperands.p1 (o : VexOperands) : Byte :=
  BitVec.ofBool (!o.d.getLsbD 3) ++ BitVec.ofBool (!o.rm.x) ++ BitVec.ofBool (!o.rm.b) ++ (2 : BitVec 5)

/-- The byte after that. -/
def VexOperands.p2 (o : VexOperands) (l : Bool) : Byte :=
  BitVec.ofBool o.w ++ ~~~o.s1 ++ BitVec.ofBool l ++ (1 : BitVec 2)

theorem encodeVex_append (l : Bool) (o : VexOperands) (rest : List Byte) :
    encodeVex l o ++ rest
      = o.pfx.map Pfx.byte ++ 0xC4 :: o.p1 :: o.p2 l :: 0x3B :: (encodeRm (o.d.extractLsb' 0 3) o.rm.form ++ rest) := by
  simp [encodeVex, VexOperands.p1, VexOperands.p2]

theorem scanPre_encodeVex (m : Mode) (l : Bool) (o : VexOperands) (rest : List Byte) :
    scanPre m (encodeVex l o ++ rest)
      = (o.pfx.map PreByte.pfx, 0xC4 :: o.p1 :: o.p2 l :: 0x3B :: (encodeRm (o.d.extractLsb' 0 3) o.rm.form ++ rest)) := by
  rw [encodeVex_append, scanPre_pfx m o.pfx (scanPre_core _ (by cases m <;> rfl)), List.append_nil]

theorem VexOperands.p1_fields (o : VexOperands) :
    o.p1.extractLsb' 0 5 = 2 ∧ o.p1.getLsbD 7 = !o.d.getLsbD 3 ∧ o.p1.getLsbD 6 = !o.rm.x ∧ o.p1.getLsbD 5 = !o.rm.b := by
  unfold VexOperands.p1
  generalize o.d.getLsbD 3 = r, o.rm.x = x, o.rm.b = b
  revert r x b
  decide

theorem VexOperands.p2_fields (o : VexOperands) (l : Bool) :
    (o.p2 l).extractLsb' 0 2 = 1 ∧ (o.p2 l).getLsbD 2 = l ∧ (o.p2 l).extractLsb' 3 4 = ~~~o.s1
      ∧ (o.p2 l).getLsbD 6 = (!o.s1.getLsbD 3) ∧ (o.p2 l).getLsbD 7 = o.w := by
  unfold VexOperands.p2
  generalize o.w = w, o.s1 = s1
  revert w s1 l
  decide

/-- Bits 7:6 of the byte after `C4` or `62`, stored inverted, are 11 where the register numbers are below 8 (R81). -/
theorem extractLsb'_top_two {p : Byte} (h7 : p.getLsbD 7 = true) (h6 : p.getLsbD 6 = true) : p.extractLsb' 6 2 = 3 := by
  revert p
  decide

theorem VexOperands.p1_top {m : Mode} {o : VexOperands} (h : o.wf m = true) (hm : m = .m32) : o.p1.extractLsb' 6 2 = 3 := by
  obtain ⟨-, -, h32, -⟩ := (VexOperands.wf_iff m o).1 h
  obtain ⟨hd, -, hx, -⟩ := h32 hm
  obtain ⟨-, h7, h6, -⟩ := o.p1_fields
  exact extractLsb'_top_two (by rw [h7, getLsbD_of_lt_8 hd (by decide), Bool.not_false]) (by rw [h6, hx, Bool.not_false])

/-- The bytes after `C4` of an encoding, behind its prefixes, read back as the instruction. -/
theorem decodeVex_encode {m : Mode} (l : Bool) {o : VexOperands} (h : o.wf m = true) {n : Nat} {rest : List Byte}
    (hn : n - rest.length ≤ ilenMax) :
    decodeVex m n (o.pfx.map PreByte.pfx) (o.p1 :: o.p2 l :: 0x3B :: (encodeRm (o.d.extractLsb' 0 3) o.rm.form ++ rest))
      = .instr (vexRow l o) rest := by
  obtain ⟨-, hform, h32, -⟩ := (VexOperands.wf_iff m o).1 h
  obtain ⟨hmap, h17, h16, h15⟩ := o.p1_fields
  obtain ⟨hpp, h22, h23, h26, h27⟩ := o.p2_fields l
  have hext : ¬(m = .m32 ∧ ¬(o.p1.getLsbD 5 = true ∧ (o.p2 l).getLsbD 6 = true)) := fun ⟨hm, hne⟩ => by
    obtain ⟨-, hs1, -, hb, -⟩ := h32 hm
    exact hne ⟨by rw [h15, hb, Bool.not_false], by rw [h26, getLsbD_of_lt_8 hs1 (by decide), Bool.not_false]⟩
  have ha : m = .m32 → .pfx .addrSize ∉ o.pfx.map PreByte.pfx := fun hm => by
    obtain ⟨-, -, -, -, ha⟩ := h32 hm
    rwa [pfx_mem_map]
  simp only [decodeVex, hmap, hpp, and_self, if_true, lock_not_mem_map, if_false, hext]
  refine (finishDecode_encodeRm hform ha hn).trans ?_
  simp only [h17, h16, h15, h22, h23, h27, Bool.not_not, BitVec.not_not, reg4_joined, plainPfx_map]

theorem decodeVex_lock (m : Mode) (n : Nat) {pre : List PreByte} (l : Bool) (o : VexOperands) (tl : List Byte) (hlock : .lock ∈ pre) :
    decodeVex m n pre (o.p1 :: o.p2 l :: 0x3B :: tl) = .undefined .lockPrefix := by
  obtain ⟨hmap, -⟩ := o.p1_fields
  obtain ⟨hpp, -⟩ := o.p2_fields l
  simp [decodeVex, hmap, hpp, hlock]

/-! ### Format `EVEX` (30_encoding.md R63) -/

/-- The byte after `62`. -/
def EvexOperands.p0 (o : EvexOperands) : Byte :=
  BitVec.ofBool (!o.d.getLsbD 3) ++ BitVec.ofBool (!o.rm.x) ++ BitVec.ofBool (!o.rm.b) ++ BitVec.ofBool (!o.d.getLsbD 4) ++ (2 : BitVec 4)

/-- The byte after that. -/
def EvexOperands.p1 (o : EvexOperands) (w : Bool) : Byte :=
  BitVec.ofBool w ++ ~~~(o.s1.extractLsb' 0 4) ++ (5 : BitVec 3)

/-- The byte before the opcode. -/
def EvexOperands.p2 (o : EvexOperands) (ll : BitVec 2) : Byte :=
  BitVec.ofBool o.z ++ ll ++ BitVec.ofBool o.bc ++ BitVec.ofBool (!o.s1.getLsbD 4) ++ o.aaa

theorem encodeEvex_append (w : Bool) (ll : BitVec 2) (o : EvexOperands) (rest : List Byte) :
    encodeEvex w ll o ++ rest
      = o.pfx.map Pfx.byte ++ 0x62 :: o.p0 :: o.p1 w :: o.p2 ll :: 0x3B :: (encodeRm (o.d.extractLsb' 0 3) o.rm.form ++ rest) := by
  simp [encodeEvex, EvexOperands.p0, EvexOperands.p1, EvexOperands.p2]

theorem scanPre_encodeEvex (m : Mode) (w : Bool) (ll : BitVec 2) (o : EvexOperands) (rest : List Byte) :
    scanPre m (encodeEvex w ll o ++ rest)
      = (o.pfx.map PreByte.pfx,
          0x62 :: o.p0 :: o.p1 w :: o.p2 ll :: 0x3B :: (encodeRm (o.d.extractLsb' 0 3) o.rm.form ++ rest)) := by
  rw [encodeEvex_append, scanPre_pfx m o.pfx (scanPre_core _ (by cases m <;> rfl)), List.append_nil]

theorem EvexOperands.p0_fields (o : EvexOperands) :
    o.p0.extractLsb' 0 2 = 2 ∧ o.p0.extractLsb' 2 2 = 0 ∧ o.p0.getLsbD 7 = (!o.d.getLsbD 3) ∧ o.p0.getLsbD 6 = (!o.rm.x)
      ∧ o.p0.getLsbD 5 = (!o.rm.b) ∧ o.p0.getLsbD 4 = !o.d.getLsbD 4 := by
  unfold EvexOperands.p0
  generalize o.d.getLsbD 3 = r, o.d.getLsbD 4 = r', o.rm.x = x, o.rm.b = b
  revert r r' x b
  decide

theorem EvexOperands.p1_fields (o : EvexOperands) (w : Bool) :
    (o.p1 w).extractLsb' 0 2 = 1 ∧ (o.p1 w).getLsbD 2 = true ∧ (o.p1 w).extractLsb' 3 4 = ~~~(o.s1.extractLsb' 0 4)
      ∧ (o.p1 w).getLsbD 6 = (!o.s1.getLsbD 3) ∧ (o.p1 w).getLsbD 7 = w := by
  unfold EvexOperands.p1
  generalize o.s1 = s1
  revert w s1
  decide

theorem EvexOperands.p2_fields (o : EvexOperands) (ll : BitVec 2) :
    (o.p2 ll).getLsbD 7 = o.z ∧ (o.p2 ll).extractLsb' 5 2 = ll ∧ (o.p2 ll).getLsbD 4 = o.bc ∧ (o.p2 ll).getLsbD 3 = (!o.s1.getLsbD 4)
      ∧ (o.p2 ll).extractLsb' 0 3 = o.aaa := by
  unfold EvexOperands.p2
  generalize o.z = z, o.bc = bc, o.s1.getLsbD 4 = v, o.aaa = aaa
  revert z ll bc v aaa
  decide

theorem EvexOperands.p0_top {m : Mode} {o : EvexOperands} (h : o.wf m = true) (hm : m = .m32) : o.p0.extractLsb' 6 2 = 3 := by
  obtain ⟨-, -, -, -, h32, -⟩ := (EvexOperands.wf_iff m o).1 h
  obtain ⟨hd, -, hx, -⟩ := h32 hm
  obtain ⟨-, -, h7, h6, -⟩ := o.p0_fields
  exact extractLsb'_top_two (by rw [h7, getLsbD_of_lt_8 hd (by decide), Bool.not_false]) (by rw [h6, hx, Bool.not_false])

/-- ModRM says `mod = 11` for a register operand only (R64). -/
theorem mod_encodeRm (reg : BitVec 3) (form : RmForm) (rest : List Byte) :
    (((encodeRm reg form ++ rest).headD 0).extractLsb' 6 2 == 3) = form.isReg := by
  cases form with
  | reg n => simp only [encodeRm, List.cons_append, List.headD_cons, bits_mod]; rfl
  | base r disp => simpa [encodeRm, bits_mod, RmForm.isReg] using disp.mod_ne_three
  | disp32 d => simp only [encodeRm, List.cons_append, List.headD_cons, bits_mod]; rfl
  | sib sc ix b disp => simpa [encodeRm, bits_mod, RmForm.isReg] using disp.mod_ne_three
  | sibNoBase sc ix d => simp only [encodeRm, List.cons_append, List.headD_cons, bits_mod]; rfl

/-- The encoding of a well-formed instruction is none of the reserved combinations (R82, R90). -/
theorem EvexOperands.reservedP2_encode {m : Mode} {o : EvexOperands} (h : o.wf m = true) (ll : BitVec 2) (reg : BitVec 3) (rest : List Byte) :
    reservedP2 (o.p2 ll) (encodeRm reg o.rm.form ++ rest) = false := by
  obtain ⟨-, -, hz, hbc, -⟩ := (EvexOperands.wf_iff m o).1 h
  obtain ⟨h7, -, h4, -, haaa⟩ := o.p2_fields ll
  rw [reservedP2, h7, haaa, h4, mod_encodeRm, hz, hbc, Bool.or_false]

theorem reg5_joined (d : BitVec 5) : BitVec.ofBool (d.getLsbD 4) ++ BitVec.ofBool (d.getLsbD 3) ++ d.extractLsb' 0 3 = d := by
  revert d
  decide

theorem reg5_joined_high (d : BitVec 5) : BitVec.ofBool (d.getLsbD 4) ++ d.extractLsb' 0 4 = d := by
  revert d
  decide

/-- The bytes after `62` of an encoding, behind its prefixes, read back as the instruction. -/
theorem decodeEvex_encode {m : Mode} {w : Bool} {ll : BitVec 2} {row : EvexOperands → Instr} (hrow : evexRow w ll = some row)
    {o : EvexOperands} (h : o.wf m = true) {n : Nat} {rest : List Byte} (hn : n - rest.length ≤ ilenMax) :
    decodeEvex m n (o.pfx.map PreByte.pfx)
        (o.p0 :: o.p1 w :: o.p2 ll :: 0x3B :: (encodeRm (o.d.extractLsb' 0 3) o.rm.form ++ rest))
      = .instr (row o) rest := by
  obtain ⟨-, hform, -, -, h32, -⟩ := (EvexOperands.wf_iff m o).1 h
  obtain ⟨hmap, hzero, h07, h06, h05, h04⟩ := o.p0_fields
  obtain ⟨hpp, hone, h13, h16, h17⟩ := o.p1_fields w
  obtain ⟨h27, h25, h24, h23, h20⟩ := o.p2_fields ll
  have hext : ¬(m = .m32 ∧ ¬(o.p0.getLsbD 5 = true ∧ o.p0.getLsbD 4 = true ∧ (o.p1 w).getLsbD 6 = true ∧ (o.p2 ll).getLsbD 3 = true)) :=
    fun ⟨hm, hne⟩ => by
      obtain ⟨hd, hs1, -, hb, -⟩ := h32 hm
      exact hne ⟨by rw [h05, hb, Bool.not_false], by rw [h04, getLsbD_of_lt_8 hd (by decide), Bool.not_false],
        by rw [h16, getLsbD_of_lt_8 hs1 (by decide), Bool.not_false], by rw [h23, getLsbD_of_lt_8 hs1 (by decide), Bool.not_false]⟩
  have ha : m = .m32 → .pfx .addrSize ∉ o.pfx.map PreByte.pfx := fun hm => by
    obtain ⟨-, -, -, -, ha⟩ := h32 hm
    rwa [pfx_mem_map]
  have hrow' : evexRow ((o.p1 w).getLsbD 7) ((o.p2 ll).extractLsb' 5 2) = some row := by rw [h17, h25, hrow]
  simp only [decodeEvex, hmap, hpp, and_self, if_true, lock_not_mem_map, if_false, hzero, hone, ne_eq, not_true_eq_false, Bool.true_eq_false,
    or_self, hrow', o.reservedP2_encode h, Bool.false_eq_true, hext]
  refine (finishDecode_encodeRm hform ha hn).trans ?_
  simp only [h07, h06, h05, h04, h13, h23, h27, h24, h20, Bool.not_not, BitVec.not_not, reg5_joined, reg5_joined_high, plainPfx_map]

theorem decodeEvex_lock (m : Mode) (n : Nat) {pre : List PreByte} (w : Bool) (ll : BitVec 2) (o : EvexOperands) (tl : List Byte)
    (hlock : .lock ∈ pre) : decodeEvex m n pre (o.p0 :: o.p1 w :: o.p2 ll :: 0x3B :: tl) = .undefined .lockPrefix := by
  obtain ⟨hmap, -⟩ := o.p0_fields
  obtain ⟨hpp, -⟩ := o.p1_fields w
  simp [decodeEvex, hmap, hpp, hlock]

/-! ### Whole encodings -/

/-- The bytes of a well-formed instruction decode to it, whatever follows them (R60, R83). -/
theorem decode_encode {m : Mode} {i : Instr} (h : i.wf m = true) (rest : List Byte) : decode m (encode i ++ rest) = .instr i rest := by
  have hn : (encode i ++ rest).length - rest.length ≤ ilenMax := by
    rw [List.length_append, Nat.add_sub_cancel, encode_length]
    exact len_le_of_wf h
  cases hasFormat i with
  | leg o =>
    rw [encode_leg, decode_of_0F (scanPre_encodeLeg h rest)]
    exact decodeLeg_encode h hn
  | vex l o =>
    rw [wf_vexRow] at h
    rw [encode_vexRow] at hn ⊢
    obtain ⟨hop, -⟩ := (VexOperands.wf_iff m o).1 h
    rw [decode_of_C4 (scanPre_encodeVex m l o rest), afterEscape_of_good _ (VexOperands.p1_top h)
      (by rwa [any_badBeforeVex_map, ← Bool.not_eq_true, hasOpSize_iff])]
    exact decodeVex_encode l h hn
  | evex hrow o =>
    rw [wf_evexRow hrow] at h
    rw [encode_evexRow hrow] at hn ⊢
    obtain ⟨hop, -⟩ := (EvexOperands.wf_iff m o).1 h
    rw [decode_of_62 (scanPre_encodeEvex m _ _ o rest), afterEscape_of_good _ (EvexOperands.p0_top h)
      (by rwa [any_badBeforeVex_map, ← Bool.not_eq_true, hasOpSize_iff])]
    exact decodeEvex_encode hrow h hn

/-- Plain prefixes and LOCK before other bytes are scanned with theirs. -/
theorem scanPre_lock (m : Mode) (ps : List Pfx) {bs : List Byte} {pre : List PreByte} {core : List Byte} (h : scanPre m bs = (pre, core)) :
    scanPre m (ps.map Pfx.byte ++ 0xF0 :: bs) = (ps.map PreByte.pfx ++ .lock :: pre, core) := by
  have hlock : preByte? m 0xF0 = some .lock := rfl
  exact scanPre_pfx m ps (by rw [scanPre, hlock, h])

/-- Settles O8: LOCK is among the bytes before the form, and each format looks at it before it refuses anything of the form. -/
theorem lockPrefixIsUndefined : Obligations.LockPrefixIsUndefined := by
  intro m ps i rest h
  have hlock (pre : List PreByte) : .lock ∈ ps.map PreByte.pfx ++ .lock :: pre := by simp
  cases hasFormat i with
  | leg o =>
    obtain ⟨hop, -⟩ := (LegOperands.wf_iff m o).1 h
    have hop' : .pfx .opSize ∈ ps.map PreByte.pfx ++ .lock :: o.pre :=
      List.mem_append_right _ (List.mem_cons_of_mem _ (LegOperands.mem_pre.2 hop))
    rw [encode_leg, decode_of_0F (scanPre_lock m ps (scanPre_encodeLeg h rest))]
    exact ⟨_, decodeLeg_lock m _ _ hop' (hlock _)⟩
  | vex l o =>
    rw [wf_vexRow] at h
    rw [encode_vexRow, decode_of_C4 (scanPre_lock m ps (scanPre_encodeVex m l o rest))]
    exact afterEscape_undefined (VexOperands.p1_top h) _ _ (decodeVex_lock m _ l o _ (hlock _))
  | evex hrow o =>
    rw [wf_evexRow hrow] at h
    rw [encode_evexRow hrow, decode_of_62 (scanPre_lock m ps (scanPre_encodeEvex m _ _ o rest))]
    exact afterEscape_undefined (EvexOperands.p0_top h) _ _ (decodeEvex_lock m _ _ _ o _ (hlock _))

end Sys2Proof
end

section
/-! PROOFS. A placed instruction is the one the next step runs (10_state.md R31; 20_memory.md R40, R43; 30_encoding.md R83). -/

namespace Sys2Proof.Machine

/-- Bytes placed at `pc` within the address range are the first ones fetched. -/
theorem fetchBytes_placeAtPc {s : State} {bs : List Byte} (hmem : s.mem.wf) (hlen : bs.length ≤ ilenMax)
    (hrange : s.pc.toNat + bs.length ≤ fetchLimit s.cfg) : ∃ rest, fetchBytes (placeAtPc s bs) = bs ++ rest := by
  have hlimit := fetchLimit_lt s.cfg
  refine Memory.readBytes_writeBytes hmem (by omega) ?_
  rw [placeAtPc_cfg, placeAtPc_pc]
  omega

/-- Settles O6: the step fetches the encoding and something after it, and decodes that to the instruction. -/
theorem placedInstructionRuns : Obligations.PlacedInstructionRuns := by
  intro s i hmem hwf hrange
  have hlen := len_le_of_wf hwf
  rw [← encode_length] at hlen hrange
  obtain ⟨rest, hfetch⟩ := fetchBytes_placeAtPc hmem hlen hrange
  rw [step, hfetch, placeAtPc_cfg, decode_encode hwf]

end Sys2Proof.Machine
end

section
/-! PROOFS. What decodes is an encoding: the converse of `decode_encode`, format by format, and what it says of M32 (30_encoding.md R60 to R66,
R69, R73, R81 to R83). -/

namespace Sys2Proof

/-- Settles O3: each format reads its own fields back. -/
theorem decodeOfEncode : Obligations.DecodeOfEncode := fun _ _ rest h => decode_encode h rest

/-- An instruction is read by the format that the byte after the prefixes starts. -/
theorem decode_instr_cases {m : Mode} {bs rest : List Byte} {i : Instr} (h : decode m bs = .instr i rest) :
    ∃ pre tl, (scanPre m bs = (pre, 0x0F :: tl) ∧ decodeLeg m bs.length pre tl = .instr i rest)
      ∨ (scanPre m bs = (pre, 0xC4 :: tl) ∧ afterEscape m pre tl (decodeVex m bs.length pre tl) = .instr i rest)
      ∨ (scanPre m bs = (pre, 0x62 :: tl) ∧ afterEscape m pre tl (decodeEvex m bs.length pre tl) = .instr i rest) := by
  unfold decode at h
  split at h
  · cases h
  · rename_i c tl hcore
    have hscan : scanPre m bs = ((scanPre m bs).1, c :: tl) := by rw [← hcore]
    refine ⟨(scanPre m bs).1, tl, ?_⟩
    split_ifs at h with h0F hC4 h62
    · exact .inl ⟨h0F ▸ hscan, h⟩
    · exact .inr (.inl ⟨hC4 ▸ hscan, h⟩)
    · exact .inr (.inr ⟨h62 ▸ hscan, h⟩)

/-! ### Register numbers put together from their fields (30_encoding.md R73) -/

theorem setWidth_reg_fields (reg : BitVec 3) : (reg.setWidth 4).extractLsb' 0 3 = reg ∧ (reg.setWidth 4).toNat < 8 := by
  revert reg
  decide

theorem reg4_fields (r : Bool) (reg : BitVec 3) :
    (BitVec.ofBool r ++ reg).getLsbD 3 = r ∧ (BitVec.ofBool r ++ reg).extractLsb' 0 3 = reg
      ∧ (r = false → (BitVec.ofBool r ++ reg).toNat < 8) := by
  revert r reg
  decide

theorem reg5_fields (r' r : Bool) (reg : BitVec 3) :
    (BitVec.ofBool r' ++ BitVec.ofBool r ++ reg).getLsbD 4 = r' ∧ (BitVec.ofBool r' ++ BitVec.ofBool r ++ reg).getLsbD 3 = r
      ∧ (BitVec.ofBool r' ++ BitVec.ofBool r ++ reg).extractLsb' 0 3 = reg
      ∧ (r' = false → r = false → (BitVec.ofBool r' ++ BitVec.ofBool r ++ reg).toNat < 8) := by
  revert r' r reg
  decide

theorem reg5_high_fields (v : Bool) (n : BitVec 4) :
    (BitVec.ofBool v ++ n).getLsbD 4 = v ∧ (BitVec.ofBool v ++ n).extractLsb' 0 4 = n
      ∧ (v = false → (BitVec.ofBool v ++ n).toNat = n.toNat) := by
  revert v n
  decide

/-- The field `vvvv`, stored inverted, names one of registers 0 to 7 where its top bit is stored as 1 (R81). -/
theorem vvvv_lt_8 {p : Byte} (h : p.getLsbD 6 = true) : (~~~(p.extractLsb' 3 4)).toNat < 8 := by
  revert p
  decide

/-- Bits 7 and 6 of a byte whose bits 7:6 are 11. -/
theorem getLsbD_of_top_two {p : Byte} (h : p.extractLsb' 6 2 = 3) : p.getLsbD 7 = true ∧ p.getLsbD 6 = true := by
  revert p
  decide

/-! ### Format `LEG` (30_encoding.md R61) -/

theorem encodeLeg_append_pre (o : LegOperands) (rest : List Byte) :
    encodeLeg o ++ rest
      = o.pre.map PreByte.byte ++ 0x0F :: 0x38 :: 0x3B :: (encodeRm (o.d.extractLsb' 0 3) o.rm.form ++ rest) := by
  rw [encodeLeg_append, LegOperands.pre, List.map_append, List.map_map, List.append_assoc]
  rfl

/-- The bytes after `0F` that read back as an instruction are those of its encoding, and so are the bytes before it. -/
theorem decodeLeg_sound {m : Mode} {n : Nat} {pre : List PreByte} {bs rest : List Byte} {i : Instr}
    (h : decodeLeg m n pre bs = .instr i rest) (hrex : m = .m32 → ∀ p ∈ pre, p.isRex = false) (hn : n = i.len + rest.length) :
    ∃ o, i = .pminudSse128 o ∧ o.wf m = true ∧ pre = o.pre
      ∧ bs = 0x38 :: 0x3B :: (encodeRm (o.d.extractLsb' 0 3) o.rm.form ++ rest) := by
  unfold decodeLeg at h
  split at h
  · rename_i b1 b2 tl
    split_ifs at h with hop h66 hlock hrep
    obtain ⟨rfl, rfl⟩ := hop
    split at h
    · cases h
    · rename_i ps hpre
      obtain ⟨reg, form, hi, hform, rfl, hlen, ha⟩ := finishDecode_sound h
      have hile : i.len ≤ ilenMax := by omega
      obtain ⟨hd, hlow⟩ := setWidth_reg_fields reg
      obtain rfl := legacyPre_sound hpre
      rw [rexPre, List.append_nil, pfx_mem_map] at h66 ha
      subst hi
      exact ⟨_, rfl, (LegOperands.wf_iff m _).2 ⟨h66, hform, fun _ => ⟨hlow, rfl, rfl⟩, fun hm => ⟨rfl, ha hm⟩, hile⟩, rfl, by rw [hd]⟩
    · rename_i ps w r x b hpre
      obtain ⟨reg, form, hi, hform, rfl, hlen, ha⟩ := finishDecode_sound h
      have hile : i.len ≤ ilenMax := by omega
      obtain ⟨hd3, hd, -⟩ := reg4_fields r reg
      obtain rfl := legacyPre_sound hpre
      have h64 : m ≠ .m32 := fun hm => by simpa [PreByte.isRex] using hrex hm (.rex w r x b) (by simp [rexPre])
      subst hi
      refine ⟨_, rfl, (LegOperands.wf_iff m _).2 ⟨by simpa [rexPre] using h66, hform, fun hnone => ?_, fun hm => absurd hm h64, hile⟩,
        ?_, by rw [hd]⟩
      · exact absurd hnone (Option.some_ne_none w)
      · simp only [LegOperands.pre, LegOperands.rex, Option.map_some, hd3]
  · cases h

/-! ### Format `VEX3` (30_encoding.md R62) -/

theorem vexP1_joined {p : Byte} (hmap : p.extractLsb' 0 5 = 2) :
    BitVec.ofBool (p.getLsbD 7) ++ BitVec.ofBool (p.getLsbD 6) ++ BitVec.ofBool (p.getLsbD 5) ++ (2 : BitVec 5) = p := by
  revert p
  decide

theorem vexP2_joined {p : Byte} (hpp : p.extractLsb' 0 2 = 1) :
    BitVec.ofBool (p.getLsbD 7) ++ p.extractLsb' 3 4 ++ BitVec.ofBool (p.getLsbD 2) ++ (1 : BitVec 2) = p := by
  revert p
  decide

/-- The bytes after `C4` that read back as an instruction are those of its encoding, and so are the prefixes. -/
theorem decodeVex_sound {m : Mode} {n : Nat} {pre : List PreByte} {bs rest : List Byte} {i : Instr}
    (h : decodeVex m n pre bs = .instr i rest) (hbad : pre.any PreByte.badBeforeVex = false)
    (htop : m = .m32 → (bs.headD 0).extractLsb' 6 2 = 3) (hn : n = i.len + rest.length) :
    ∃ l o, i = vexRow l o ∧ o.wf m = true ∧ pre = o.pfx.map PreByte.pfx
      ∧ bs = o.p1 :: o.p2 l :: 0x3B :: (encodeRm (o.d.extractLsb' 0 3) o.rm.form ++ rest) := by
  unfold decodeVex at h
  split at h
  · rename_i p1 p2 op tl
    split_ifs at h with hop hlock hext
    obtain ⟨hmap, hpp, rfl⟩ := hop
    obtain ⟨hpre, h66⟩ := plainPfx_sound hbad hlock
    obtain ⟨reg, form, hi, hform, rfl, hlen, ha⟩ := finishDecode_sound h
    have hile : i.len ≤ ilenMax := by omega
    rw [hpre, pfx_mem_map] at ha
    rw [hi, vexRow_len] at hile
    obtain ⟨hd3, hd, hlow⟩ := reg4_fields (!p1.getLsbD 7) reg
    refine ⟨_, _, hi, (VexOperands.wf_iff m _).2 ⟨h66, hform, fun hm => ?_, hile⟩, hpre, ?_⟩
    · obtain ⟨h7, h6⟩ := getLsbD_of_top_two (htop hm)
      obtain ⟨h5, hv⟩ := not_not.1 fun hne => hext ⟨hm, hne⟩
      rw [List.headD_cons] at h7 h6
      exact ⟨hlow (by rw [h7, Bool.not_true]), vvvv_lt_8 hv, by rw [h6, Bool.not_true], by rw [h5, Bool.not_true], ha hm⟩
    · simp only [VexOperands.p1, VexOperands.p2, hd3, hd, Bool.not_not, BitVec.not_not, vexP1_joined hmap, vexP2_joined hpp]
  · cases h

/-! ### Format `EVEX` (30_encoding.md R63) -/

theorem evexP0_joined {p : Byte} (hmap : p.extractLsb' 0 2 = 2) (hzero : p.extractLsb' 2 2 = 0) :
    BitVec.ofBool (p.getLsbD 7) ++ BitVec.ofBool (p.getLsbD 6) ++ BitVec.ofBool (p.getLsbD 5) ++ BitVec.ofBool (p.getLsbD 4)
      ++ (2 : BitVec 4) = p := by
  revert p
  decide

theorem evexP1_joined {p : Byte} (hpp : p.extractLsb' 0 2 = 1) (hone : p.getLsbD 2 = true) :
    BitVec.ofBool (p.getLsbD 7) ++ p.extractLsb' 3 4 ++ (5 : BitVec 3) = p := by
  revert p
  decide

theorem evexP2_joined (p : Byte) :
    BitVec.ofBool (p.getLsbD 7) ++ p.extractLsb' 5 2 ++ BitVec.ofBool (p.getLsbD 4) ++ BitVec.ofBool (p.getLsbD 3)
      ++ p.extractLsb' 0 3 = p := by
  revert p
  decide

/-- The bytes after `62` that read back as an instruction are those of its encoding, and so are the prefixes. -/
theorem decodeEvex_sound {m : Mode} {n : Nat} {pre : List PreByte} {bs rest : List Byte} {i : Instr}
    (h : decodeEvex m n pre bs = .instr i rest) (hbad : pre.any PreByte.badBeforeVex = false)
    (htop : m = .m32 → (bs.headD 0).extractLsb' 6 2 = 3) (hn : n = i.len + rest.length) :
    ∃ w ll row o, evexRow w ll = some row ∧ i = row o ∧ o.wf m = true ∧ pre = o.pfx.map PreByte.pfx
      ∧ bs = o.p0 :: o.p1 w :: o.p2 ll :: 0x3B :: (encodeRm (o.d.extractLsb' 0 3) o.rm.form ++ rest) := by
  unfold decodeEvex at h
  split at h
  · rename_i p0 p1 p2 op tl
    cases hrow : evexRow (p1.getLsbD 7) (p2.extractLsb' 5 2) with
    | none =>
      simp only [hrow] at h
      split_ifs at h
    | some row =>
      simp only [hrow] at h
      split_ifs at h with hop hlock hfix hres hext
      obtain ⟨hmap, hpp, rfl⟩ := hop
      rw [not_or, not_not, Bool.not_eq_false] at hfix
      obtain ⟨hzero, hone⟩ := hfix
      obtain ⟨hpre, h66⟩ := plainPfx_sound hbad hlock
      obtain ⟨reg, form, hi, hform, rfl, hlen, ha⟩ := finishDecode_sound h
      have hile : i.len ≤ ilenMax := by omega
      rw [hpre, pfx_mem_map] at ha
      rw [hi, evexRow_len hrow] at hile
      obtain ⟨hd4, hd3, hd, hlow⟩ := reg5_fields (!p0.getLsbD 4) (!p0.getLsbD 7) reg
      obtain ⟨hs4, hs, hs1⟩ := reg5_high_fields (!p2.getLsbD 3) (~~~(p1.extractLsb' 3 4))
      rw [reservedP2, mod_encodeRm, Bool.not_eq_true, Bool.or_eq_false_iff] at hres
      obtain ⟨hz, hbc⟩ := hres
      refine ⟨_, _, row, _, hrow, hi, (EvexOperands.wf_iff m _).2 ⟨h66, hform, hz, hbc, fun hm => ?_, hile⟩, hpre, ?_⟩
      · obtain ⟨h7, h6⟩ := getLsbD_of_top_two (htop hm)
        obtain ⟨h5, h4, hv, hv4⟩ := not_not.1 fun hne => hext ⟨hm, hne⟩
        rw [List.headD_cons] at h7 h6
        have hvvvv := vvvv_lt_8 hv
        rw [← hs1 (by rw [hv4, Bool.not_true])] at hvvvv
        exact ⟨hlow (by rw [h4, Bool.not_true]) (by rw [h7, Bool.not_true]), hvvvv, by rw [h6, Bool.not_true], by rw [h5, Bool.not_true],
          ha hm⟩
      · simp only [EvexOperands.p0, EvexOperands.p1, EvexOperands.p2, hd4, hd3, hd, hs4, hs, Bool.not_not, BitVec.not_not,
          evexP0_joined hmap hzero, evexP1_joined hpp hone, evexP2_joined]
  · cases h

/-! ### Whole encodings -/

/-- Bytes that decode are the encoding of a well-formed instruction (R60, R83). -/
theorem decode_sound {m : Mode} {bs rest : List Byte} {i : Instr} (h : decode m bs = .instr i rest) :
    i.wf m = true ∧ bs = encode i ++ rest := by
  have hn := decode_length h
  obtain ⟨pre, tl, ⟨hscan, h⟩ | ⟨hscan, h⟩ | ⟨hscan, h⟩⟩ := decode_instr_cases h
  all_goals obtain ⟨hbs, hrex⟩ := scanPre_sound hscan
  · obtain ⟨o, rfl, hwf, rfl, rfl⟩ := decodeLeg_sound h hrex hn
    exact ⟨hwf, by rw [encode_leg, encodeLeg_append_pre, ← hbs]⟩
  · obtain ⟨h, hbad, htop⟩ := afterEscape_instr h
    obtain ⟨l, o, rfl, hwf, rfl, rfl⟩ := decodeVex_sound h hbad htop hn
    exact ⟨(wf_vexRow m l o).trans hwf, by rw [encode_vexRow, encodeVex_append, hbs, List.map_map]; rfl⟩
  · obtain ⟨h, hbad, htop⟩ := afterEscape_instr h
    obtain ⟨w, ll, row, o, hrow, rfl, hwf, rfl, rfl⟩ := decodeEvex_sound h hbad htop hn
    exact ⟨(wf_evexRow hrow m o).trans hwf, by rw [encode_evexRow hrow, encodeEvex_append, hbs, List.map_map]; rfl⟩

/-- Settles O4: the decoder's converse, with the length that it consumes. -/
theorem encodeOfDecode : Obligations.EncodeOfDecode := by
  intro m bs i rest h
  obtain ⟨hwf, hbs⟩ := decode_sound h
  exact ⟨hwf, hbs, decode_length h, len_le_of_wf hwf⟩

/-! ### What an instruction of each format names -/

theorem vecNum4_toNat (n : BitVec 4) : (Machine.vecNum4 n).toNat = n.toNat := BitVec.toNat_setWidth_of_le (by decide)

theorem vexRow_operands (l : Bool) (o : VexOperands) :
    Machine.destOf (vexRow l o) = Machine.vecNum4 o.d ∧ Machine.s1Of (vexRow l o) = Machine.vecNum4 o.s1
      ∧ Machine.rmOf (vexRow l o) = o.rm ∧ Machine.pfxOf (vexRow l o) = o.pfx := by
  cases l <;> exact ⟨rfl, rfl, rfl, rfl⟩

theorem evexRow_operands {w : Bool} {ll : BitVec 2} {row : EvexOperands → Instr} (h : evexRow w ll = some row) (o : EvexOperands) :
    Machine.destOf (row o) = o.d ∧ Machine.s1Of (row o) = o.s1 ∧ Machine.rmOf (row o) = o.rm ∧ Machine.pfxOf (row o) = o.pfx := by
  unfold evexRow at h
  split_ifs at h <;> cases h <;> exact ⟨rfl, rfl, rfl, rfl⟩

/-- Settles O11: what decodes is well-formed, and in M32 that bounds the registers of each format. -/
theorem m32NamesEightRegisters : Obligations.M32NamesEightRegisters := by
  intro bs i rest h
  obtain ⟨hwf, -⟩ := decode_sound h
  cases hasFormat i with
  | leg o =>
    obtain ⟨-, -, hlow, h32, -⟩ := (LegOperands.wf_iff _ o).1 hwf
    obtain ⟨hrex, ha⟩ := h32 rfl
    obtain ⟨hd, hx, hb⟩ := hlow hrex
    have hreg : (Machine.vecNum4 o.d).toNat < 8 := by rwa [vecNum4_toNat]
    exact ⟨hreg, hreg, hx, hb, ha⟩
  | vex l o =>
    obtain ⟨hdest, hs1, hrm, hpfx⟩ := vexRow_operands l o
    obtain ⟨-, -, h32, -⟩ := (VexOperands.wf_iff _ o).1 (wf_vexRow .m32 l o ▸ hwf)
    rw [hdest, hs1, hrm, hpfx, vecNum4_toNat, vecNum4_toNat]
    exact h32 rfl
  | evex hrow o =>
    obtain ⟨hdest, hs1, hrm, hpfx⟩ := evexRow_operands hrow o
    obtain ⟨-, -, -, -, h32, -⟩ := (EvexOperands.wf_iff _ o).1 (wf_evexRow hrow .m32 o ▸ hwf)
    rw [hdest, hs1, hrm, hpfx]
    exact h32 rfl

end Sys2Proof
end

section
/-! PROOFS. What is `#UD` before a VEX or EVEX form and within an EVEX one, and what is another instruction (30_encoding.md R62, R63, R74,
R81 to R83, R90). -/

namespace Sys2Proof

/-! ### Bytes that must not stand before the form -/

theorem badBeforeVex_of_rexByte {b : Byte} (hlo : 0x40 ≤ b.toNat) (hhi : b.toNat ≤ 0x4F) :
    ∃ p, preByte? .m64 b = some p ∧ p.badBeforeVex = true := by
  have hany : ∀ b : Byte, 0x40 ≤ b.toNat → b.toNat ≤ 0x4F → (preByte? .m64 b).any PreByte.badBeforeVex = true := by decide
  exact (Option.any_eq_true _ _).1 (hany b hlo hhi)

/-- `66`, F2, F3, and in M64 a byte 40 to 4F, are read as bytes that must not stand before `C4` or `62` (R62, R63, R83). -/
theorem preByte_bad {m : Mode} {b : Byte} (h : b = 0x66 ∨ b = 0xF2 ∨ b = 0xF3 ∨ (m = .m64 ∧ 0x40 ≤ b.toNat ∧ b.toNat ≤ 0x4F)) :
    ∃ p, preByte? m b = some p ∧ p.badBeforeVex = true := by
  obtain rfl | rfl | rfl | ⟨rfl, hlo, hhi⟩ := h
  · exact ⟨.pfx .opSize, rfl, rfl⟩
  · exact ⟨.repne, rfl, rfl⟩
  · exact ⟨.rep, rfl, rfl⟩
  · exact badBeforeVex_of_rexByte hlo hhi

/-- Plain prefixes and one more byte that may stand among them, before other bytes, are scanned with theirs. -/
theorem scanPre_pfx_cons {m : Mode} (ps : List Pfx) {b : Byte} {p : PreByte} (hb : preByte? m b = some p) {bs : List Byte}
    {pre : List PreByte} {core : List Byte} (h : scanPre m bs = (pre, core)) :
    scanPre m (ps.map Pfx.byte ++ b :: bs) = (ps.map PreByte.pfx ++ p :: pre, core) :=
  scanPre_pfx m ps (by rw [scanPre, hb, h])

/-- A bad byte before `C4` or `62` decides before the rest of the form is read (R83). -/
theorem afterEscape_bad {m : Mode} {b : Byte} (hm : m = .m32 → b.extractLsb' 6 2 = 3) {pre : List PreByte} {p : PreByte} (hp : p ∈ pre)
    (hbad : p.badBeforeVex = true) (bs : List Byte) (body : Decoded) :
    afterEscape m pre (b :: bs) body = .undefined .badPrefixBeforeVex := by
  rw [afterEscape_cons hm, if_pos (List.any_eq_true.2 ⟨p, hp, hbad⟩)]

/-- Settles O9: the byte is read as one that must not stand there, and `C4` or `62` looks at it first. -/
theorem prefixBeforeVexIsUndefined : Obligations.PrefixBeforeVexIsUndefined := by
  intro m ps i b rest h hleg hb
  obtain ⟨p, hp, hbad⟩ := preByte_bad hb
  have hmem (pre : List PreByte) : p ∈ ps.map PreByte.pfx ++ p :: pre := by simp
  cases hasFormat i with
  | leg o => cases hleg
  | vex l o =>
    rw [wf_vexRow] at h
    rw [encode_vexRow, decode_of_C4 (scanPre_pfx_cons ps hp (scanPre_encodeVex m l o rest))]
    exact afterEscape_bad (VexOperands.p1_top h) (hmem _) hbad _ _
  | evex hrow o =>
    rw [wf_evexRow hrow] at h
    rw [encode_evexRow hrow, decode_of_62 (scanPre_pfx_cons ps hp (scanPre_encodeEvex m _ _ o rest))]
    exact afterEscape_bad (EvexOperands.p0_top h) (hmem _) hbad _ _

/-! ### The bytes from `62` to the opcode -/

/-- The bytes from `62` on that are `#UD` in map `0F38` with `pp = 01`: reserved bits, `L'L = 11`, `z = 1` with `aaa = 000`, `b = 1` with
`mod = 11` (R90). -/
def evexUndefined (p0 p1 p2 : Byte) (rest : List Byte) : Prop :=
  p0.extractLsb' 2 2 ≠ 0 ∨ p1.getLsbD 2 = false ∨ p2.extractLsb' 5 2 = 3 ∨ (p2.getLsbD 7 = true ∧ p2.extractLsb' 0 3 = 0)
    ∨ (p2.getLsbD 4 = true ∧ ∃ modrm tl, rest = modrm :: tl ∧ modrm.extractLsb' 6 2 = 3)

theorem decodeEvex_undefined {m : Mode} {n : Nat} {ps : List Pfx} {p0 p1 p2 : Byte} {rest : List Byte} (hmap : p0.extractLsb' 0 2 = 2)
    (hpp : p1.extractLsb' 0 2 = 1) (h : evexUndefined p0 p1 p2 rest) :
    ∃ why, decodeEvex m n (ps.map PreByte.pfx) (p0 :: p1 :: p2 :: 0x3B :: rest) = .undefined why := by
  simp only [decodeEvex, hmap, hpp, and_self, if_true, lock_not_mem_map, if_false]
  split
  · exact ⟨_, rfl⟩
  · rename_i hfix
    split
    · exact ⟨_, rfl⟩
    · rename_i row hrow
      have hres : reservedP2 p2 rest = true := by
        obtain h0 | h1 | hll | ⟨hz, haaa⟩ | ⟨hbc, modrm, tl, rfl, hmod⟩ := h
        · exact absurd (.inl h0) hfix
        · exact absurd (.inr h1) hfix
        · rw [hll] at hrow
          cases hrow
        · simp [reservedP2, hz, haaa]
        · simp [reservedP2, hbc, hmod]
      exact ⟨_, by rw [if_pos hres]⟩

/-- Another `mm` or `pp` is another instruction, whatever its other bits (R87). -/
theorem decodeEvex_other (m : Mode) (n : Nat) (pre : List PreByte) {p0 p1 : Byte} (p2 : Byte) (rest : List Byte)
    (h : p0.extractLsb' 0 2 ≠ 2 ∨ p1.extractLsb' 0 2 ≠ 1) :
    decodeEvex m n pre (p0 :: p1 :: p2 :: 0x3B :: rest) = .refused .notInScope :=
  if_neg fun ⟨hmap, hpp, _⟩ => h.elim (absurd hmap) (absurd hpp)

/-- An encoding that is no form in scope is refused as such, also where R81 does not take `62` for the start of an EVEX form. -/
theorem afterEscape_notInScope {m : Mode} {pre : List PreByte} (hbad : pre.any PreByte.badBeforeVex = false) (b : Byte) (bs : List Byte) :
    afterEscape m pre (b :: bs) (.refused .notInScope) = .refused .notInScope := by
  by_cases hm : m = .m32 → b.extractLsb' 6 2 = 3
  · exact afterEscape_of_good _ hm hbad
  · rw [afterEscape, if_neg (by simp)]
    exact if_pos (Classical.not_imp.1 hm)

/-- Settles O10: behind prefixes that may stand there the EVEX bytes themselves decide. -/
theorem evexReservedBitsAreUndefined : Obligations.EvexReservedBitsAreUndefined := by
  intro m ps p0 p1 p2 rest h66
  have hscan : scanPre m (ps.map Pfx.byte ++ 0x62 :: p0 :: p1 :: p2 :: 0x3B :: rest)
      = (ps.map PreByte.pfx, 0x62 :: p0 :: p1 :: p2 :: 0x3B :: rest) := by
    rw [scanPre_pfx m ps (scanPre_core _ (by cases m <;> rfl)), List.append_nil]
  have hgood : (ps.map PreByte.pfx).any PreByte.badBeforeVex = false := by
    rwa [any_badBeforeVex_map, ← Bool.not_eq_true, hasOpSize_iff]
  rw [decode_of_62 hscan]
  refine ⟨fun htop hmap hpp h => ?_, fun h => ?_⟩
  · rw [afterEscape_of_good _ htop hgood]
    exact decodeEvex_undefined hmap hpp h
  · rw [decodeEvex_other _ _ _ p2 rest h]
    exact afterEscape_notInScope hgood _ _

end Sys2Proof
end

section
/-! PROOFS. The effective address as a sum of integers, and the unit of a one-byte displacement (30_encoding.md R65 to R68, R76). -/

namespace Sys2Proof.Machine

/-! ### The sum over the integers (R67) -/

/-- The sum of the machine is that of the integers, cut to 64 bits. -/
theorem eaSum_eq_ofInt (s : State) (rm : Rm) (len n : Nat) : eaSum s rm len n = BitVec.ofInt 64 (eaInt 64 s rm len n) := by
  unfold eaSum eaInt
  cases rm.form with
  | reg _ => rfl
  | base r disp => simp only [BitVec.ofInt_add, lowInt_64, ofInt_toNat64, dispVal_eq_ofInt]
  | disp32 d =>
    cases hm : s.cfg.mode with
    | m64 =>
      rw [if_pos rfl, BitVec.ofInt_add, BitVec.ofInt_add, lowInt_64, ofInt_toNat64, BitVec.ofInt_natCast]
      rfl
    | m32 =>
      simp only [reduceCtorEq, if_false, BitVec.ofInt_add]
      rfl
  | sib scale ix r disp => simp only [BitVec.ofInt_add, lowInt_64, ofInt_toNat64, dispVal_eq_ofInt, indexVal_eq_ofInt]
  | sibNoBase scale ix d =>
    simp only [BitVec.ofInt_add, indexVal_eq_ofInt]
    rfl

section
variable {width : Nat}

/-- The low bits of a register are congruent to the whole register. -/
theorem lowInt_modEq (v : Addr) : lowInt width v ≡ lowInt 64 v [ZMOD 2 ^ width] := by
  rw [lowInt_64, lowInt]
  push_cast
  exact Int.mod_modEq _ _

theorem indexInt_modEq (s : State) (rm : Rm) (scale : BitVec 2) (ix : BitVec 3) :
    indexInt width s rm scale ix ≡ indexInt 64 s rm scale ix [ZMOD 2 ^ width] := by
  unfold indexInt
  split
  · rfl
  · exact (lowInt_modEq _).mul_right _

/-- Cutting the registers first does not change the sum modulo the width (R67, R68; log 8). -/
theorem eaInt_modEq (s : State) (rm : Rm) (len n : Nat) : eaInt width s rm len n ≡ eaInt 64 s rm len n [ZMOD 2 ^ width] := by
  unfold eaInt
  cases rm.form with
  | reg _ => rfl
  | base r disp => exact (lowInt_modEq _).add_right _
  | disp32 d =>
    refine Int.ModEq.add_right _ ?_
    split
    · exact (lowInt_modEq _).add_right _
    · rfl
  | sib scale ix r disp => exact ((lowInt_modEq _).add (indexInt_modEq s rm scale ix)).add_right _
  | sibNoBase scale ix d => exact (indexInt_modEq s rm scale ix).add_right _

end

theorem toNat_eaSum (s : State) (rm : Rm) (len n : Nat) : ((eaSum s rm len n).toNat : Int) = eaInt 64 s rm len n % 2 ^ 64 := by
  rw [eaSum_eq_ofInt, BitVec.toNat_ofInt]
  omega

/-- The offset is the sum of the integers modulo its width. -/
theorem toNat_eaOff (s : State) (pfx : List Pfx) (rm : Rm) (len n : Nat) {width : Nat}
    (hw : width = if s.cfg.mode = .m32 ∨ .addrSize ∈ pfx then 32 else 64) :
    ((eaOff s pfx rm len n).toNat : Int) = eaInt width s rm len n % 2 ^ width := by
  unfold eaOff
  split_ifs at hw ⊢
  · subst hw
    rw [toNat_low32, eaInt_modEq s rm len n]
    push_cast
    rw [toNat_eaSum, Int.emod_emod_of_dvd _ (by decide)]
  · subst hw
    exact toNat_eaSum s rm len n

theorem toNat_wrapLinear_add (m : Mode) (a b : Addr) :
    (wrapLinear m (a + b)).toNat = (a.toNat + b.toNat) % 2 ^ (if m = .m32 then 32 else 64) := by
  cases m with
  | m64 => exact BitVec.toNat_add a b
  | m32 =>
    rw [wrapLinear, toNat_low32, BitVec.toNat_add]
    exact Nat.mod_mod_of_dvd _ (by decide)

/-- Settles O32: the offset is the integers' sum cut to its width, and the segment base is added modulo the address width. -/
theorem effectiveAddressIsModularSum : Obligations.EffectiveAddressIsModularSum := fun s pfx rm len n =>
  ⟨fun _ hw => toNat_eaOff s pfx rm len n hw, toNat_wrapLinear_add s.cfg.mode _ _⟩

/-! ### Compressed displacement (R76) -/

/-- `N` of an EVEX form, as R76 lists it: the size of the element or of the full operand. -/
theorem disp8Scale_of_evex {i : Instr} {o : EvexOperands} {w vl : Nat} (h : evexParts i = some (o, w, vl)) :
    disp8Scale i = if o.bc = true then (if w = 32 then 4 else 8) else (if vl = 128 then 16 else if vl = 256 then 32 else 64) := by
  cases i <;> cases h <;> rfl

theorem disp8Scale_of_not_evex {i : Instr} (h : evexParts i = none) : disp8Scale i = 1 := by simp only [disp8Scale, h]

/-- The sum for an operand with a base. -/
theorem eaInt_of_base {width : Nat} {s : State} {rm : Rm} {r : BitVec 3} {disp : Disp} {index : Int} (len n : Nat)
    (h : (rm.form = .base r disp ∧ index = 0) ∨ ∃ scale ix, rm.form = .sib scale ix r disp ∧ index = indexInt width s rm scale ix) :
    eaInt width s rm len n = lowInt width (s.gpr (baseNum rm r)) + index + dispInt n disp := by
  obtain ⟨hform, rfl⟩ | ⟨scale, ix, hform, rfl⟩ := h
  · simp only [eaInt, hform, add_zero]
  · simp only [eaInt, hform]

/-- Settles O34: O32 at an operand with a base, with the unit of the form. -/
theorem disp8IsScaled : Obligations.Disp8IsScaled := by
  intro i s r disp width index hw hform
  obtain ⟨hoff, haddr⟩ := effectiveAddressIsModularSum s (pfxOf i) (rmOf i) i.len (disp8Scale i)
  rw [opAddr, haddr]
  push_cast
  rw [hoff width hw, eaInt_of_base _ _ hform]
  cases disp with
  | none => rfl
  | d32 v => rfl
  | d8 v =>
    cases hparts : evexParts i with
    | none => simp only [dispInt, disp8Scale_of_not_evex hparts, Nat.cast_one]
    | some parts =>
      obtain ⟨o, w, vl⟩ := parts
      simp only [dispInt, disp8Scale_of_evex hparts]
      push_cast
      rfl

end Sys2Proof.Machine
end

section
/-! PROOFS. What a step does with what it decoded; the register operand, ignored bits and reserved combinations of a form (30_encoding.md R70 to R78,
R83, R90). -/

namespace Sys2Proof.Machine

/-! ### The step and the decoder (R83, R90) -/

section
variable {s : State}

theorem step_of_instr {i : Instr} {rest : List Byte} (h : decode s.cfg.mode (fetchBytes s) = .instr i rest) : step s = exec i s := by
  rw [step, h]

theorem step_of_undefined {why : UdReason} (h : decode s.cfg.mode (fetchBytes s) = .undefined why) : step s = .fault (.ud s.pc) := by
  rw [step, h]
  rfl

theorem step_of_refused {why : DecodeRefusal} (h : decode s.cfg.mode (fetchBytes s) = .refused why) :
    step s = .refused (refusalOf why) := by
  rw [step, h]

end

/-- Settles O5: the three answers of the decoder, with the one refusal that is of the address range. -/
theorem stepRunsDecodedInstruction : Obligations.StepRunsDecodedInstruction := fun _ =>
  ⟨fun _ _ h => step_of_instr h, fun _ h => step_of_undefined h,
    fun _ h hwhy => (step_of_refused h).trans (by rw [refusalOf, if_neg hwhy]), fun h => step_of_refused h⟩

/-- Settles O7: one word of each format, and one of M32, evaluated. -/
theorem specWordsDecode : Obligations.SpecWordsDecode := by
  unfold Obligations.SpecWordsDecode
  decide

/-! ### Ignored bits and reserved combinations (R75, R78, R90) -/

/-- Settles O29: the outcome of a form looks at neither bit; that a REX byte stands there counts for `ilen` alone. -/
theorem ignoredWBits : Obligations.IgnoredWBits := fun _ _ _ _ _ => ⟨rfl, rfl, rfl⟩

theorem formUd_of_reserved (s : State) {i : Instr} (h : reservedCombination i) : formUd s i = true := by
  cases hparts : evexParts i with
  | none => simp [reservedCombination, hparts] at h
  | some parts =>
    obtain ⟨o, w, vl⟩ := parts
    simp only [reservedCombination, hparts, ← evexReserved_eq_false_iff, Bool.not_eq_false] at h
    rw [formUd_of_evex s hparts, h, Bool.or_true]

/-- Settles O39: the combination is part of the form's `#UD` test. -/
theorem reservedCombinationRaisesUd : Obligations.ReservedCombinationRaisesUd := fun _ s h =>
  exec_of_formUd (formUd_of_reserved s h)

/-! ### The register operand (R70 to R73) -/

theorem lanes_fit (i : Instr) : vlOf i / widthOf i * widthOf i ≤ 512 := (Nat.div_mul_le_self _ _).trans (vlOf_le_512 i)

theorem s1Of_of_evex {i : Instr} {o : EvexOperands} {w vl : Nat} (h : evexParts i = some (o, w, vl)) : s1Of i = o.s1 := by
  cases i <;> cases h <;> rfl

/-- The legacy form has four dword lanes, and its destination is its first source (R70). -/
theorem legacy_shape {i : Instr} (h : isLegacy i = true) : widthOf i = 32 ∧ vlOf i = 128 ∧ s1Of i = destOf i := by
  cases i <;> cases h
  exact ⟨rfl, rfl, rfl⟩

theorem widthOf_of_not_evex {i : Instr} (h : evexParts i = none) : widthOf i = 32 := by
  cases i <;> cases h <;> rfl

/-- A lane that no writemask leaves inactive is the minimum of the two sources' lanes, in every form (R100, R110, R111, R120). -/
theorem lane_formValue (s : State) (i : Instr) {j : Nat} (hj : j < vlOf i / widthOf i)
    (hactive : ∀ o w vl, evexParts i = some (o, w, vl) → laneActive s o.aaa j = true) :
    lane (widthOf i) (formValue s i) j = umin (lane (widthOf i) (s.vec (s1Of i)) j) (lane (widthOf i) (secondSource s i) j) := by
  have hfit := lanes_fit i
  cases hparts : evexParts i with
  | some parts =>
    obtain ⟨o, w, vl⟩ := parts
    have hsource : secondSource s i = evexSource2 s o w vl := by simp only [secondSource, hparts]
    have hlane := hactive o w vl hparts
    obtain ⟨rfl, rfl⟩ := evexParts_eq_some hparts
    rw [formValue_of_evex s hparts, lane_maskedMinLanes _ _ _ _ _ hj hfit, if_pos hlane, s1Of_of_evex hparts, hsource]
  | none =>
    rw [widthOf_of_not_evex hparts] at hj hfit ⊢
    cases hleg : isLegacy i with
    | true =>
      obtain ⟨-, hvl, hs1⟩ := legacy_shape hleg
      rw [hvl] at hj
      rw [formValue_of_legacy s hleg, lane_keepUpper128 _ _ hj, lane_minLanes _ _ hj (by decide), hs1]
    | false => rw [formValue_of_vex s hleg hparts, lane_minLanes _ _ hj hfit]

/-- The register that the r/m operand names is the second source (R73). -/
theorem secondSource_reg (s : State) {i : Instr} {n : BitVec 3} {r : BitVec 5} (h : (rmOf i).form = .reg n)
    (hr : r.toNat = (if (evexParts i).isSome then 16 * (rmOf i).x.toNat else 0) + 8 * (rmOf i).b.toNat + n.toNat) :
    secondSource s i = s.vec r := by
  cases hparts : evexParts i with
  | some parts =>
    obtain ⟨o, w, vl⟩ := parts
    rw [rmOf_of_evex hparts] at h hr
    rw [hparts, Option.isSome_some, if_pos rfl] at hr
    simp only [secondSource, hparts]
    rw [evexSource2_reg s w vl h, rmNum5_eq hr]
  | none =>
    rw [hparts, Option.isSome_none, if_neg Bool.false_ne_true, Nat.zero_add, ← rmNum4_toNat] at hr
    simp only [secondSource, hparts]
    rw [source2_reg s _ _ _ h, BitVec.eq_of_toNat_eq hr]

/-- Settles O48: the value written has the minimum in each active lane, and the second source is the register named. -/
theorem registerOperandResult : Obligations.RegisterOperandResult := by
  intro i s t n r hform hr hnext j hj hactive
  rw [vec_destOf_of_next hnext, ← secondSource_reg s hform hr]
  exact lane_formValue s i hj fun o w vl hparts => (laneActive_eq_true_iff s o.aaa j).2 (hactive o w vl hparts)

end Sys2Proof.Machine
end

section
/-! PROOFS. The legacy form completes, what it writes, and the VEX form on the same registers
(40_pminud_legacy_sse.md R100; 41_vpminud_vex.md R110). -/

namespace Sys2Proof.Machine

/-! ### The values the two 128-bit forms write (R100, R110) -/

theorem formValue_pminudSse128 (s : State) (o : LegOperands) :
    formValue s (.pminudSse128 o)
      = keepUpper128 (s.vec (vecNum4 o.d)) (minLanes 32 4 (s.vec (vecNum4 o.d)) (source2 s o.pfx o.rm o.len 16)) := by
  rw [formValue_of_legacy s rfl]
  simp only [destOf, secondSource, evexParts, pfxOf, rmOf, Instr.len, vlOf]

theorem formValue_vpminudVex128 (s : State) (o : VexOperands) :
    formValue s (.vpminudVex128 o) = minLanes 32 4 (s.vec (vecNum4 o.s1)) (source2 s o.pfx o.rm o.len 16) := by
  obtain ⟨-, -, hvalue⟩ := vexParts_eq_some (i := .vpminudVex128 o) rfl
  exact hvalue s

/-! ### Completion of the legacy form (R100; 70_reset_and_hazards.md R172) -/

/-- On a ready machine with an operand that can be read, no check of R148 stops the legacy form. -/
theorem exec_pminudSse128_completes {o : LegOperands} {s : State} (hready : legReady s.cfg) (hok : legOperandOk s o) :
    exec (.pminudSse128 o) s = .next (s.complete (vecNum4 o.d) (formValue s (.pminudSse128 o)) o.len) := by
  have ⟨_, _, _, hts⟩ := hready
  rw [formValue_pminudSse128]
  exact runForm_completes (legUd_of_ready hready) hts ((legStop_eq_none_iff s o).2 hok)

/-- Settles O12: the form completes, and the lanes, the upper bits and the frame are those of the value it writes. -/
theorem pminudSse128Result : Obligations.PminudSse128Result := by
  intro o s hready hok
  refine ⟨_, exec_pminudSse128_completes hready hok, fun j hj => ?lanes, fun b hb => ?upper, rfl, complete_sameButDest ..⟩
  case lanes =>
    rw [State.complete_vec_same, formValue_pminudSse128, lane_keepUpper128 _ _ hj, lane_minLanes _ _ hj (by decide)]
  case upper =>
    rw [State.complete_vec_same]
    exact formValue_getLsbD_legacy s rfl hb

/-! ### The legacy and the VEX form on the same registers (10_state.md R22) -/

/-- Below bit 128 the two forms write the same bits when they have the same sources, whatever operands those are. -/
theorem formValue_getLsbD_legacy_eq_vex {s : State} {ol : LegOperands} {ov : VexOperands}
    (hfirst : s.vec (vecNum4 ol.d) = s.vec (vecNum4 ov.s1))
    (hsecond : source2 s ol.pfx ol.rm ol.len 16 = source2 s ov.pfx ov.rm ov.len 16) {b : Nat} (hb : b < 128) :
    (formValue s (.pminudSse128 ol)).getLsbD b = (formValue s (.vpminudVex128 ov)).getLsbD b := by
  rw [formValue_pminudSse128, formValue_vpminudVex128, keepUpper128_getLsbD, if_pos hb, hfirst, hsecond]

/-- Settles O20: both forms read the register the shared r/m field names; from bit 128 on each follows its own write discipline. -/
theorem legacyAndVexAgreeBelow128 : Obligations.LegacyAndVexAgreeBelow128 := by
  intro ol ov s t u n hd hs1 hrm hreg hlegacy hvex b
  have hfirst : s.vec (vecNum4 ol.d) = s.vec (vecNum4 ov.s1) := by rw [hd, hs1]
  have hsecond : source2 s ol.pfx ol.rm ol.len 16 = source2 s ov.pfx ov.rm ov.len 16 := by
    rw [source2_reg s _ _ _ hreg, source2_reg s _ _ _ (hrm ▸ hreg), hrm]
  have ht : t.vec (vecNum4 ol.d) = formValue s (.pminudSse128 ol) := vec_destOf_of_next hlegacy
  have hu : u.vec (vecNum4 ov.d) = formValue s (.vpminudVex128 ov) := vec_destOf_of_next hvex
  rw [ht, hu]
  exact ⟨formValue_getLsbD_legacy_eq_vex hfirst hsecond,
    fun hb => ⟨formValue_getLsbD_legacy s rfl hb, formValue_getLsbD_high s rfl hb⟩⟩

end Sys2Proof.Machine
end

section
/-! PROOFS. The two VEX forms complete, and what they write (41_vpminud_vex.md R110, R111). -/

namespace Sys2Proof.Machine

/-- Both VEX forms are the operation of R110 and R111, with their own feature flag and vector length. -/
theorem exec_of_vex (s : State) {i : Instr} {o : VexOperands} {vl : Nat} (h : vexParts i = some (o, vl)) :
    exec i s = vexMin (present s.cfg.feat i) vl o s := by
  cases i <;> cases h <;> rfl

theorem vlOf_of_vex {i : Instr} {o : VexOperands} {vl : Nat} (h : vexParts i = some (o, vl)) : vlOf i = vl := by
  cases i <;> cases h <;> rfl

/-- On a ready machine with an operand that can be read, no check of R148 stops a VEX form: its flag makes MAXVL reach its vector length (R7), and
R45 asks for no alignment. -/
theorem exec_vex_completes {i : Instr} {o : VexOperands} {vl : Nat} {s : State} (hparts : vexParts i = some (o, vl)) (hwf : platformWf s.cfg)
    (hready : vexReady s.cfg (present s.cfg.feat i)) (hok : vexOperandOk s o (vl / 8)) :
    exec i s = .next (s.complete (vecNum4 o.d)
      (minLanes 32 (vl / 32) (s.vec (vecNum4 o.s1)) (source2 s o.pfx o.rm o.len (vl / 8))) o.len) := by
  have ⟨hflag, _, hts⟩ := hready
  have hvl : vl ≤ s.cfg.maxvl.bits := vlOf_of_vex hparts ▸ vlOf_le_bits_of_present hwf hflag
  rw [exec_of_vex s hparts]
  exact runForm_completes (vexUd_of_ready hready hvl) hts ((vexStop_eq_none_iff s o (vl / 8)).2 hok)

/-- What completing means for a VEX form of vector length `vl`: the lanes, the zeroed upper bits, `pc` and the frame (R110, R111; 10_state.md R22). -/
theorem exec_vex_result {i : Instr} {o : VexOperands} {vl : Nat} {s : State} (hparts : vexParts i = some (o, vl)) (hwf : platformWf s.cfg)
    (hready : vexReady s.cfg (present s.cfg.feat i)) (hok : vexOperandOk s o (vl / 8)) :
    ∃ t, exec i s = .next t
      ∧ (∀ j, j < vl / 32 → lane 32 (t.vec (vecNum4 o.d)) j
          = umin (lane 32 (s.vec (vecNum4 o.s1)) j) (lane 32 (source2 s o.pfx o.rm o.len (vl / 8)) j))
      ∧ (∀ b, vl ≤ b → (t.vec (vecNum4 o.d)).getLsbD b = false)
      ∧ t.pc = s.pc + BitVec.ofNat 64 o.len ∧ sameButDest (vecNum4 o.d) s t := by
  have hlanes : vl / 32 * 32 ≤ vl := Nat.div_mul_le_self vl 32
  have hvl : vl ≤ 512 := vlOf_of_vex hparts ▸ vlOf_le_512 i
  refine ⟨_, exec_vex_completes hparts hwf hready hok, fun j hj => ?lanes, fun b hb => ?upper, rfl, complete_sameButDest ..⟩
  case lanes => rw [State.complete_vec_same, lane_minLanes _ _ hj (hlanes.trans hvl)]
  case upper =>
    rw [State.complete_vec_same]
    exact pack_getLsbD_high _ (by decide) (hlanes.trans hb)

/-- Settles O13: the two forms are the VEX forms of vector length 128 with AVX and 256 with AVX2. -/
theorem vpminudVexResult : Obligations.VpminudVexResult :=
  ⟨fun o _ => exec_vex_result (i := .vpminudVex128 o) rfl, fun o _ => exec_vex_result (i := .vpminudVex256 o) rfl⟩

end Sys2Proof.Machine
end

section
/-! PROOFS. The six EVEX forms complete, and what they write; all lanes masked off, and no writemask at all (42_vpminud_vpminuq_evex.md R120 to R126). -/

namespace Sys2Proof.Machine

/-! ### Completion of an EVEX form (R120; 70_reset_and_hazards.md R172) -/

/-- All six EVEX forms are the operation of R120, with their own lane width and vector length. -/
theorem exec_of_evex (s : State) {i : Instr} {o : EvexOperands} {w vl : Nat} (h : evexParts i = some (o, w, vl)) :
    exec i s = evexMin w vl o s := by
  cases i <;> cases h <;> rfl

/-- On a ready machine, with an encoding that is not reserved and an operand that can be read where R49 asks it, no check of R148 stops an EVEX
form: AVX512F makes MAXVL 512 (R7), which reaches every vector length. -/
theorem exec_evex_completes {i : Instr} {o : EvexOperands} {w vl : Nat} {s : State} (hparts : evexParts i = some (o, w, vl))
    (hwf : platformWf s.cfg) (hready : evexReady s.cfg vl) (hlegal : evexLegal o) (hok : evexOperandOk s o w vl) :
    exec i s = .next (s.complete o.d
      (maskedMinLanes w (vl / w) (laneActive s o.aaa) o.z (s.vec o.d) (s.vec o.s1) (evexSource2 s o w vl)) o.len) := by
  have ⟨havx512f, _, _, _, hts⟩ := hready
  obtain ⟨-, hvl⟩ := evexParts_eq_some hparts
  have hle : vl ≤ s.cfg.maxvl.bits := bits_of_avx512f hwf havx512f ▸ hvl ▸ vlOf_le_512 i
  have hud : (evexUd s.cfg vl || evexReserved o) = false := by
    rw [evexUd_of_ready hready hle, (evexReserved_eq_false_iff o).2 hlegal, Bool.false_or]
  rw [exec_of_evex s hparts]
  exact runForm_completes hud hts ((evexStop_eq_none_iff s o w vl).2 hok)

/-- A constructor whose instructions are EVEX forms of lane width `w` and vector length `vl` completes with the masked minima, the upper bits
zeroed, and nothing else changed (R120; 10_state.md R22, R25). -/
theorem evexCompletes_of_evexParts {w vl : Nat} {form : EvexOperands → Instr} (hparts : ∀ o, evexParts (form o) = some (o, w, vl)) :
    evexCompletes w vl form := by
  intro o s hwf hready hlegal hok
  obtain ⟨hw, hvl⟩ := evexParts_eq_some (hparts o)
  have hwidth : 0 < w := hw ▸ widthOf_pos (form o)
  have hlanes : vl / w * w = vl := lanes_mul_width (hparts o)
  have hfit : vl / w * w ≤ 512 := hlanes.trans_le (hvl ▸ vlOf_le_512 (form o))
  refine ⟨_, exec_evex_completes (hparts o) hwf hready hlegal hok, fun j hj => ?lanes, fun b hb => ?upper, rfl, complete_sameButDest ..⟩
  case lanes =>
    rw [State.complete_vec_same, lane_maskedMinLanes _ _ _ _ _ hj hfit]
    simp only [laneActive_eq_true_iff]
  case upper =>
    rw [State.complete_vec_same]
    exact pack_getLsbD_high _ hwidth (hlanes.trans_le hb)

/-- Settles O14: the three constructors are the EVEX forms with dword lanes. -/
theorem vpminudEvexResult : Obligations.VpminudEvexResult :=
  ⟨evexCompletes_of_evexParts fun _ => rfl, evexCompletes_of_evexParts fun _ => rfl, evexCompletes_of_evexParts fun _ => rfl⟩

/-- Settles O15: the three constructors are the EVEX forms with qword lanes. -/
theorem vpminuqEvexResult : Obligations.VpminuqEvexResult :=
  ⟨evexCompletes_of_evexParts fun _ => rfl, evexCompletes_of_evexParts fun _ => rfl, evexCompletes_of_evexParts fun _ => rfl⟩

/-! ### Every lane masked off (R121 corner cases b and c) -/

/-- Where no lane is active the sources have no part in the value: each lane is the old destination's (merging) or 0 (zeroing). -/
theorem maskedMinLanes_inactive_getLsbD {w n : Nat} (hw : 0 < w) {active : Nat → Bool} (hoff : ∀ j, j < n → active j = false)
    (z : Bool) (d a b : Vec) (k : Nat) :
    (maskedMinLanes w n active z d a b).getLsbD k = (decide (k < n * w) && (!z && d.getLsbD k)) := by
  have hsources : maskedMinLanes w n (fun _ => false) z d a b = maskedMinLanes w n (fun _ => false) z d d d := rfl
  rw [maskedMinLanes_congr hoff, hsources, maskedMinLanes_self_getLsbD hw, if_neg Bool.false_ne_true]

/-- Under a writemask a lane whose mask bit is 0 is inactive (10_state.md R24). -/
theorem laneActive_eq_false {s : State} {aaa : BitVec 3} {j : Nat} (haaa : aaa ≠ 0) (hbit : (s.opmask aaa).getLsbD j = false) :
    laneActive s aaa j = false := by
  rw [← Bool.not_eq_true, laneActive_eq_true_iff, hbit]
  exact not_or_intro haaa Bool.false_ne_true

/-- Settles O19: the bits of the value written, with every lane inactive. -/
theorem fullyMaskedOff : Obligations.FullyMaskedOff := by
  intro i o w vl s t hparts haaa hmask hnext
  obtain ⟨hw, -⟩ := evexParts_eq_some hparts
  have hbits (b : Nat) : (t.vec o.d).getLsbD b = (decide (b < vl) && (!o.z && (s.vec o.d).getLsbD b)) := by
    rw [← destOf_of_evexParts hparts, vec_destOf_of_next hnext, formValue_of_evex s hparts,
      maskedMinLanes_inactive_getLsbD (hw ▸ widthOf_pos i) fun j hj => laneActive_eq_false haaa (hmask j hj),
      lanes_mul_width hparts, destOf_of_evexParts hparts]
  refine ⟨fun hz b => ?merging, fun hz => BitVec.eq_of_getLsbD_eq fun b _ => ?zeroing⟩
  case merging => simp [hbits, hz]
  case zeroing => simp [hbits, hz]

/-! ### No writemask (R121 corner case a) -/

/-- Without a writemask the masked minimum is the plain one, whatever the mask register, the zeroing bit and the old destination. -/
theorem maskedMinLanes_unmasked (s : State) {aaa : BitVec 3} (haaa : aaa = 0) (w n : Nat) (z : Bool) (d a b : Vec) :
    maskedMinLanes w n (laneActive s aaa) z d a b = minLanes w n a b := by
  rw [minLanes_eq_maskedMinLanes w n z d a b]
  exact maskedMinLanes_congr (fun j _ => (laneActive_eq_true_iff s aaa j).2 (.inl haaa)) z d a b

/-- With the X bit clear an EVEX form's register operand is the one the other formats name (30_encoding.md R73). -/
theorem rmNum5_eq_rmNum4 {rm : Rm} (hx : rm.x = false) (n : BitVec 3) : rmNum5 rm n = rmNum4 rm n :=
  rmNum5_eq (by rw [rmNum4_toNat, hx, Bool.toNat_false, Nat.mul_zero, Nat.zero_add])

/-- Settles O21: both forms write the plain lane minimum of the same two registers. -/
theorem unmaskedEvexAgreesWithVex : Obligations.UnmaskedEvexAgreesWithVex := by
  intro ie iv oe ov vl s t u n hevex hvex haaa hd hs1 hrm hx hreg ht hu
  obtain ⟨hdest, -, hvalue⟩ := vexParts_eq_some hvex
  calc t.vec oe.d
      = formValue s ie := by rw [← destOf_of_evexParts hevex, vec_destOf_of_next ht]
    _ = minLanes 32 (vl / 32) (s.vec oe.s1) (s.vec (rmNum5 oe.rm n)) := by
        rw [formValue_of_evex s hevex, maskedMinLanes_unmasked s haaa, evexSource2_reg s 32 vl hreg]
    _ = minLanes 32 (vl / 32) (s.vec (vecNum4 ov.s1)) (s.vec (rmNum4 ov.rm n)) := by
        rw [hs1, rmNum5_eq_rmNum4 hx, hrm]
    _ = formValue s iv := by rw [hvalue, source2_reg s _ _ _ (hrm ▸ hreg)]
    _ = u.vec oe.d := by rw [hd, ← hdest, vec_destOf_of_next hu]

end Sys2Proof.Machine
end

section
/-! PROOFS. When a form raises `#UD` and `#NM`, and what a fault of its operand's read reports (60_exceptions.md R141 to R148). -/

namespace Sys2Proof.Machine

/-! ### What each exception records (R143) -/

/-- Settles O46: the table of R143, row by row. -/
theorem exceptionIdentities : Obligations.ExceptionIdentities := fun _ _ _ =>
  ⟨rfl, rfl, rfl, rfl, rfl, rfl, rfl, rfl, rfl, rfl, rfl, rfl, rfl, rfl, rfl⟩

/-! ### `#UD` and `#NM` (R141, R142, R144, R145) -/

/-- The feature flags are the first part of every form's `#UD` test. -/
theorem formUd_of_not_present {s : State} {i : Instr} (h : present s.cfg.feat i = false) : formUd s i = true := by
  cases hparts : evexParts i with
  | some parts =>
    obtain ⟨o, w, vl⟩ := parts
    rw [present_of_evex s.cfg.feat hparts] at h
    simp [formUd_of_evex s hparts, evexUd, h]
  | none =>
    cases i
    case pminudSse128 o =>
      have hflag : s.cfg.feat.sse41 = false := h
      simp [formUd, legUd, hflag]
    case vpminudVex128 o =>
      have hflag : s.cfg.feat.avx = false := h
      simp [formUd, vexUd, hflag]
    case vpminudVex256 o =>
      have hflag : s.cfg.feat.avx2 = false := h
      simp [formUd, vexUd, hflag]
    all_goals simp [evexParts] at hparts

/-- Settles O35: the flag is part of the form's `#UD` test. -/
theorem clearFeatureFlagRaisesUd : Obligations.ClearFeatureFlagRaisesUd := fun _ _ h =>
  exec_of_formUd (formUd_of_not_present h)

/-- What stops a form after its `#UD` test and that of `#NM` is `#SS(0)`, `#GP(0)`, a page fault or a refusal (R148). -/
theorem formStop_exc_cases {s : State} {i : Instr} {e : Exc} (h : formStop s i = some (.exc e)) :
    e = .ss ∨ e = .gp ∨ ∃ code a, e = .pf code a := by
  by_cases halign : misaligned s i
  · rw [formStop_of_misaligned halign] at h
    cases h
    exact .inr (.inl rfl)
  · rw [formStop_of_mem (hasMem_of_formStop h) halign, readStop] at h
    obtain hstop | hstop | ⟨code, a, hstop⟩ | hstop :=
      accessStop_cases s.cfg (operandSeg (pfxOf i) (rmOf i)) (opAddr s i) (opBytes i) (opNeeded s i) <;>
      rw [hstop] at h <;> cases h
    · unfold segExc
      split <;> simp
    · exact .inr (.inr ⟨code, a, rfl⟩)

/-- An instruction that passes both tests raises neither exception. -/
theorem exec_ne_ud_nm {s : State} {i : Instr} (hud : formUd s i = false) (hts : s.cfg.env.ts = false) (pc : Addr) :
    exec i s ≠ .fault (.ud pc) ∧ exec i s ≠ .fault (.nm pc) := by
  rw [exec_eq_runForm]
  cases hstop : formStop s i with
  | none => simp [runForm_completes hud hts rfl]
  | some st =>
    rw [runForm_stop hud hts rfl]
    cases st with
    | refuse r => simp [stopOutcome]
    | exc e => obtain rfl | rfl | ⟨code, a, rfl⟩ := formStop_exc_cases hstop <;> simp [stopOutcome, raise]

theorem exec_of_ts {s : State} {i : Instr} (hud : formUd s i = false) (hts : s.cfg.env.ts = true) : exec i s = .fault (.nm s.pc) := by
  rw [exec_eq_runForm, runForm_nm hud hts]

/-- An instruction raises `#UD` exactly when its test holds. -/
theorem exec_ud_iff (i : Instr) (s : State) : exec i s = .fault (.ud s.pc) ↔ formUd s i = true := by
  refine ⟨fun h => ?_, exec_of_formUd⟩
  by_contra hud
  rw [Bool.not_eq_true] at hud
  cases hts : s.cfg.env.ts with
  | true => simp [exec_of_ts hud hts] at h
  | false => exact (exec_ne_ud_nm hud hts s.pc).1 h

/-- An instruction raises `#NM` exactly when TS is set and its `#UD` test does not hold. -/
theorem exec_nm_iff (i : Instr) (s : State) : exec i s = .fault (.nm s.pc) ↔ s.cfg.env.ts = true ∧ formUd s i = false := by
  refine ⟨fun h => ?_, fun ⟨hts, hud⟩ => exec_of_ts hud hts⟩
  cases hud : formUd s i with
  | true => simp [exec_of_formUd hud] at h
  | false =>
    refine ⟨?_, rfl⟩
    by_contra hts
    exact (exec_ne_ud_nm hud (Bool.eq_false_of_not_eq_true hts) s.pc).2 h

/-- Settles O36: with R7's tie the form's test is the list of conditions. -/
theorem udExactlyWhen : Obligations.UdExactlyWhen := fun i s hwf =>
  (exec_ud_iff i s).trans (formUd_iff_udCondition hwf i)

/-- Settles O37: with R7's tie the form's `#UD` test is the list of conditions, and TS is looked at next. -/
theorem nmExactlyWhen : Obligations.NmExactlyWhen := by
  intro i s hwf
  rw [exec_nm_iff, ← formUd_iff_udCondition hwf i, Bool.not_eq_true]

/-! ### Segmentation and the canonical check (R146) -/

/-- Settles O41: either rejection stops the read with the exception of the operand's segment. -/
theorem segmentationFaultKind : Obligations.SegmentationFaultKind := by
  intro i s k hwf hud hts hmem halign hk hneeded hreject
  have hstop : readStop s i = some (.exc (segExc (operandSeg (pfxOf i) (rmOf i)))) := by
    obtain hcanonical | ⟨hwhole, hseg⟩ := hreject
    · exact accessStop_noncanonical _ hk hneeded hcanonical
    · exact accessStop_segmentation _ hwhole hk hneeded hseg
  rw [exec_of_readStop (comesToRead_of_no_ud hwf hud hts hmem halign) hstop, stopOutcome_segExc]

/-! ### Page faults (R143, R147) -/

/-- Byte by byte, a read that segmentation and the canonical check let pass reports the picked one of its page faults. -/
theorem accessStop_picked {c : Platform} (seg : Seg) {ea : Addr} {n : Nat} {needed : Nat → Bool} {code : BitVec 32} {a : Addr}
    (hwhole : accessWhole c ea n needed = none) (hseg : ∀ j < n, needed j = true → segFaultAt c (byteAddr c.mode ea j) = false)
    (hpick : (pageFaults c ea n needed)[accessPick c ea n % (pageFaults c ea n needed).length]? = some (code, a)) :
    accessStop c seg ea n needed = some (.exc (.pf code a)) := by
  simp only [segFaultAt, Bool.or_eq_false_iff, Bool.not_eq_false'] at hseg
  have hcanonical : canonicalOperand c ea n needed := fun j hj hn => (hseg j hj hn).1
  have hregion : ¬((List.range n).any fun j => needed j && segRegionAt c (byteAddr c.mode ea j)) = true := by
    simpa using fun j hj hn => (hseg j hj hn).2
  have haccess : access c ea n needed = .page code a := by
    rw [access_of_bytes hwhole, accessByBytes, if_neg hregion, hpick]
  rw [accessStop_of_canonical seg hcanonical, haccess]

/-- Whatever is picked of the page faults of an operand that has one, it is the fault of a needed byte. -/
theorem picked_pageFault {c : Platform} {ea : Addr} {n k : Nat} {needed : Nat → Bool} {code : BitVec 32} (hk : k < n) (hn : needed k = true)
    (hfault : pageFaultAt c (byteAddr c.mode ea k) = some code) (pick : Nat) :
    ∃ j code', j < n ∧ needed j = true ∧ pageFaultAt c (byteAddr c.mode ea j) = some code'
      ∧ (pageFaults c ea n needed)[pick % (pageFaults c ea n needed).length]? = some (code', byteAddr c.mode ea j) := by
  cases hpick : (pageFaults c ea n needed)[pick % (pageFaults c ea n needed).length]? with
  | none =>
    rw [pick_eq_none_iff, pageFaults_eq_nil_iff] at hpick
    simp [hpick k hk hn] at hfault
  | some p =>
    obtain ⟨code', a⟩ := p
    obtain ⟨j, hj, hnj, hcode, rfl⟩ := (mem_pageFaults c ea n needed _).1 (List.mem_of_getElem? hpick)
    exact ⟨j, code', hj, hnj, hcode, rfl⟩

/-- The page fault of every needed byte is the picked one for some pick. -/
theorem exists_pick_pageFault {c : Platform} {ea : Addr} {n k : Nat} {needed : Nat → Bool} {code : BitVec 32} (hk : k < n)
    (hn : needed k = true) (hfault : pageFaultAt c (byteAddr c.mode ea k) = some code) :
    ∃ pick, (pageFaults c ea n needed)[pick % (pageFaults c ea n needed).length]? = some (code, byteAddr c.mode ea k) := by
  obtain ⟨pick, hpick⟩ := List.mem_iff_getElem?.1 ((mem_pageFaults c ea n needed (code, _)).2 ⟨k, hk, hn, hfault, rfl⟩)
  obtain ⟨hlt, -⟩ := List.getElem?_eq_some_iff.1 hpick
  exact ⟨pick, by rwa [Nat.mod_eq_of_lt hlt]⟩

/-- The bits of the code of every page fault that the regions raise. -/
theorem pageFaultAt_code_bits {c : Platform} {a : Addr} {code : BitVec 32} (h : pageFaultAt c a = some code) :
    code.getLsbD 1 = false ∧ code.getLsbD 4 = false ∧ code.getLsbD 2 = (c.env.cpl == 3) ∧ ∀ b, 6 ≤ b → code.getLsbD b = false := by
  obtain ⟨p, r, pk, rfl⟩ := pageFaultAt_eq_some h
  obtain ⟨-, hwr, hus, -, hid, -, hhigh⟩ := pfCode_bits c.env p r pk
  exact ⟨hwr, hid, hus, hhigh⟩

/-- The parameters with an entry that leaves the operand of `n` bytes at `ea` to the regions and picks among its page faults. -/
def withPick (c : Platform) (ea : Addr) (n pick : Nat) : Platform :=
  { c with accessEntries := ⟨ea, n, .bytes pick⟩ :: c.accessEntries }

theorem accessEntry_withPick (c : Platform) (ea : Addr) (n pick : Nat) : accessEntry (withPick c ea n pick) ea n = some (.bytes pick) := by
  simp [accessEntry, withPick]

theorem accessPick_withPick (c : Platform) (ea : Addr) (n pick : Nat) : accessPick (withPick c ea n pick) ea n = pick := by
  rw [accessPick, accessEntry_withPick]

theorem accessWhole_withPick (c : Platform) (ea : Addr) (n pick : Nat) (needed : Nat → Bool) :
    accessWhole (withPick c ea n pick) ea n needed = none := by
  rw [accessWhole, accessEntry_withPick]
  split <;> rfl

/-- Such an entry changes nothing that comes before the read of the operand. -/
theorem comesToRead_withPick {s : State} {i : Instr} (h : comesToRead s i) (ea : Addr) (n pick : Nat) :
    comesToRead { s with cfg := withPick s.cfg ea n pick } i := by
  have hud : formUd { s with cfg := withPick s.cfg ea n pick } i = formUd s i := rfl
  rw [comesToRead, hud]
  exact h

/-- Settles O42: the picked page fault is a needed byte's, and an entry for the operand can pick any. -/
theorem pageFaultCodeAndAddress : Obligations.PageFaultCodeAndAddress := by
  intro i s k code hwf hud hts hmem halign hwhole hseg hk hneeded hfault
  have hread := comesToRead_of_no_ud hwf hud hts hmem halign
  refine ⟨?reported, ?anyByte, pageFaultAt_code_bits hfault⟩
  case reported =>
    obtain ⟨j, code', hj, hnj, hcode, hpick⟩ := picked_pageFault hk hneeded hfault (accessPick s.cfg (opAddr s i) (opBytes i))
    exact ⟨j, code', hj, hnj, hcode, exec_of_readStop hread (accessStop_picked _ hwhole hseg hpick)⟩
  case anyByte =>
    obtain ⟨pick, hpick⟩ := exists_pick_pageFault hk hneeded hfault
    have hstop : accessStop (withPick s.cfg (opAddr s i) (opBytes i) pick) (operandSeg (pfxOf i) (rmOf i)) (opAddr s i) (opBytes i) (opNeeded s i)
        = some (.exc (.pf code (byteAddr s.cfg.mode (opAddr s i) k))) := by
      refine accessStop_picked _ (accessWhole_withPick ..) hseg ?_
      rw [accessPick_withPick]
      exact hpick
    exact ⟨pick, exec_of_readStop (comesToRead_withPick hread (opAddr s i) (opBytes i) pick) hstop⟩

end Sys2Proof.Machine
end

section
/-! PROOFS. The privilege level: the U/S bit of a page-fault code, and nothing else (60_exceptions.md R143, R160). -/

namespace Sys2Proof.Machine

/-! ### The U/S bit at a privilege level -/

/-- A page-fault code with the U/S bit of privilege level `l`. -/
def codeAt (l : BitVec 2) (code : BitVec 32) : BitVec 32 := if l = 3 then code ||| 4#32 else code &&& ~~~4#32

theorem codeAt_getLsbD (l : BitVec 2) (code : BitVec 32) {b : Nat} (hb : b ≠ 2) : (codeAt l code).getLsbD b = code.getLsbD b := by
  have hbit : (4#32).getLsbD b = false := by
    rw [show (4#32) = BitVec.twoPow 32 2 from rfl, BitVec.getLsbD_twoPow]
    simp [hb.symm]
  unfold codeAt
  split
  · rw [BitVec.getLsbD_or, hbit, Bool.or_false]
  · rw [BitVec.getLsbD_and, BitVec.getLsbD_not, hbit, Bool.not_false, Bool.and_true]
    cases hcode : code.getLsbD b with
    | false => rfl
    | true => simp [BitVec.lt_of_getLsbD hcode]

/-- A page fault with its code at privilege level `l`; the other exceptions as they are. -/
def Exc.atLevel (l : BitVec 2) : Exc → Exc
  | .pf code a => .pf (codeAt l code) a
  | .ud => .ud
  | .nm => .nm
  | .ss => .ss
  | .gp => .gp

def Stop.atLevel (l : BitVec 2) : Stop → Stop
  | .exc e => .exc (e.atLevel l)
  | .refuse r => .refuse r

def Access.atLevel (l : BitVec 2) : Access → Access
  | .page code a => .page (codeAt l code) a
  | .ok => .ok
  | .segmentation => .segmentation

def Fault.atLevel (l : BitVec 2) : Fault → Fault
  | .pf pc code a => .pf pc (codeAt l code) a
  | .ud pc => .ud pc
  | .nm pc => .nm pc
  | .ss pc => .ss pc
  | .gp pc => .gp pc

/-- The same platform at privilege level `l`. -/
def platformAtLevel (l : BitVec 2) (c : Platform) : Platform := { c with env := { c.env with cpl := l } }

/-- The same state at privilege level `l`. -/
def State.atLevel (l : BitVec 2) (s : State) : State := { s with cfg := platformAtLevel l s.cfg }

/-- An outcome as privilege level `l` has it. -/
def outcomeAtLevel (l : BitVec 2) : Outcome → Outcome
  | .next t => .next (t.atLevel l)
  | .fault f => .fault (f.atLevel l)
  | .refused r => .refused r

/-! ### The access check at a privilege level -/

section
variable (l : BitVec 2) (c : Platform)

theorem pfCode_atLevel (e : Env) (p rsvd pk : Bool) : pfCode { e with cpl := l } p rsvd pk = codeAt l (pfCode e p rsvd pk) := by
  unfold pfCode codeAt
  dsimp only
  generalize (e.cpl == 3) = us
  by_cases hl : l = 3
  · subst hl
    revert us p rsvd pk
    decide
  · rw [if_neg hl, beq_eq_false_iff_ne.2 hl]
    revert us p rsvd pk
    decide

theorem pageFaultAt_atLevel (a : Addr) : pageFaultAt (platformAtLevel l c) a = (pageFaultAt c a).map (codeAt l) := by
  unfold pageFaultAt
  rw [List.map_findSome?]
  congr 1
  funext r
  cases hkind : r.kind with
  | segmentation => simp [hkind]
  | device => simp [hkind]
  | page p rsvd pk =>
    by_cases hin : inRegion r a = true
    · simp [hkind, hin, platformAtLevel, pfCode_atLevel l c.env]
    · simp [hkind, hin]

/-- The page faults of an operand are those of the same bytes. -/
theorem pageFaults_atLevel (ea : Addr) (n : Nat) (needed : Nat → Bool) :
    pageFaults (platformAtLevel l c) ea n needed = (pageFaults c ea n needed).map (Prod.map (codeAt l) id) := by
  have hmode : (platformAtLevel l c).mode = c.mode := rfl
  unfold pageFaults
  rw [List.map_filterMap]
  refine List.filterMap_congr fun k _ => ?_
  rw [pageFaultAt_atLevel, hmode]
  cases needed k <;> cases pageFaultAt c (byteAddr c.mode ea k) <;> rfl

theorem accessByBytes_atLevel (ea : Addr) (n : Nat) (needed : Nat → Bool) :
    accessByBytes (platformAtLevel l c) ea n needed = (accessByBytes c ea n needed).atLevel l := by
  have hpick : accessPick (platformAtLevel l c) ea n = accessPick c ea n := rfl
  have hseg : ((List.range n).any fun k => needed k && segRegionAt (platformAtLevel l c) (byteAddr (platformAtLevel l c).mode ea k))
      = (List.range n).any fun k => needed k && segRegionAt c (byteAddr c.mode ea k) := rfl
  unfold accessByBytes
  rw [hseg, hpick, pageFaults_atLevel, List.length_map, List.getElem?_map]
  split
  · rfl
  · cases (pageFaults c ea n needed)[accessPick c ea n % (pageFaults c ea n needed).length]? <;> rfl

theorem accessWhole_atLevel (ea : Addr) (n : Nat) (needed : Nat → Bool) :
    accessWhole (platformAtLevel l c) ea n needed = (accessWhole c ea n needed).map (Access.atLevel l) := by
  have hentry : accessEntry (platformAtLevel l c) ea n = accessEntry c ea n := rfl
  by_cases hall : ∀ k < n, needed k = true
  · cases h : accessEntry c ea n with
    | none => simp [accessWhole, hentry, h]
    | some r =>
      rw [accessWhole_of_entry hall h, accessWhole_of_entry hall (hentry.trans h)]
      cases r with
      | page p rsvd pk byte => simp [ownValue, Access.atLevel, platformAtLevel, pfCode_atLevel l c.env]
      | bytes pick => rfl
      | ok => rfl
      | segmentation => rfl
  · simp only [not_forall] at hall
    obtain ⟨k, hk, hn⟩ := hall
    have hnone (c' : Platform) := accessWhole_of_not_needed c' ea hk (Bool.eq_false_of_not_eq_true hn)
    rw [hnone, hnone, Option.map_none]

theorem access_atLevel (ea : Addr) (n : Nat) (needed : Nat → Bool) :
    access (platformAtLevel l c) ea n needed = (access c ea n needed).atLevel l := by
  rw [access, accessWhole_atLevel, accessByBytes_atLevel, Option.getD_map, access]

/-- With `Access` held fixed a read is stopped at every level by the same exception, a page fault with that level's code. -/
theorem accessStop_atLevel (seg : Seg) (ea : Addr) (n : Nat) (needed : Nat → Bool) :
    accessStop (platformAtLevel l c) seg ea n needed = (accessStop c seg ea n needed).map (Stop.atLevel l) := by
  have hseg : (segExc seg).atLevel l = segExc seg := by
    unfold segExc
    split <;> rfl
  by_cases hcanonical : canonicalOperand c ea n needed
  · have hdevice : ((List.range n).any fun k => deviceAt (platformAtLevel l c) (byteAddr (platformAtLevel l c).mode ea k))
        = (List.range n).any fun k => deviceAt c (byteAddr c.mode ea k) := rfl
    rw [accessStop_of_canonical (c := platformAtLevel l c) seg hcanonical, accessStop_of_canonical seg hcanonical, access_atLevel, hdevice]
    cases access c ea n needed with
    | segmentation => simp [Access.atLevel, Stop.atLevel, hseg]
    | page code a => rfl
    | ok =>
      dsimp only [Access.atLevel]
      split <;> rfl
  · simp only [canonicalOperand, not_forall] at hcanonical
    obtain ⟨k, hk, hn, hnot⟩ := hcanonical
    have hfalse := Bool.eq_false_of_not_eq_true hnot
    rw [accessStop_noncanonical (c := platformAtLevel l c) seg hk hn hfalse, accessStop_noncanonical seg hk hn hfalse]
    simp [Stop.atLevel, hseg]

end

/-! ### An instruction at a privilege level -/

section
variable (l : BitVec 2) (s : State)

theorem formStop_atLevel (i : Instr) : formStop (s.atLevel l) i = (formStop s i).map (Stop.atLevel l) := by
  have haddr : opAddr (s.atLevel l) i = opAddr s i := rfl
  have hneeded : opNeeded (s.atLevel l) i = opNeeded s i := rfl
  have hcfg : (s.atLevel l).cfg = platformAtLevel l s.cfg := rfl
  unfold formStop
  rw [haddr, hneeded, hcfg, accessStop_atLevel]
  split
  · split <;> rfl
  · rfl

theorem raise_atLevel (e : Exc) : raise (e.atLevel l) (s.atLevel l) = outcomeAtLevel l (raise e s) := by
  cases e <;> rfl

theorem stopOutcome_atLevel (st : Stop) : stopOutcome (st.atLevel l) (s.atLevel l) = outcomeAtLevel l (stopOutcome st s) := by
  cases st with
  | exc e => exact raise_atLevel l s e
  | refuse r => rfl

theorem runForm_atLevel (ud : Bool) (stop : Option Stop) (d : BitVec 5) (v : Vec) (len : Nat) :
    runForm (s.atLevel l) ud (stop.map (Stop.atLevel l)) d v len = outcomeAtLevel l (runForm s ud stop d v len) := by
  have hts : (s.atLevel l).cfg.env.ts = s.cfg.env.ts := rfl
  unfold runForm
  rw [hts]
  split
  · exact raise_atLevel l s .ud
  · split
    · exact raise_atLevel l s .nm
    · cases stop with
      | none => rfl
      | some st => exact stopOutcome_atLevel l s st

/-- An instruction has at every level the outcome it has at one, with the U/S bit of that level. -/
theorem exec_atLevel (i : Instr) : exec i (s.atLevel l) = outcomeAtLevel l (exec i s) := by
  have hud : formUd (s.atLevel l) i = formUd s i := rfl
  have hvalue : formValue (s.atLevel l) i = formValue s i := rfl
  rw [exec_eq_runForm, exec_eq_runForm, hud, hvalue, formStop_atLevel, runForm_atLevel]

end

/-- An outcome that is no page fault has nothing that depends on the level but the level itself. -/
theorem outcomeAtLevel_of_no_pageFault (l : BitVec 2) {o : Outcome} (h : ∀ pc code a, o ≠ .fault (.pf pc code a)) :
    outcomeAtLevel l o = onNext (State.atLevel l) o := by
  cases o with
  | next t => rfl
  | refused r => rfl
  | fault f =>
    cases f with
    | pf pc code a => exact absurd rfl (h pc code a)
    | ud pc => rfl
    | nm pc => rfl
    | ss pc => rfl
    | gp pc => rfl

/-- Settles O28: the level is seen in the code of a page fault alone. -/
theorem privilegeOnlyInPageFaultCode : Obligations.PrivilegeOnlyInPageFaultCode := by
  intro i s l
  refine ⟨fun h => ?_, fun pc code a h => ?_⟩
  · exact (exec_atLevel l s i).trans (outcomeAtLevel_of_no_pageFault l h)
  · refine ⟨codeAt l code, (exec_atLevel l s i).trans ?_, fun b hb => codeAt_getLsbD l code hb⟩
    rw [h]
    rfl

end Sys2Proof.Machine
end

section
/-! PROOFS. The endings of a run (60_exceptions.md R149, R150; 70_reset_and_hazards.md R175). -/

namespace Sys2Proof.Machine

/-- What an ending says of the state it holds. -/
def RunEnd.justified (top : Nat) : RunEnd → Prop
  | .finished t => t.pc.toNat = top
  | .faulted f t => step t = .fault f ∧ t.pc.toNat ≠ top
  | .refused r t => step t = .refused r ∧ t.pc.toNat ≠ top
  | .unfinished _ => True

theorem runTo_justified (top n : Nat) (s : State) : (runTo top n s).justified top := by
  induction n generalizing s with
  | zero =>
    unfold runTo
    split
    · assumption
    · trivial
  | succ n ih =>
    unfold runTo
    split
    · assumption
    · next hpc =>
      cases hstep : step s with
      | next t => exact ih t
      | fault f => exact ⟨hstep, hpc⟩
      | refused r => exact ⟨hstep, hpc⟩

/-- Completed steps that run from the next state run from this one, one step later. -/
theorem run_succ_of_next {M : Host.Core} {s t : M.State} (h : M.step s = .next t) (k : Nat) : M.run (k + 1) s = M.run k t := by
  rw [Host.Core.run, h]

/-- The state a run of `n` steps ends in is reached by at most `n` completed ones. -/
theorem runTo_reached (top n : Nat) (s : State) : ∃ k ≤ n, Sys2Proof.core.run k s = .next (runTo top n s).state := by
  induction n generalizing s with
  | zero =>
    refine ⟨0, le_rfl, ?_⟩
    unfold runTo
    split <;> rfl
  | succ n ih =>
    unfold runTo
    split
    · exact ⟨0, Nat.zero_le _, rfl⟩
    · cases hstep : step s with
      | next t =>
        obtain ⟨k, hk, hrun⟩ := ih t
        exact ⟨k + 1, Nat.succ_le_succ hk, (run_succ_of_next (M := Sys2Proof.core) hstep k).trans hrun⟩
      | fault f => exact ⟨0, Nat.zero_le _, rfl⟩
      | refused r => exact ⟨0, Nat.zero_le _, rfl⟩

/-- Settles O47: every ending is justified by the step of its state, and a fault names that state's `pc`. -/
theorem runEndings : Obligations.RunEndings := by
  intro top n s
  have hjust {e : RunEnd} (h : runTo top n s = e) : e.justified top := h ▸ runTo_justified top n s
  refine ⟨fun t h => hjust h, fun f t h => ?_, fun r t h => hjust h, fun t h => ?_⟩
  · obtain ⟨hstep, hpc⟩ := hjust h
    exact ⟨hstep, step_fault hstep, hpc⟩
  · rw [runReaches_iff] at h
    exact h ▸ runTo_reached top n s

end Sys2Proof.Machine
end
